-- ==== Sys2Proof/Config.lean ====
section
/-! DEFINITION. The constants of rules R6 to R8: "plain immutable configuration values with no lifecycle",
hardwired and never written (R21, R39). The string table of rule R170 stands in Machine/Strings.lean.
`LENW` is taken unbounded (R8, log entry 5); `T_RUN` is used by no rule and has no counterpart (log entry 12). -/

namespace Sys2Proof.Config

/-- R6: bytes in the Ethernet header. -/
def ethLen : Nat := 14
/-- R6: bytes of IPv4 header the parser reads, always. -/
def ipLen : Nat := 20
/-- R6: bytes of ICMP header the parser reads. -/
def icmpLen : Nat := 4
/-- R6: bytes of TCP header the parser reads. -/
def tcpLen : Nat := 20
/-- R6: bytes of UDP header the parser reads. -/
def udpLen : Nat := 8
/-- R6: the only ethertype that continues decoding. -/
def ethertypeIpv4 : BitVec 16 := 0x0800
/-- R6: the protocol number that selects ICMP. -/
def protoIcmp : BitVec 8 := 1
/-- R6: the protocol number that selects TCP. -/
def protoTcp : BitVec 8 := 6
/-- R6: the protocol number that selects UDP. -/
def protoUdp : BitVec 8 := 17
/-- R6: the largest payload sample, in bytes. -/
def sampleMax : Nat := 64
/-- R6: byte slots per dump row. -/
def rowBytes : Nat := 16
/-- R6: byte slots per dump group. -/
def groupBytes : Nat := 2
/-- R7: the frame offset of the first byte of the transport header, for every frame. -/
def t0 : Nat := ethLen + ipLen
/-- R7: the block never reads a frame byte at this offset or above. -/
def maxRead : Nat := t0 + sampleMax
/-- R7: characters of content in every dump row. -/
def rowChars : Nat := 56
/-- R7: the largest number of lines one report holds. -/
def maxLines : Nat := 52
/-- R8: width in characters of the tag column. -/
def tagw : Nat := 8
/-- R8: spaces before a bit-annotation mask. -/
def annotIndent : Nat := 6
/-- R8, R25: position of the delay bit in the type-of-service byte (PRESUMED by the spec, D12; log entry 15). -/
def tosDBit : Nat := 4
/-- R8, R25: position of the throughput bit in the type-of-service byte. -/
def tosTBit : Nat := 3
/-- R8, R25: position of the reliability bit in the type-of-service byte. -/
def tosRBit : Nat := 2

end Sys2Proof.Config
end

