-- ==== Sys2Proof/Word.lean ====
section
/-! DEFINITION. The word types of the packet header parser: a byte of the frame (8 bits, rule R22) and a
string of the report (a finite sequence of characters, rule R16). -/

namespace Sys2Proof

/-- One byte of the frame: 8 bits, unsigned (R11, R22). -/
abbrev Byte := BitVec 8

/-- A string of rule R16: a finite sequence of characters. That each character is in 0x20..0x7E is the
check `Text.printable` (R16, R164), not part of the type. -/
abbrev Text := List Char

/-- R16, R164: every character of the string is an ASCII code in 0x20..0x7E. -/
def Text.printable (t : Text) : Bool :=
  t.all fun c => decide (0x20 ≤ c.toNat) && decide (c.toNat ≤ 0x7E)

end Sys2Proof
end

