-- ==== Sys2Proof/Machine/Operands.lean ====
section
/-! DEFINITION. The value operations of 40_primitives.md: the byte-order converter, the bit-field extractor and
the arithmetic (R115 to R124). All are exact operations on unsigned integers; none wraps (R11, R124). -/

namespace Sys2Proof.Machine

/-- R115, the loop of `BE`: `v <- v * 256 + s[i]`, from the first byte on. -/
def beFrom (v : Nat) : List Byte → Nat
  | [] => v
  | b :: s => beFrom (v * 256 + b.toNat) s

/-- `BE(s)` (R12, R115): the byte at the lower frame offset is the more significant (R67). -/
def beOf (s : List Byte) : Nat := beFrom 0 s

/-- `BYTES(v, n)` (R116): `[v[8n-1:8n-8], ..., v[15:8], v[7:0]]`. -/
def bytesOf (v n : Nat) : List Byte :=
  (List.range n).map fun i => BitVec.ofNat 8 (v >>> (8 * (n - 1 - i)))

/-- `U8(s)` (R117): `s mod 256`. -/
def u8Of (s : Int) : Byte := BitVec.ofNat 8 (s % 256).toNat

/-- `BIT(v, i)` (R118): `(v >> i) mod 2`. -/
def bitOf (v i : Nat) : Nat := (v >>> i) % 2

/-- `BITS(v, hi, lo)` (R119): `(v >> lo) mod 2^(hi-lo+1)`. -/
def bitsOf (v hi lo : Nat) : Nat := (v >>> lo) % 2 ^ (hi - lo + 1)

/-- `MUL4(v)` (R120). -/
def mul4Of (v : Nat) : Nat := v * 4

/-- `MUL8(v)` (R120). -/
def mul8Of (v : Nat) : Nat := v * 8

/-- `MIN(a, b)` (R121). -/
def minimumOf (a b : Nat) : Nat := if a ≤ b then a else b

/-- `EQ(a, b)` (R122). -/
def equalOf (a b : Nat) : Bool := a == b

end Sys2Proof.Machine
end

