-- ==== Sys2Proof/Syntax.lean ====
section
/-! DEFINITION. The instructions: one constructor per row of spec/opcode_table.json, in the table's order.
The block has no instruction set in the usual sense: "a header class is its instruction, the ethertype and
protocol number are its opcodes, the cursor is its program counter", and every named operation has a row too
(R2, R19, R92). A header class carries the fields its row lists; an operation carries the operands its rule
lists. -/

namespace Sys2Proof

/-- The header classes that have a layout and can be cut short (R15, R80, R110). -/
inductive Hdr where
  | eth | ipv4 | icmp | tcp | udp
  deriving DecidableEq, Repr

/-- The five protocol tags a report line can carry (R155, R170). -/
inductive SecTag where
  | ether | ip | icmp | tcp | udp
  deriving DecidableEq, Repr

/-- One constructor per row of spec/opcode_table.json. -/
inductive Instr where
  /-- Header class `ETH` with the fields of its row (R82, R131). -/
  | eth (dst src : BitVec 48) (etype : BitVec 16)
  /-- Header class `IPV4` with the fields of its row (R83, R132); `hlenWords` is the raw nibble (R92). -/
  | ipv4 (version hlenWords : BitVec 4) (tos : BitVec 8) (totalLen ident flagsFrag : BitVec 16)
      (ttl proto : BitVec 8) (cksum : BitVec 16) (src dst : BitVec 32)
  /-- Header class `ICMP` with the fields of its row (R84, R133). -/
  | icmp (type code : BitVec 8) (cksum : BitVec 16)
  /-- Header class `TCP` with the fields of its row (R85, R134). -/
  | tcp (sport dport : BitVec 16) (seqNo ackNo : BitVec 32) (doff : BitVec 4) (flags : BitVec 6)
      (window cksum urgptr : BitVec 16)
  /-- Header class `UDP` with the fields of its row (R86, R135). -/
  | udp (sport dport length cksum : BitVec 16)
  /-- Default class `ETH_ONLY`: the ethertype is not 0x0800 (R90, R94). -/
  | ethOnly
  /-- Default class `IP_UNKNOWN`: the protocol number is not 1, 6 or 17 (R91, R95). -/
  | ipUnknown
  /-- `REQUIRE(n, h)` (R110). -/
  | require (n : Nat) (h : Hdr)
  /-- `RD8()`; `h` is its "class in progress" (R111, log entry 7). -/
  | rd8 (h : Hdr)
  /-- `RD16()` (R112). -/
  | rd16 (h : Hdr)
  /-- `RD32()` (R113). -/
  | rd32 (h : Hdr)
  /-- `RDB(n)` (R114). -/
  | rdb (n : Nat) (h : Hdr)
  /-- `BE(s)` (R115). -/
  | be (s : List Byte)
  /-- `BYTES(v, n)` (R116). -/
  | bytes (v n : Nat)
  /-- `U8(s)` (R117). -/
  | u8 (s : Int)
  /-- `BIT(v, i)` for v of width `width` (R118). -/
  | bit (width v i : Nat)
  /-- `BITS(v, hi, lo)` for v of width `width` (R119). -/
  | bits (width v hi lo : Nat)
  /-- `MUL4(v)` (R120). -/
  | mul4 (v : Nat)
  /-- `MUL8(v)` (R120). -/
  | mul8 (v : Nat)
  /-- `MIN(a, b)` (R121). -/
  | minOf (a b : Nat)
  /-- `EQ(a, b)` for two values of width `width` (R122). -/
  | equal (width a b : Nat)
  /-- `PARSE_ETH` (R131). -/
  | parseEth
  /-- `PARSE_IPV4` (R132). -/
  | parseIpv4
  /-- `PARSE_ICMP` (R133). -/
  | parseIcmp
  /-- `PARSE_TCP` (R134). -/
  | parseTcp
  /-- `PARSE_UDP` (R135). -/
  | parseUdp
  /-- `PARSE_UNKNOWN` (R136). -/
  | parseUnknown
  /-- `CAPTURE_SAMPLE` (R137). -/
  | captureSample
  /-- `DECODE`, a transaction (R139, R183). -/
  | decode
  /-- `HEX2(b)` (R150). -/
  | hex2 (b : Byte)
  /-- `HEXBYTES(s)` (R151). -/
  | hexbytes (s : List Byte)
  /-- `DEC(v)` (R152). -/
  | dec (v : Nat)
  /-- `FMT_MAC(v)` (R153). -/
  | fmtMac (v : BitVec 48)
  /-- `FMT_IP4(v)` (R154). -/
  | fmtIp4 (v : BitVec 32)
  /-- `PREFIX(tag)` (R155). -/
  | tagPrefix (t : SecTag)
  /-- `LINE(tag, c)` (R156). -/
  | line (t : SecTag) (c : Text)
  /-- `BLANK(tag)` (R156). -/
  | blank (t : SecTag)
  /-- `KV(label, value)` (R157). -/
  | kv (label value : Text)
  /-- `MASK8(pos, bit)` (R158). -/
  | mask8 (pos : Fin 8) (b : BitVec 1)
  /-- `ANNOT(mask, label)` (R159). -/
  | annot (mask label : Text)
  /-- `FLAGLABEL(name, bit)` (R160). -/
  | flaglabel (name : Text) (b : BitVec 1)
  /-- `DUMP_ROW(s)` (R161). -/
  | dumpRow (s : List Byte)
  /-- `ASCII_CH(b)` (R162). -/
  | asciiCh (b : Byte)
  /-- `DUMP(tag, s)` (R163). -/
  | dump (t : SecTag) (s : List Byte)
  /-- `RENDER_ETHER` (R173). -/
  | renderEther
  /-- `RENDER_IP` (R174). -/
  | renderIp
  /-- `IPFLAGS_BYTE` (R175). -/
  | ipflagsByte
  /-- `RENDER_DIAG` (R176). -/
  | renderDiag
  /-- `RENDER_ICMP` (R177). -/
  | renderIcmp
  /-- `RENDER_TCP` (R178). -/
  | renderTcp
  /-- `RENDER_UDP` (R179). -/
  | renderUdp
  /-- `RENDER_DATA(t)` (R180). -/
  | renderData (t : SecTag)
  /-- `RENDER`, a transaction (R182, R183). -/
  | render
  /-- `RUN`, a transaction (R183). -/
  | run
  /-- `RESET`, the reset input (R210). -/
  | reset
  deriving DecidableEq, Repr

/-- What the host itself may start: the three transactions of R183 and the reset input of R210. Every other
operation is invoked by an operation of the unit, and every header class is selected by the frame. -/
def Instr.hostStarted (i : Instr) : Bool :=
  decide (i = .decode) || decide (i = .render) || decide (i = .run) || decide (i = .reset)

end Sys2Proof
end

