-- ==== Sys2Proof/Decode.lean ====
section
/-! DEFINITION. The decoder of header classes and, after it, the encoder, both written from the rows of
spec/opcode_table.json (R80 to R93). What selects a class is its row's match over the selector window (the
first 24 bytes of the frame) at the cursor's position: the cursor is the program counter (R37, R63). Operations
are selected by no frame bits (R92: "match": null) and have no encoding. The layout of a table word and the bits
the encoder leaves 0 are log entry 11 (DESIGN CHOICE). -/

namespace Sys2Proof

open Sys2Proof.Machine

/-- One header-class row of the opcode table. The mask's bytes are all 00 or ff, so a row is the list of the
window offsets its mask covers, each with its match byte (R92). -/
structure Row where
  /-- "hdr_offset" -/
  offset : Nat
  /-- "hdr_len" (R81) -/
  hdrLen : Nat
  /-- "min_len" (R7) -/
  minLen : Nat
  /-- the covered offsets and their match bytes -/
  needs : List (Nat × Byte)
  deriving DecidableEq, Repr

/-- Row `ETH`: every frame. -/
def rowEth : Row := ⟨0, 14, 14, []⟩
/-- Row `IPV4`: ethertype 0x0800 (R90). -/
def rowIpv4 : Row := ⟨14, 20, 34, [(12, 0x08), (13, 0x00)]⟩
/-- Row `ICMP`: ethertype 0x0800 and protocol 1 (R91). -/
def rowIcmp : Row := ⟨34, 4, 38, [(12, 0x08), (13, 0x00), (23, 1)]⟩
/-- Row `TCP`: ethertype 0x0800 and protocol 6 (R91). -/
def rowTcp : Row := ⟨34, 20, 54, [(12, 0x08), (13, 0x00), (23, 6)]⟩
/-- Row `UDP`: ethertype 0x0800 and protocol 17 (R91). -/
def rowUdp : Row := ⟨34, 8, 42, [(12, 0x08), (13, 0x00), (23, 17)]⟩

/-- R92: the frame matches the row. A byte beyond the frame matches no row whose mask covers it. -/
def rowAccepts (r : Row) (f : List Byte) : Bool := r.needs.all fun p => f[p.1]? == some p.2

/-- A field of a row's "fields" map: bits `hi` down to `lo` of the big-endian value of the frame bytes
`first` to `last` (R92, R87 to R89). -/
def field (f : List Byte) (first last hi lo : Nat) : BitVec (hi - lo + 1) :=
  BitVec.ofNat _ (bitsOf (beOf ((f.drop first).take (last - first + 1))) hi lo)

/-- The fields of row `ETH` (R82). -/
def fieldsEth (f : List Byte) : Instr :=
  .eth (field f 0 5 47 0) (field f 6 11 47 0) (field f 12 13 15 0)

/-- The fields of row `IPV4` (R83). -/
def fieldsIpv4 (f : List Byte) : Instr :=
  .ipv4 (field f 14 14 7 4) (field f 14 14 3 0) (field f 15 15 7 0) (field f 16 17 15 0)
    (field f 18 19 15 0) (field f 20 21 15 0) (field f 22 22 7 0) (field f 23 23 7 0)
    (field f 24 25 15 0) (field f 26 29 31 0) (field f 30 33 31 0)

/-- The fields of row `ICMP` (R84). -/
def fieldsIcmp (f : List Byte) : Instr :=
  .icmp (field f 34 34 7 0) (field f 35 35 7 0) (field f 36 37 15 0)

/-- The fields of row `TCP` (R85): byte 46 bits 3..0 and byte 47 bits 7..6 have no field. -/
def fieldsTcp (f : List Byte) : Instr :=
  .tcp (field f 34 35 15 0) (field f 36 37 15 0) (field f 38 41 31 0) (field f 42 45 31 0)
    (field f 46 46 7 4) (field f 47 47 5 0) (field f 48 49 15 0) (field f 50 51 15 0)
    (field f 52 53 15 0)

/-- The fields of row `UDP` (R86). -/
def fieldsUdp (f : List Byte) : Instr :=
  .udp (field f 34 35 15 0) (field f 36 37 15 0) (field f 38 39 15 0) (field f 40 41 15 0)

/-- Why the decoder reads no header class. -/
inductive DecodeReject where
  /-- The selected class needs more bytes than the frame has (R93, R110): the machine takes TruncatedInput. -/
  | truncated (h : Hdr)
  /-- No header class begins at this cursor position (R80, R81: classes begin at 0, 14 and 34 only). -/
  | noHeaderAt
  deriving DecidableEq, Repr

/-- The decoder's answer. -/
inductive Decoded where
  | instr (i : Instr)
  | rejected (r : DecodeReject)
  deriving DecidableEq, Repr

/-- R93: a selected class is read only when the frame has its bytes. -/
def decodeRow (r : Row) (h : Hdr) (f : List Byte) (i : Instr) : Decoded :=
  if f.length < r.minLen then .rejected (.truncated h) else .instr i

/-- The header class that begins at cursor position `pos` of a frame whose present bytes are `f`: the row of
that position which the frame matches, else that dispatch's default class (R90, R91, R92). -/
def decodeAt (pos : Nat) (f : List Byte) : Decoded :=
  if pos = rowEth.offset then decodeRow rowEth .eth f (fieldsEth f)
  else if pos = rowIpv4.offset then
    if rowAccepts rowIpv4 f then decodeRow rowIpv4 .ipv4 f (fieldsIpv4 f) else .instr .ethOnly
  else if pos = Config.t0 then
    if rowAccepts rowIcmp f then decodeRow rowIcmp .icmp f (fieldsIcmp f)
    else if rowAccepts rowTcp f then decodeRow rowTcp .tcp f (fieldsTcp f)
    else if rowAccepts rowUdp f then decodeRow rowUdp .udp f (fieldsUdp f)
    else .instr .ipUnknown
  else .rejected .noHeaderAt

/-- Where the deepest header class begins whose row the window matches: a frame matches the rows of every
class of its chain (R80), and a table word stands for the last of them. -/
def windowOffset (f : List Byte) : Nat :=
  if rowAccepts rowIcmp f || rowAccepts rowTcp f || rowAccepts rowUdp f then Config.t0
  else if rowAccepts rowIpv4 f then rowIpv4.offset
  else rowEth.offset

/-- The bytes of a table word as the frame stores them: byte i is bits 8i+7..8i; every bit above `nbits` is 0,
up to the longest class with its sample (R7: 98 bytes). -/
def wordBytes (nbits w : Nat) : List Byte :=
  (List.range Config.maxRead).map fun i => BitVec.ofNat 8 ((w % 2 ^ nbits) >>> (8 * i))

/-- The instruction the decoder reads from an instruction whose bits are `w`. -/
def decodeTableWord (nbits w : Nat) : Option Instr :=
  match decodeAt (windowOffset (wordBytes nbits w)) (wordBytes nbits w) with
  | .instr i => some i
  | .rejected _ => none

/-! The encoder. The frame of a class is the bytes up to the end of its header: the dispatch bytes that select
it (R90, R91), zeros where its row's mask covers nothing, and its fields. -/

/-- Frame bytes 0..13 with the given ethertype and zero addresses. -/
def ethPrefix (etype : BitVec 16) : List Byte := List.replicate 12 0 ++ bytesOf etype.toNat 2

/-- Frame bytes 0..33 that lead to the transport header: ethertype 0x0800, the given protocol number, and
zeros. -/
def ipPrefix (proto : Byte) : List Byte :=
  ethPrefix Config.ethertypeIpv4 ++ List.replicate 9 0 ++ [proto] ++ List.replicate 10 0

/-- The frame offset at which a header class begins ("hdr_offset"). -/
def Instr.hdrOffset : Instr → Nat
  | .eth .. => 0
  | .ipv4 .. | .ethOnly => 14
  | .icmp .. | .tcp .. | .udp .. | .ipUnknown => 34
  | .require .. | .rd8 .. | .rd16 .. | .rd32 .. | .rdb .. => 0
  | .be .. | .bytes .. | .u8 .. | .bit .. | .bits .. | .mul4 .. | .mul8 .. | .minOf .. | .equal .. => 0
  | .parseEth | .parseIpv4 | .parseIcmp | .parseTcp | .parseUdp | .parseUnknown => 0
  | .captureSample | .decode => 0
  | .hex2 .. | .hexbytes .. | .dec .. | .fmtMac .. | .fmtIp4 .. | .tagPrefix .. | .line .. => 0
  | .blank .. | .kv .. | .mask8 .. | .annot .. | .flaglabel .. | .dumpRow .. | .asciiCh .. | .dump .. => 0
  | .renderEther | .renderIp | .ipflagsByte | .renderDiag | .renderIcmp | .renderTcp | .renderUdp => 0
  | .renderData .. | .render | .run | .reset => 0

/-- The frame bytes of a header class; an operation has none (R92). A bit that has no field is written 0. -/
def encode : Instr → Option (List Byte)
  | .eth dst src etype => some (bytesOf dst.toNat 6 ++ bytesOf src.toNat 6 ++ bytesOf etype.toNat 2)
  | .ipv4 version hlenWords tos totalLen ident flagsFrag ttl proto cksum src dst =>
    some (ethPrefix Config.ethertypeIpv4 ++
      ([BitVec.ofNat 8 (version.toNat * 16 + hlenWords.toNat), tos] ++ bytesOf totalLen.toNat 2 ++
        bytesOf ident.toNat 2 ++ bytesOf flagsFrag.toNat 2 ++ [ttl, proto] ++ bytesOf cksum.toNat 2 ++
        bytesOf src.toNat 4 ++ bytesOf dst.toNat 4))
  | .icmp type code cksum => some (ipPrefix Config.protoIcmp ++ ([type, code] ++ bytesOf cksum.toNat 2))
  | .tcp sport dport seqNo ackNo doff flags window cksum urgptr =>
    some (ipPrefix Config.protoTcp ++
      (bytesOf sport.toNat 2 ++ bytesOf dport.toNat 2 ++ bytesOf seqNo.toNat 4 ++ bytesOf ackNo.toNat 4 ++
        [BitVec.ofNat 8 (doff.toNat * 16), BitVec.ofNat 8 flags.toNat] ++ bytesOf window.toNat 2 ++
        bytesOf cksum.toNat 2 ++ bytesOf urgptr.toNat 2))
  | .udp sport dport length cksum =>
    some (ipPrefix Config.protoUdp ++
      (bytesOf sport.toNat 2 ++ bytesOf dport.toNat 2 ++ bytesOf length.toNat 2 ++ bytesOf cksum.toNat 2))
  | .ethOnly => some (ethPrefix 0)
  | .ipUnknown => some (ipPrefix 0)
  | .require .. | .rd8 .. | .rd16 .. | .rd32 .. | .rdb .. => none
  | .be .. | .bytes .. | .u8 .. | .bit .. | .bits .. | .mul4 .. | .mul8 .. | .minOf .. | .equal .. => none
  | .parseEth | .parseIpv4 | .parseIcmp | .parseTcp | .parseUdp | .parseUnknown => none
  | .captureSample | .decode => none
  | .hex2 .. | .hexbytes .. | .dec .. | .fmtMac .. | .fmtIp4 .. | .tagPrefix .. | .line .. => none
  | .blank .. | .kv .. | .mask8 .. | .annot .. | .flaglabel .. | .dumpRow .. | .asciiCh .. | .dump .. => none
  | .renderEther | .renderIp | .ipflagsByte | .renderDiag | .renderIcmp | .renderTcp | .renderUdp => none
  | .renderData .. | .render | .run | .reset => none

end Sys2Proof
end

