-- ==== Sys2Proof/Machine/State.lean ====
section
/-! DEFINITION. The state of the machine as plain data (10_state.md, R20): the host-owned frame and its length,
the decoded record, the status registers, the cursor, the line buffer; and two fields of the model's own, `ret`
and `pending` (DESIGN CHOICE, log entries 2 and 3). A field register "holds no value" outside its valid condition (R24), and
the spec asks a model to represent that as an option type, not as zero (R220, U13): `none` is the spec's own
state. -/

namespace Sys2Proof.Machine

/-- The frame buffer as cells (offset, byte), offsets strictly rising, no listed byte 0 (log entry 1). -/
abbrev Memory := List Host.Cell

/-- `status` (R35, R40). -/
inductive Status where
  /-- No transaction has completed since reset. -/
  | idle
  /-- The last DECODE or RUN completed without failure. -/
  | ok
  /-- The last DECODE or RUN failed with TruncatedInput. -/
  | truncated
  deriving DecidableEq, Repr

/-- `DF.tag`, the transport tag (R32, R41). -/
inductive Tag where
  | none | icmp | tcp | udp | unknown
  deriving DecidableEq, Repr

/-- The names of the field registers of R24 and of the payload sample (R28): what a read that R24 forbids
names. -/
inductive Reg where
  | ethDst | ethSrc | ethType
  | ipVersion | ipHlen | ipTos | ipTotalLen | ipId | ipFlagsFrag | ipTtl | ipProto | ipCksum | ipSrc | ipDst
  | icmpType | icmpCode | icmpCksum
  | tcpSport | tcpDport | tcpSeq | tcpAck | tcpDoff | tcpFlags | tcpWindow | tcpCksum | tcpUrgptr
  | udpSport | udpDport | udpLen | udpCksum
  | frameSize | sample
  deriving DecidableEq, Repr

/-- The decoded record `DF`: the 31 field registers of R24, the payload sample of R28, and the flags of R30 to
R33. The views of R25 and the hardwired `DF.ip_prec` (R26) have no storage: they are in Machine/Flags.lean. -/
structure Record where
  ethDst : Option (BitVec 48)
  ethSrc : Option (BitVec 48)
  ethType : Option (BitVec 16)
  ipVersion : Option (BitVec 4)
  ipHlen : Option (BitVec 6)
  ipTos : Option (BitVec 8)
  ipTotalLen : Option (BitVec 16)
  ipId : Option (BitVec 16)
  ipFlagsFrag : Option (BitVec 16)
  ipTtl : Option (BitVec 8)
  ipProto : Option (BitVec 8)
  ipCksum : Option (BitVec 16)
  ipSrc : Option (BitVec 32)
  ipDst : Option (BitVec 32)
  icmpType : Option (BitVec 8)
  icmpCode : Option (BitVec 8)
  icmpCksum : Option (BitVec 16)
  tcpSport : Option (BitVec 16)
  tcpDport : Option (BitVec 16)
  tcpSeq : Option (BitVec 32)
  tcpAck : Option (BitVec 32)
  tcpDoff : Option (BitVec 4)
  tcpFlags : Option (BitVec 6)
  tcpWindow : Option (BitVec 16)
  tcpCksum : Option (BitVec 16)
  tcpUrgptr : Option (BitVec 16)
  udpSport : Option (BitVec 16)
  udpDport : Option (BitVec 16)
  udpLen : Option (BitVec 16)
  udpCksum : Option (BitVec 16)
  /-- "equal to `LEN`"; `LENW` is unbounded (R8, R23). -/
  frameSize : Option Nat
  /-- The valid elements of `DF.sample`, element 0 first; the elements at or beyond its length hold no value
  (R28). -/
  sample : List Byte
  /-- `DF.sample_len`, 7 bits (R28). -/
  sampleLen : BitVec 7
  ethValid : Bool
  ipValid : Bool
  tag : Tag
  diag : Bool
  deriving DecidableEq, Repr

/-- The record of which no part is valid: every valid bit 0, tag NONE, diag 0, sample length 0, and no field
register holds a value (R46, R139, R193). -/
def Record.empty : Record where
  ethDst := none
  ethSrc := none
  ethType := none
  ipVersion := none
  ipHlen := none
  ipTos := none
  ipTotalLen := none
  ipId := none
  ipFlagsFrag := none
  ipTtl := none
  ipProto := none
  ipCksum := none
  ipSrc := none
  ipDst := none
  icmpType := none
  icmpCode := none
  icmpCksum := none
  tcpSport := none
  tcpDport := none
  tcpSeq := none
  tcpAck := none
  tcpDoff := none
  tcpFlags := none
  tcpWindow := none
  tcpCksum := none
  tcpUrgptr := none
  udpSport := none
  udpDport := none
  udpLen := none
  udpCksum := none
  frameSize := none
  sample := []
  sampleLen := 0
  ethValid := false
  ipValid := false
  tag := .none
  diag := false

/-- The value an operation hands to its invoker (the "Result" of the rules of files 40, 42 and 43). -/
inductive Ret where
  /-- No operation has returned a value yet. -/
  | unit
  /-- An unsigned integer. -/
  | num (v : Nat)
  /-- A byte sequence in frame order. -/
  | bytes (s : List Byte)
  /-- The outcome of EQ. -/
  | bool (b : Bool)
  /-- A string. -/
  | text (t : Text)
  deriving DecidableEq, Repr

/-- What the unit does next (log entry 3). -/
inductive Pending where
  /-- Nothing has been started: between transactions (R204, R212, R225). -/
  | idle
  /-- The operation `i` has been started (by the host: R183, R210; or invoked by another operation). -/
  | op (i : Instr)
  /-- Header by header: the class that begins at the cursor is fetched from the frame and run (R80, R90, R91). -/
  | header
  deriving DecidableEq, Repr

/-- The state of the machine (R20). -/
structure State where
  /-- `FRAME`, the host's (R22). -/
  frame : Memory
  /-- `LEN`, the host's (R23). -/
  len : Nat
  /-- The decoded record `DF` (R24). -/
  df : Record
  /-- `status` (R35). -/
  status : Status
  /-- `err_hdr`; `none` is the register's value NONE (R36, R42). -/
  errHdr : Option Hdr
  /-- `cur`, the read cursor (R37). -/
  cur : Nat
  /-- `LINES`; `n_lines` is its length (R44). -/
  lines : List Text
  /-- The model's own: the value the last value-returning operation returned (log entry 2). -/
  ret : Ret
  /-- The model's own: what has been started and not yet run (log entry 3). -/
  pending : Pending
  deriving DecidableEq, Repr

/-- `n_lines` (R44): the count of `LINES`. -/
def State.nLines (s : State) : Nat := s.lines.length

/-- R40: the codes of `status`. -/
def Status.code : Status → BitVec 2
  | .idle => 0
  | .ok => 1
  | .truncated => 2

/-- R41: the codes of `DF.tag`. -/
def Tag.code : Tag → BitVec 3
  | .none => 0
  | .icmp => 1
  | .tcp => 2
  | .udp => 3
  | .unknown => 4

/-- R42: the codes of `err_hdr`. -/
def errCode : Option Hdr → BitVec 3
  | none => 0
  | some .eth => 1
  | some .ipv4 => 2
  | some .icmp => 3
  | some .tcp => 4
  | some .udp => 5

/-- The reasons the machine stops with a fault. TruncatedInput is none of them: it is taken, as R193 says. -/
inductive Fault where
  /-- Raised by `memRead` and by CAPTURE_SAMPLE: an access at an offset at or beyond `LEN`, which "do not exist"
  (R14, R22). No transaction reaches it. Safe: the spec gives such an access no effect. -/
  | offsetAbsent
  deriving DecidableEq, Repr

/-- The reasons the machine refuses. -/
inductive Refusal where
  /-- Raised by exec's arms only: an instruction without a meaning. Safe. -/
  | notModelled (mnemonic : String)
  /-- Raised by an operation that reads a register outside its valid condition, which "must not be read"
  (R24, R220, U13). No transaction reaches it. Safe: the spec gives such a read no effect. -/
  | noValue (r : Reg)
  /-- Raised by step: an operand outside the range its rule declares (R115 to R122, R156 to R163). Safe. -/
  | illFormed
  /-- Raised by step: a header fetch where no header class begins (R80, R81). Safe. -/
  | noHeaderAt
  deriving DecidableEq, Repr

/-- The machine right after reset (R46, R211). `FRAME` and `LEN` are the host's and reset does not touch them:
here no frame has been placed (DESIGN CHOICE, unsafe: log entry 4). -/
def State.reset : State where
  frame := []
  len := 0
  df := Record.empty
  status := .idle
  errHdr := none
  cur := 0
  lines := []
  ret := .unit
  pending := .idle

end Sys2Proof.Machine
end

