-- ==== Sys2Proof/Machine/Ops.lean ====
section
/-! DEFINITION. The named operations over memory, registers and lines, and taking the one exception. Every
meaning is written over these. -/

namespace Sys2Proof.Machine

/-! ## The frame buffer (R22, R60): an unlisted offset reads as 0 (DESIGN CHOICE, unsafe: log entry 1) -/

/-- The byte at a frame offset. -/
def Memory.read : Memory → Nat → Byte
  | [], _ => 0
  | c :: m, a => if c.1 = a then c.2 else Memory.read m a

/-- The host places a byte (R9, R214); the unit never does (R14). Writing 0 removes the entry. -/
def Memory.write : Memory → Nat → Byte → Memory
  | [], a, b => if b = 0 then [] else [(a, b)]
  | c :: m, a, b =>
    if a < c.1 then (if b = 0 then c :: m else (a, b) :: c :: m)
    else if a = c.1 then (if b = 0 then m else (a, b) :: m)
    else c :: Memory.write m a b

/-- Every listed offset is at least `lo`, offsets rise strictly and no listed byte is 0. -/
def Memory.wfFrom (lo : Nat) : Memory → Bool
  | [] => true
  | c :: m => decide (lo ≤ c.1) && decide (c.2 ≠ 0) && Memory.wfFrom (c.1 + 1) m

/-- The canonical form: equal frames are equal lists. -/
def Memory.wf (m : Memory) : Bool := Memory.wfFrom 0 m

/-- The cells of a byte sequence placed at offset `a`. -/
def Memory.ofBytesAt (a : Nat) : List Byte → Memory
  | [] => []
  | b :: bs => if b = 0 then Memory.ofBytesAt (a + 1) bs else (a, b) :: Memory.ofBytesAt (a + 1) bs

/-- The bytes at offsets `a` to `a + n - 1`, in frame order. -/
def Memory.readBytes (m : Memory) (a : Nat) : Nat → List Byte
  | 0 => []
  | n + 1 => Memory.read m a :: Memory.readBytes m (a + 1) n

/-! ## What an operation can do -/

/-- The outcome of an operation inside the unit: it returns a value, it has raised TruncatedInput (the state is
then that of R193), it faults, or it is refused. -/
inductive Res (α : Type) where
  | ok (a : α) (s : State)
  | trap (s : State)
  | fault (f : Fault)
  | refuse (r : Refusal)

/-- An operation of the unit. -/
abbrev Op (α : Type) := State → Res α

/-- Run `x`, then `f` on its value, unless `x` raised or stopped (R17: "statements run in the order written"). -/
def bindOp {α β : Type} (x : Op α) (f : α → Op β) : Op β := fun s =>
  match x s with
  | .ok a t => f a t
  | .trap t => .trap t
  | .fault e => .fault e
  | .refuse r => .refuse r

/-- Nothing to do. -/
def skipOp : Op Unit := fun s => .ok () s

/-- The operations in order. -/
def seqOps : List (Op Unit) → Op Unit
  | [] => skipOp
  | x :: xs => bindOp x fun _ => seqOps xs

/-- A change of state that cannot fail. -/
def modifyOp (f : State → State) : Op Unit := fun s => .ok () (f s)

/-! ## Updates of the state -/

/-- `DF.<field> <- v` (R13). -/
def State.withDf (s : State) (f : Record → Record) : State := { s with df := f s.df }

/-- `cur <- c` (R13). -/
def State.withCur (s : State) (c : Nat) : State := { s with cur := c }

/-- The value an operation returns to its invoker. -/
def State.withRet (s : State) (r : Ret) : State := { s with ret := r }

/-- What the unit does next. -/
def State.withPending (s : State) (p : Pending) : State := { s with pending := p }

/-- `Emit(s)` (R66): one new line at the end of `LINES`. It cannot fail. -/
def State.emit (s : State) (t : Text) : State := { s with lines := s.lines ++ [t] }

/-- `n_lines <- 0` (R182). -/
def State.clearLines (s : State) : State := { s with lines := [] }

/-- The start of DECODE: "forget everything earlier" (R139, R47). -/
def State.beginDecode (s : State) : State :=
  { s with df := Record.empty, status := .idle, errHdr := none, cur := 0, lines := [] }

/-- Step 7 of DECODE (R139): `DF.frame_size <- LEN; status <- OK`; the transaction is over. -/
def State.finishDecode (s : State) : State :=
  { s with df := { s.df with frameSize := some s.len }, status := .ok, pending := .idle }

/-- TAKING THE EXCEPTION: `raise TruncatedInput(h)` (R15, R193). The operation in progress stops at once, the
record is discarded, `LINES` is empty, `cur` is left wherever it was, and the transaction is complete. There is
no return from it (R197). -/
def raiseTruncated (h : Hdr) (s : State) : State :=
  { s with
    status := .truncated
    errHdr := some h
    df := Record.empty
    lines := []
    pending := .idle }

/-- The host places a frame of bytes and its length (R9, R214); only between transactions (R216). -/
def State.placeFrame (s : State) (bs : List Byte) : State :=
  { s with frame := Memory.ofBytesAt 0 bs, len := bs.length }

/-- The host starts an operation (R9, R183, R210). -/
def State.start (s : State) (i : Instr) : State := s.withPending (.op i)

/-- The unit is at the start of a DECODE that it runs header by header (R212: at offset 0, with the Ethernet
header). -/
def State.startHeaders (s : State) : State := s.beginDecode.withPending .header

/-- `RESET` (R46, R210, R211): everything of the unit as after reset; `FRAME` and `LEN` untouched. -/
def State.resetUnit (s : State) : State := { State.reset with frame := s.frame, len := s.len }

/-! ## The length check and the cursor reads (R110 to R114) -/

/-- `MemRead(a, n)` (R14): "defined only when `a + n <= LEN`". -/
def memRead (a n : Nat) : Op (List Byte) := fun s =>
  if a + n ≤ s.len then .ok (Memory.readBytes s.frame a n) s else .fault .offsetAbsent

/-- `MemRead(cur, n)`. -/
def memReadAtCur (n : Nat) : Op (List Byte) := fun s => memRead s.cur n s

/-- `cur <- cur + n`. -/
def advance (n : Nat) : Op Unit := modifyOp fun s => s.withCur (s.cur + n)

/-- `REQUIRE(n, h)` (R110). -/
def requireBytes (n : Nat) (h : Hdr) : Op Unit := fun s =>
  if s.cur + n > s.len then .trap (raiseTruncated h s) else .ok () s

/-- `RDB(n)` (R114): the next n bytes in frame order, and the cursor past them. -/
def readBytesAtCur (n : Nat) (h : Hdr) : Op (List Byte) :=
  bindOp (requireBytes n h) fun _ =>
  bindOp (memReadAtCur n) fun b =>
  bindOp (advance n) fun _ => fun s => .ok b s

/-- `RD8()` (R111). -/
def readU8 (h : Hdr) : Op (BitVec 8) :=
  bindOp (readBytesAtCur 1 h) fun b => fun s => .ok (BitVec.ofNat 8 (beOf b)) s

/-- `RD16()` (R112). -/
def readU16 (h : Hdr) : Op (BitVec 16) :=
  bindOp (readBytesAtCur 2 h) fun b => fun s => .ok (BitVec.ofNat 16 (beOf b)) s

/-- `RD32()` (R113). -/
def readU32 (h : Hdr) : Op (BitVec 32) :=
  bindOp (readBytesAtCur 4 h) fun b => fun s => .ok (BitVec.ofNat 32 (beOf b)) s

/-! ## The registers -/

/-- Write the record. -/
def writeDf (f : Record → Record) : Op Unit := modifyOp fun s => s.withDf f

/-- `DF.<field> <- <read>`: run a read and write its value into the record. -/
def load {α : Type} (x : Op α) (f : α → Record → Record) : Op Unit := bindOp x fun v => writeDf (f v)

/-- Read a field register; a register outside its valid condition "must not be read" (R24, R220). -/
def readReg {α : Type} (g : Record → Option α) (r : Reg) : Op α := fun s =>
  match g s.df with
  | some v => .ok v s
  | none => .refuse (.noValue r)

/-! ## From an operation to an instruction's meaning -/

/-- The meaning of an operation that returns nothing. TruncatedInput is taken: the next state is R193's. -/
def procedure (r : Res Unit) : Host.Outcome State Fault Refusal :=
  match r with
  | .ok _ s => .next s
  | .trap s => .next s
  | .fault f => .fault f
  | .refuse e => .refused e

/-- The meaning of an operation that returns a value: it is left in `ret`. -/
def valued {α : Type} (f : α → Ret) (r : Res α) : Host.Outcome State Fault Refusal :=
  match r with
  | .ok a s => .next (s.withRet (f a))
  | .trap s => .next s
  | .fault e => .fault e
  | .refuse e => .refused e

/-- The meaning of a pure value operation: it changes nothing but the returned value. -/
def returns (r : Ret) (s : State) : Host.Outcome State Fault Refusal := .next (s.withRet r)

end Sys2Proof.Machine
end

