-- ==== Sys2Proof/Machine/CursorReads.lean ====
section
/-! DEFINITION. Family 1 of the operations: the length check and the cursor reads (R110 to R114), and the value
operations (R115 to R122). A value operation changes nothing but the value it returns. -/

namespace Sys2Proof.Machine

/-- `REQUIRE` (R110). -/
def execRequire (n : Nat) (h : Hdr) (s : State) : Host.Outcome State Fault Refusal :=
  procedure (requireBytes n h s)

/-- `RD8` (R111). -/
def execRd8 (h : Hdr) (s : State) : Host.Outcome State Fault Refusal :=
  valued (fun v => .num v.toNat) (readU8 h s)

/-- `RD16` (R112). -/
def execRd16 (h : Hdr) (s : State) : Host.Outcome State Fault Refusal :=
  valued (fun v => .num v.toNat) (readU16 h s)

/-- `RD32` (R113). -/
def execRd32 (h : Hdr) (s : State) : Host.Outcome State Fault Refusal :=
  valued (fun v => .num v.toNat) (readU32 h s)

/-- `RDB` (R114). -/
def execRdb (n : Nat) (h : Hdr) (s : State) : Host.Outcome State Fault Refusal :=
  valued .bytes (readBytesAtCur n h s)

/-- `BE` (R115). -/
def execBe (bs : List Byte) (s : State) : Host.Outcome State Fault Refusal := returns (.num (beOf bs)) s

/-- `BYTES` (R116). -/
def execBytes (v n : Nat) (s : State) : Host.Outcome State Fault Refusal := returns (.bytes (bytesOf v n)) s

/-- `U8` (R117). -/
def execU8 (v : Int) (s : State) : Host.Outcome State Fault Refusal := returns (.num (u8Of v).toNat) s

/-- `BIT` (R118). -/
def execBit (v i : Nat) (s : State) : Host.Outcome State Fault Refusal := returns (.num (bitOf v i)) s

/-- `BITS` (R119). -/
def execBits (v hi lo : Nat) (s : State) : Host.Outcome State Fault Refusal := returns (.num (bitsOf v hi lo)) s

/-- `MUL4` (R120). -/
def execMul4 (v : Nat) (s : State) : Host.Outcome State Fault Refusal := returns (.num (mul4Of v)) s

/-- `MUL8` (R120). -/
def execMul8 (v : Nat) (s : State) : Host.Outcome State Fault Refusal := returns (.num (mul8Of v)) s

/-- `MIN` (R121). -/
def execMin (a b : Nat) (s : State) : Host.Outcome State Fault Refusal := returns (.num (minimumOf a b)) s

/-- `EQ` (R122). -/
def execEq (a b : Nat) (s : State) : Host.Outcome State Fault Refusal := returns (.bool (equalOf a b)) s

end Sys2Proof.Machine
end

