-- ==== Sys2Proof/Machine/Decoder.lean ====
section
/-! DEFINITION. The Decoder's operations (R130 to R139): one parse operation per header class, the sample
capture, and DECODE. -/

namespace Sys2Proof.Machine

/-- `PARSE_ETH` (R131). -/
def parseEthOp : Op Unit := seqOps [
  requireBytes Config.ethLen .eth,
  load (readBytesAtCur 6 .eth) fun b d => { d with ethDst := some (BitVec.ofNat 48 (beOf b)) },
  load (readBytesAtCur 6 .eth) fun b d => { d with ethSrc := some (BitVec.ofNat 48 (beOf b)) },
  load (readU16 .eth) fun v d => { d with ethType := some v },
  writeDf fun d => { d with ethValid := true }]

/-- `PARSE_IPV4` (R132). -/
def parseIpv4Op : Op Unit := seqOps [
  requireBytes Config.ipLen .ipv4,
  load (readU8 .ipv4) fun b d => { d with
    ipVersion := some (BitVec.ofNat 4 (bitsOf b.toNat 7 4))
    ipHlen := some (BitVec.ofNat 6 (mul4Of (bitsOf b.toNat 3 0))) },
  load (readU8 .ipv4) fun v d => { d with ipTos := some v },
  load (readU16 .ipv4) fun v d => { d with ipTotalLen := some v },
  load (readU16 .ipv4) fun v d => { d with ipId := some v },
  load (readU16 .ipv4) fun v d => { d with ipFlagsFrag := some v },
  load (readU8 .ipv4) fun v d => { d with ipTtl := some v },
  load (readU8 .ipv4) fun v d => { d with ipProto := some v },
  load (readU16 .ipv4) fun v d => { d with ipCksum := some v },
  load (readU32 .ipv4) fun v d => { d with ipSrc := some v },
  load (readU32 .ipv4) fun v d => { d with ipDst := some v },
  writeDf fun d => { d with ipValid := true }]

/-- `PARSE_ICMP` (R133). -/
def parseIcmpOp : Op Unit := seqOps [
  requireBytes Config.icmpLen .icmp,
  load (readU8 .icmp) fun v d => { d with icmpType := some v },
  load (readU8 .icmp) fun v d => { d with icmpCode := some v },
  load (readU16 .icmp) fun v d => { d with icmpCksum := some v },
  writeDf fun d => { d with tag := .icmp }]

/-- `PARSE_TCP` (R134). -/
def parseTcpOp : Op Unit := seqOps [
  requireBytes Config.tcpLen .tcp,
  load (readU16 .tcp) fun v d => { d with tcpSport := some v },
  load (readU16 .tcp) fun v d => { d with tcpDport := some v },
  load (readU32 .tcp) fun v d => { d with tcpSeq := some v },
  load (readU32 .tcp) fun v d => { d with tcpAck := some v },
  load (readU8 .tcp) fun v d => { d with tcpDoff := some (BitVec.ofNat 4 (bitsOf v.toNat 7 4)) },
  load (readU8 .tcp) fun v d => { d with tcpFlags := some (BitVec.ofNat 6 (bitsOf v.toNat 5 0)) },
  load (readU16 .tcp) fun v d => { d with tcpWindow := some v },
  load (readU16 .tcp) fun v d => { d with tcpCksum := some v },
  load (readU16 .tcp) fun v d => { d with tcpUrgptr := some v },
  writeDf fun d => { d with tag := .tcp }]

/-- `PARSE_UDP` (R135). -/
def parseUdpOp : Op Unit := seqOps [
  requireBytes Config.udpLen .udp,
  load (readU16 .udp) fun v d => { d with udpSport := some v },
  load (readU16 .udp) fun v d => { d with udpDport := some v },
  load (readU16 .udp) fun v d => { d with udpLen := some v },
  load (readU16 .udp) fun v d => { d with udpCksum := some v },
  writeDf fun d => { d with tag := .udp }]

/-- `PARSE_UNKNOWN` (R136): no byte is read. -/
def parseUnknownOp : Op Unit := writeDf fun d => { d with tag := .unknown, diag := true }

/-- `n <- MIN(64, LEN - cur); s <- RDB(n)` (R137). -/
def readSample (h : Hdr) : Op (List Byte) := fun s =>
  readBytesAtCur (minimumOf Config.sampleMax (s.len - s.cur)) h s

/-- `CAPTURE_SAMPLE` (R137). `LEN - 34` is an unsigned number only for `LEN >= 34` (R124); below, the offset 34
does not exist (DEDUCED, safe: log entry 9). `h` is the class in progress (log entry 7); the read never raises. -/
def captureSampleOp (h : Hdr) : Op Unit := fun s =>
  if s.len < Config.t0 then .fault .offsetAbsent
  else seqOps [
    modifyOp fun s => s.withCur Config.t0,
    load (readSample h) fun b d => { d with sample := b, sampleLen := BitVec.ofNat 7 b.length }] s

/-- Dispatch 2 of DECODE, on the protocol number (R91, R139). -/
def dispatchProto : Op Unit := bindOp (readReg Record.ipProto .ipProto) fun p =>
  if equalOf p.toNat Config.protoIcmp.toNat then parseIcmpOp
  else if equalOf p.toNat Config.protoTcp.toNat then seqOps [parseTcpOp, captureSampleOp .tcp]
  else if equalOf p.toNat Config.protoUdp.toNat then seqOps [parseUdpOp, captureSampleOp .udp]
  else parseUnknownOp

/-- Dispatch 1 of DECODE, on the ethertype (R90, R139). -/
def dispatchEtype : Op Unit := bindOp (readReg Record.ethType .ethType) fun t =>
  if equalOf t.toNat Config.ethertypeIpv4.toNat then seqOps [parseIpv4Op, dispatchProto] else skipOp

/-- `DECODE` (R139). -/
def decodeOp : Op Unit := seqOps [
  modifyOp State.beginDecode,
  parseEthOp,
  dispatchEtype,
  modifyOp State.finishDecode]

/-- `PARSE_ETH`, the instruction. -/
def execParseEth (s : State) : Host.Outcome State Fault Refusal := procedure (parseEthOp s)

/-- `PARSE_IPV4`, the instruction. -/
def execParseIpv4 (s : State) : Host.Outcome State Fault Refusal := procedure (parseIpv4Op s)

/-- `PARSE_ICMP`, the instruction. -/
def execParseIcmp (s : State) : Host.Outcome State Fault Refusal := procedure (parseIcmpOp s)

/-- `PARSE_TCP`, the instruction. -/
def execParseTcp (s : State) : Host.Outcome State Fault Refusal := procedure (parseTcpOp s)

/-- `PARSE_UDP`, the instruction. -/
def execParseUdp (s : State) : Host.Outcome State Fault Refusal := procedure (parseUdpOp s)

/-- `PARSE_UNKNOWN`, the instruction. -/
def execParseUnknown (s : State) : Host.Outcome State Fault Refusal := procedure (parseUnknownOp s)

/-- `CAPTURE_SAMPLE`, the instruction. It follows PARSE_TCP or PARSE_UDP, whose tag names the class in
progress. -/
def execCaptureSample (s : State) : Host.Outcome State Fault Refusal :=
  procedure (captureSampleOp (if s.df.tag = .udp then .udp else .tcp) s)

/-- `DECODE`, the transaction: one atomic step (R223). -/
def execDecode (s : State) : Host.Outcome State Fault Refusal := procedure (decodeOp s)

end Sys2Proof.Machine
end

