-- ==== Sys2Proof/Machine/HeaderClasses.lean ====
section
/-! DEFINITION. The header classes as instructions (R80, R81): each writes the fields its row carries into the
record, advances the cursor by its length, and hands over to the next header class (R90, R91) or to step 7 of
DECODE (R139). The fields come from the frame through the decoder (Decode.lean); the parse operations of
Machine/Decoder.lean read the same bytes through the cursor. That a class is a step of its own, and what it
carries to the end of DECODE, are log entries 3 and 11 (DESIGN CHOICE). -/

namespace Sys2Proof.Machine

/-- The common shape of a header class: its length check, its fields, its cursor advance (R81, R110). -/
def headerOp (n : Nat) (h : Hdr) (f : Record → Record) : Op Unit := seqOps [
  requireBytes n h,
  writeDf f,
  advance n]

/-- The chain goes on with the header class at the cursor. -/
def thenNextHeader : Op Unit := modifyOp fun s => s.withPending .header

/-- The chain ends: step 7 of DECODE. -/
def thenFinish : Op Unit := modifyOp State.finishDecode

/-- Header class `ETH` (R82, R131). -/
def execEth (dst src : BitVec 48) (etype : BitVec 16) (s : State) : Host.Outcome State Fault Refusal :=
  procedure (seqOps [
    headerOp Config.ethLen .eth fun d => { d with
      ethDst := some dst
      ethSrc := some src
      ethType := some etype
      ethValid := true },
    thenNextHeader] s)

/-- Header class `IPV4` (R83, R132): `DF.ip_hlen = ip_hlen_words * 4`. -/
def execIpv4 (version hlenWords : BitVec 4) (tos : BitVec 8) (totalLen ident flagsFrag : BitVec 16)
    (ttl proto : BitVec 8) (cksum : BitVec 16) (src dst : BitVec 32) (s : State) :
    Host.Outcome State Fault Refusal :=
  procedure (seqOps [
    headerOp Config.ipLen .ipv4 fun d => { d with
      ipVersion := some version
      ipHlen := some (BitVec.ofNat 6 (mul4Of hlenWords.toNat))
      ipTos := some tos
      ipTotalLen := some totalLen
      ipId := some ident
      ipFlagsFrag := some flagsFrag
      ipTtl := some ttl
      ipProto := some proto
      ipCksum := some cksum
      ipSrc := some src
      ipDst := some dst
      ipValid := true },
    thenNextHeader] s)

/-- Header class `ICMP` (R84, R133). -/
def execIcmp (type code : BitVec 8) (cksum : BitVec 16) (s : State) : Host.Outcome State Fault Refusal :=
  procedure (seqOps [
    headerOp Config.icmpLen .icmp fun d => { d with
      icmpType := some type
      icmpCode := some code
      icmpCksum := some cksum
      tag := .icmp },
    thenFinish] s)

/-- Header class `TCP` (R85, R134), followed by CAPTURE_SAMPLE. -/
def execTcp (sport dport : BitVec 16) (seqNo ackNo : BitVec 32) (doff : BitVec 4) (flags : BitVec 6)
    (window cksum urgptr : BitVec 16) (s : State) : Host.Outcome State Fault Refusal :=
  procedure (seqOps [
    headerOp Config.tcpLen .tcp fun d => { d with
      tcpSport := some sport
      tcpDport := some dport
      tcpSeq := some seqNo
      tcpAck := some ackNo
      tcpDoff := some doff
      tcpFlags := some flags
      tcpWindow := some window
      tcpCksum := some cksum
      tcpUrgptr := some urgptr
      tag := .tcp },
    captureSampleOp .tcp,
    thenFinish] s)

/-- Header class `UDP` (R86, R135), followed by CAPTURE_SAMPLE. -/
def execUdp (sport dport length cksum : BitVec 16) (s : State) : Host.Outcome State Fault Refusal :=
  procedure (seqOps [
    headerOp Config.udpLen .udp fun d => { d with
      udpSport := some sport
      udpDport := some dport
      udpLen := some length
      udpCksum := some cksum
      tag := .udp },
    captureSampleOp .udp,
    thenFinish] s)

/-- Default class `ETH_ONLY` (R90, R94): DECODE finishes. -/
def execEthOnly (s : State) : Host.Outcome State Fault Refusal := procedure (thenFinish s)

/-- Default class `IP_UNKNOWN` (R91, R95): PARSE_UNKNOWN, and DECODE finishes. -/
def execIpUnknown (s : State) : Host.Outcome State Fault Refusal :=
  procedure (seqOps [parseUnknownOp, thenFinish] s)

end Sys2Proof.Machine
end

