-- ==== Sys2Proof/Machine/Flags.lean ====
section
/-! DEFINITION. The flag bits: the views of R25, fixed slices of a field register with no storage of their own,
the hardwired `DF.ip_prec` (R26), and the flags summary byte of the report (R175). They are data, not condition
codes: only the Renderer tests them (R34). -/

namespace Sys2Proof.Machine

/-- A 1-bit slice `BIT(v, i)` of a register (R25, R118). -/
def flagOf {w : Nat} (i : Nat) (v : BitVec w) : BitVec 1 := BitVec.ofNat 1 (bitOf v.toNat i)

/-- `DF.ip_rsv` (R25). -/
def ipRsv (w : BitVec 16) : BitVec 1 := flagOf 15 w
/-- `DF.ip_df` (R25). -/
def ipDf (w : BitVec 16) : BitVec 1 := flagOf 14 w
/-- `DF.ip_mf` (R25). -/
def ipMf (w : BitVec 16) : BitVec 1 := flagOf 13 w
/-- `DF.ip_frag_off` (R25): in 8-byte units, unscaled (R89). -/
def ipFragOff (w : BitVec 16) : BitVec 13 := BitVec.ofNat 13 (bitsOf w.toNat 12 0)
/-- `DF.ip_tos_d` (R25). -/
def ipTosD (t : BitVec 8) : BitVec 1 := flagOf Config.tosDBit t
/-- `DF.ip_tos_t` (R25). -/
def ipTosT (t : BitVec 8) : BitVec 1 := flagOf Config.tosTBit t
/-- `DF.ip_tos_r` (R25). -/
def ipTosR (t : BitVec 8) : BitVec 1 := flagOf Config.tosRBit t
/-- `DF.tcp_urg` (R25). -/
def tcpUrg (f : BitVec 6) : BitVec 1 := flagOf 5 f
/-- `DF.tcp_ackf` (R25). -/
def tcpAckf (f : BitVec 6) : BitVec 1 := flagOf 4 f
/-- `DF.tcp_psh` (R25). -/
def tcpPsh (f : BitVec 6) : BitVec 1 := flagOf 3 f
/-- `DF.tcp_rst` (R25). -/
def tcpRst (f : BitVec 6) : BitVec 1 := flagOf 2 f
/-- `DF.tcp_syn` (R25). -/
def tcpSyn (f : BitVec 6) : BitVec 1 := flagOf 1 f
/-- `DF.tcp_fin` (R25). -/
def tcpFin (f : BitVec 6) : BitVec 1 := flagOf 0 f

/-- `DF.ip_prec` (R26, R211): 3 bits hardwired to 0 at all times, valid when `ip_valid`. It is not a view of
`DF.ip_tos[7:5]`, and no operation writes it: whatever the record holds, it reads 0. -/
def ipPrec (_ : Record) : BitVec 3 := 0

/-- `IPFLAGS_BYTE` (R175): `BITS(DF.ip_flags_frag, 15, 8) AND 0xE0`. -/
def ipFlagsByteOf (w : BitVec 16) : Byte := BitVec.ofNat 8 (bitsOf w.toNat 15 8 &&& 0xE0)

end Sys2Proof.Machine
end

