-- ==== Sys2Proof/Machine/Strings.lean ====
section
/-! DEFINITION. The string table `STR` of rule R170, with the spec's decided defaults (DESIGN CHOICE: log entry 6). Each
definition's docstring is the entry's id. -/

namespace Sys2Proof.Machine

/-- `TAG_ETHER`, `TAG_IP`, `TAG_ICMP`, `TAG_TCP`, `TAG_UDP` -/
def strTag : SecTag → Text
  | .ether => "ETHER".toList
  | .ip => "IP".toList
  | .icmp => "ICMP".toList
  | .tcp => "TCP".toList
  | .udp => "UDP".toList

/-- `H_ETHER` -/
def strHEther : Text := "----- Ether Header -----".toList
/-- `H_IP` -/
def strHIp : Text := "----- IP Header -----".toList
/-- `H_ICMP` -/
def strHIcmp : Text := "----- ICMP Header -----".toList
/-- `H_TCP` -/
def strHTcp : Text := "----- TCP Header -----".toList
/-- `H_UDP` -/
def strHUdp : Text := "----- UDP Header -----".toList
/-- `L_SIZE` -/
def strSize : Text := "Packet size".toList
/-- `U_BYTES` -/
def strBytes : Text := " bytes".toList
/-- `L_DST` -/
def strDst : Text := "Destination".toList
/-- `L_SRC` -/
def strSrc : Text := "Source".toList
/-- `L_ETYPE` -/
def strEtype : Text := "Ethertype".toList
/-- `A_IP` -/
def strNoteIp : Text := " (IP)".toList
/-- `L_VERSION` -/
def strVersion : Text := "Version".toList
/-- `L_HLEN` -/
def strHlen : Text := "Header length".toList
/-- `L_TOS` -/
def strTos : Text := "Type of service".toList
/-- `M_PREC` -/
def strMaskPrec : Text := "xxx. ....".toList
/-- `T_PREC` -/
def strPrec : Text := "0 (precedence)".toList
/-- `T_D0`, `T_D1` -/
def strDelay (b : BitVec 1) : Text := if b = 1 then "low delay".toList else "normal delay".toList
/-- `T_T0`, `T_T1` -/
def strThroughput (b : BitVec 1) : Text :=
  if b = 1 then "high throughput".toList else "normal throughput".toList
/-- `T_R0`, `T_R1` -/
def strReliability (b : BitVec 1) : Text :=
  if b = 1 then "high reliability".toList else "normal reliability".toList
/-- `L_TOTLEN` -/
def strTotLen : Text := "Total length".toList
/-- `L_ID` -/
def strId : Text := "Identification".toList
/-- `L_FLAGS` -/
def strFlags : Text := "Flags".toList
/-- `T_DF0`, `T_DF1` -/
def strDf (b : BitVec 1) : Text := if b = 1 then "do not fragment".toList else "OK to fragment".toList
/-- `T_MF0`, `T_MF1` -/
def strMf (b : BitVec 1) : Text := if b = 1 then "more fragments".toList else "last fragment".toList
/-- `L_FRAG` -/
def strFrag : Text := "Fragment offset".toList
/-- `L_TTL` -/
def strTtl : Text := "Time to live".toList
/-- `U_TTL` -/
def strTtlUnit : Text := " seconds/hops".toList
/-- `L_PROTO` -/
def strProto : Text := "Protocol".toList
/-- `A_ICMP` -/
def strNoteIcmp : Text := " (ICMP)".toList
/-- `A_TCP` -/
def strNoteTcp : Text := " (TCP)".toList
/-- `A_UDP` -/
def strNoteUdp : Text := " (UDP)".toList
/-- `L_IPCK` -/
def strIpCksum : Text := "Header checksum".toList
/-- `L_IPSRC` -/
def strIpSrc : Text := "Source address".toList
/-- `L_IPDST` -/
def strIpDst : Text := "Destination address".toList
/-- `L_UNSUP` -/
def strUnsup : Text := "Unsupported protocol".toList
/-- `L_TYPE` -/
def strType : Text := "Type".toList
/-- `L_CODE` -/
def strCode : Text := "Code".toList
/-- `L_CKSUM` -/
def strCksum : Text := "Checksum".toList
/-- `L_SPORT` -/
def strSport : Text := "Source port".toList
/-- `L_DPORT` -/
def strDport : Text := "Destination port".toList
/-- `L_SEQ` -/
def strSeq : Text := "Sequence number".toList
/-- `L_ACK` -/
def strAck : Text := "Acknowledgement number".toList
/-- `L_DOFF` -/
def strDoff : Text := "Data offset".toList
/-- `N_URG` -/
def strNUrg : Text := "Urgent".toList
/-- `N_ACK` -/
def strNAck : Text := "Ack".toList
/-- `N_PSH` -/
def strNPsh : Text := "Push".toList
/-- `N_RST` -/
def strNRst : Text := "Reset".toList
/-- `N_SYN` -/
def strNSyn : Text := "Syn".toList
/-- `N_FIN` -/
def strNFin : Text := "Fin".toList
/-- `P_NO` -/
def strNo : Text := "No ".toList
/-- `L_WIN` -/
def strWindow : Text := "Window".toList
/-- `L_URP` -/
def strUrgptr : Text := "Urgent pointer".toList
/-- `L_LEN` -/
def strLength : Text := "Length".toList
/-- `D_HEAD1` -/
def strData1 : Text := "Data: (first ".toList
/-- `D_HEAD2`; its text is ` bytes)` (R170, R180). -/
def strData2 : Text := " bytes)".toList

end Sys2Proof.Machine
end

