-- ==== Sys2Proof/Machine/Format.lean ====
section
/-! DEFINITION. The formatting operations of 42_render_primitives.md (R150 to R162): pure functions from values
to strings. -/

namespace Sys2Proof.Machine

/-- `hexd(k)` (R16): the character `"0123456789abcdef"[k]`, for k in 0..15. -/
def hexd (k : Nat) : Char := "0123456789abcdef".toList.getD k '0'

/-- `HEX2(b)` (R150): `hexd(b[7:4]) ++ hexd(b[3:0])`. -/
def hex2Of (b : Byte) : Text := [hexd (bitsOf b.toNat 7 4), hexd (bitsOf b.toNat 3 0)]

/-- `HEXBYTES(s)` (R151): `"0x"` and the digits of each byte in order. -/
def hexbytesOf (s : List Byte) : Text := "0x".toList ++ s.flatMap hex2Of

/-- R152, the loop of `DEC`: `while v > 0: s <- hexd(v mod 10) ++ s; v <- v div 10`. The first argument bounds
the passes. -/
def decLoop : Nat → Nat → Text → Text
  | 0, _, s => s
  | n + 1, v, s => if v = 0 then s else decLoop n (v / 10) (hexd (v % 10) :: s)

/-- `DEC(v)` (R152). A number has no more decimal digits than bits. -/
def decOf (v : Nat) : Text := if v = 0 then "0".toList else decLoop (Nat.log2 v + 1) v []

/-- The strings joined by a separator character. -/
def joinWith (c : Char) : List Text → Text
  | [] => []
  | [t] => t
  | t :: u :: ts => t ++ c :: joinWith c (u :: ts)

/-- `FMT_MAC(v)` (R153). -/
def fmtMacOf (v : BitVec 48) : Text := joinWith ':' ((bytesOf v.toNat 6).map hex2Of)

/-- `FMT_IP4(v)` (R154). -/
def fmtIp4Of (v : BitVec 32) : Text := joinWith '.' ((bytesOf v.toNat 4).map fun b => decOf b.toNat)

/-- `padr(s, n)` (R16). -/
def padr (s : Text) (n : Nat) : Text := s ++ List.replicate (n - s.length) ' '

/-- `PREFIX(tag)` (R155): `padr(tag ++ ":", TAGW)`. -/
def prefixOf (t : SecTag) : Text := padr (strTag t ++ [':']) Config.tagw

/-- `KV(label, value)` (R157). -/
def kvOf (label value : Text) : Text := label ++ " = ".toList ++ value

/-- `MASK8(pos, bit)` (R158): positions 7 down to 0, a space after the character for bit 4. -/
def mask8Of (pos : Fin 8) (b : BitVec 1) : Text :=
  [7, 6, 5, 4, 3, 2, 1, 0].flatMap fun p =>
    (if p = pos.val then hexd b.toNat else '.') :: (if p = 4 then [' '] else [])

/-- `ANNOT(mask, label)` (R159). -/
def annotOf (mask label : Text) : Text :=
  List.replicate Config.annotIndent ' ' ++ mask ++ " = ".toList ++ label

/-- `FLAGLABEL(name, bit)` (R160). -/
def flaglabelOf (name : Text) (b : BitVec 1) : Text := if b = 1 then name else strNo ++ name

/-- `PRINTABLE(b)` (R8, R162). -/
def printableByte (b : Byte) : Bool := decide (0x20 ≤ b.toNat) && decide (b.toNat ≤ 0x7E)

/-- `ASCII_CH(b)` (R162), its one character. -/
def asciiChOf (b : Byte) : Char := if printableByte b then Char.ofNat b.toNat else '.'

/-- Slot `i` of the hex area of a dump row: a present byte's digits or two spaces, and one space after every
second slot, present or missing (R161). -/
def dumpSlot (s : List Byte) (i : Nat) : Text :=
  (match s[i]? with
    | some b => hex2Of b
    | none => "  ".toList) ++
  (if i % Config.groupBytes = 1 then [' '] else [])

/-- `DUMP_ROW(s)` (R161): the 16 slots, then the ASCII column padded with periods. -/
def dumpRowOf (s : List Byte) : Text :=
  (List.range Config.rowBytes).flatMap (dumpSlot s) ++ s.map asciiChOf ++
    List.replicate (Config.rowBytes - s.length) '.'

/-- The rows of `DUMP(tag, s)` (R163): row k is `DUMP_ROW(s[16k .. min(16k + 16, |s|)))`, for k in
0..ceil(|s| / 16). -/
def dumpRowsOf (s : List Byte) : List Text :=
  (List.range ((s.length + (Config.rowBytes - 1)) / Config.rowBytes)).map fun k =>
    dumpRowOf ((s.drop (Config.rowBytes * k)).take Config.rowBytes)

/-- `PROTO_NOTE()` (R174). -/
def protoNoteOf (p : BitVec 8) : Text :=
  if p = Config.protoIcmp then strNoteIcmp
  else if p = Config.protoTcp then strNoteTcp
  else if p = Config.protoUdp then strNoteUdp
  else []

end Sys2Proof.Machine
end

