-- ==== Sys2Proof/Machine/Render.lean ====
section
/-! DEFINITION. The Renderer: the formatting operations as instructions, the operations that emit (R156, R163),
the report sections (R173 to R180) and RENDER (R182). The Renderer writes `LINES` only. -/

namespace Sys2Proof.Machine

/-! ## Emitting -/

/-- `LINE(tag, c)` (R156): `Emit(PREFIX(tag) ++ c)`. -/
def lineOp (t : SecTag) (c : Text) : Op Unit := modifyOp fun s => s.emit (prefixOf t ++ c)

/-- `BLANK(tag)` (R156): `LINE(tag, "")`. -/
def blankOp (t : SecTag) : Op Unit := lineOp t []

/-- `DUMP(tag, s)` (R163). -/
def dumpOp (t : SecTag) (s : List Byte) : Op Unit := seqOps ((dumpRowsOf s).map (lineOp t))

/-- A field line `LINE(t, KV(label, f(DF.<field>)))` (R157). -/
def fieldLine {α : Type} (t : SecTag) (label : Text) (g : Record → Option α) (r : Reg) (f : α → Text) :
    Op Unit :=
  bindOp (readReg g r) fun v => lineOp t (kvOf label (f v))

/-- An annotation line `LINE(t, ANNOT(MASK8(pos, bit), label))` for a view of a register (R159). -/
def flagLine {w : Nat} (t : SecTag) (g : Record → Option (BitVec w)) (r : Reg) (pos : Fin 8)
    (view : BitVec w → BitVec 1) (label : BitVec 1 → Text) : Op Unit :=
  bindOp (readReg g r) fun v => lineOp t (annotOf (mask8Of pos (view v)) (label (view v)))

/-! ## The sections -/

/-- `RENDER_ETHER` (R173). -/
def renderEtherOp : Op Unit := seqOps [
  lineOp .ether strHEther,
  blankOp .ether,
  fieldLine .ether strSize Record.frameSize .frameSize fun n => decOf n ++ strBytes,
  fieldLine .ether strDst Record.ethDst .ethDst fmtMacOf,
  fieldLine .ether strSrc Record.ethSrc .ethSrc fmtMacOf,
  fieldLine .ether strEtype Record.ethType .ethType fun v =>
    hexbytesOf (bytesOf v.toNat 2) ++ (if v = Config.ethertypeIpv4 then strNoteIp else []),
  blankOp .ether]

/-- `RENDER_IP` (R174). -/
def renderIpOp : Op Unit := seqOps [
  lineOp .ip strHIp,
  blankOp .ip,
  fieldLine .ip strVersion Record.ipVersion .ipVersion fun v => decOf v.toNat,
  fieldLine .ip strHlen Record.ipHlen .ipHlen fun v => decOf v.toNat ++ strBytes,
  fieldLine .ip strTos Record.ipTos .ipTos fun v => hexbytesOf [v],
  lineOp .ip (annotOf strMaskPrec strPrec),
  flagLine .ip Record.ipTos .ipTos 4 ipTosD strDelay,
  flagLine .ip Record.ipTos .ipTos 3 ipTosT strThroughput,
  flagLine .ip Record.ipTos .ipTos 2 ipTosR strReliability,
  fieldLine .ip strTotLen Record.ipTotalLen .ipTotalLen fun v => decOf v.toNat ++ strBytes,
  fieldLine .ip strId Record.ipId .ipId fun v => decOf v.toNat,
  fieldLine .ip strFlags Record.ipFlagsFrag .ipFlagsFrag fun v => hexbytesOf [ipFlagsByteOf v],
  flagLine .ip Record.ipFlagsFrag .ipFlagsFrag 6 ipDf strDf,
  flagLine .ip Record.ipFlagsFrag .ipFlagsFrag 5 ipMf strMf,
  fieldLine .ip strFrag Record.ipFlagsFrag .ipFlagsFrag fun v => decOf (mul8Of (ipFragOff v).toNat) ++ strBytes,
  fieldLine .ip strTtl Record.ipTtl .ipTtl fun v => decOf v.toNat ++ strTtlUnit,
  fieldLine .ip strProto Record.ipProto .ipProto fun v => decOf v.toNat ++ protoNoteOf v,
  fieldLine .ip strIpCksum Record.ipCksum .ipCksum fun v => hexbytesOf (bytesOf v.toNat 2),
  fieldLine .ip strIpSrc Record.ipSrc .ipSrc fmtIp4Of,
  fieldLine .ip strIpDst Record.ipDst .ipDst fmtIp4Of,
  blankOp .ip]

/-- `RENDER_DIAG` (R176). -/
def renderDiagOp : Op Unit := fieldLine .ip strUnsup Record.ipProto .ipProto fun v => decOf v.toNat

/-- `RENDER_ICMP` (R177). -/
def renderIcmpOp : Op Unit := seqOps [
  lineOp .icmp strHIcmp,
  blankOp .icmp,
  fieldLine .icmp strType Record.icmpType .icmpType fun v => decOf v.toNat,
  fieldLine .icmp strCode Record.icmpCode .icmpCode fun v => decOf v.toNat,
  fieldLine .icmp strCksum Record.icmpCksum .icmpCksum fun v => hexbytesOf (bytesOf v.toNat 2),
  blankOp .icmp]

/-- `DF.sample[0 .. DF.sample_len)`: every element read must hold a value (R28). -/
def sampleOf (d : Record) : Option (List Byte) :=
  if d.sampleLen.toNat ≤ d.sample.length then some (d.sample.take d.sampleLen.toNat) else none

/-- `RENDER_DATA(t)` (R180). -/
def renderDataOp (t : SecTag) : Op Unit := bindOp (readReg sampleOf .sample) fun b => seqOps [
  fun s => lineOp t (strData1 ++ decOf s.df.sampleLen.toNat ++ strData2) s,
  dumpOp t b,
  blankOp t]

/-- `RENDER_TCP` (R178). -/
def renderTcpOp : Op Unit := seqOps [
  lineOp .tcp strHTcp,
  blankOp .tcp,
  fieldLine .tcp strSport Record.tcpSport .tcpSport fun v => decOf v.toNat,
  fieldLine .tcp strDport Record.tcpDport .tcpDport fun v => decOf v.toNat,
  fieldLine .tcp strSeq Record.tcpSeq .tcpSeq fun v => decOf v.toNat,
  fieldLine .tcp strAck Record.tcpAck .tcpAck fun v => decOf v.toNat,
  fieldLine .tcp strDoff Record.tcpDoff .tcpDoff fun v => decOf (mul4Of v.toNat) ++ strBytes,
  fieldLine .tcp strFlags Record.tcpFlags .tcpFlags fun v => hexbytesOf [BitVec.ofNat 8 v.toNat],
  flagLine .tcp Record.tcpFlags .tcpFlags 5 tcpUrg (flaglabelOf strNUrg),
  flagLine .tcp Record.tcpFlags .tcpFlags 4 tcpAckf (flaglabelOf strNAck),
  flagLine .tcp Record.tcpFlags .tcpFlags 3 tcpPsh (flaglabelOf strNPsh),
  flagLine .tcp Record.tcpFlags .tcpFlags 2 tcpRst (flaglabelOf strNRst),
  flagLine .tcp Record.tcpFlags .tcpFlags 1 tcpSyn (flaglabelOf strNSyn),
  flagLine .tcp Record.tcpFlags .tcpFlags 0 tcpFin (flaglabelOf strNFin),
  fieldLine .tcp strWindow Record.tcpWindow .tcpWindow fun v => decOf v.toNat,
  fieldLine .tcp strCksum Record.tcpCksum .tcpCksum fun v => hexbytesOf (bytesOf v.toNat 2),
  fieldLine .tcp strUrgptr Record.tcpUrgptr .tcpUrgptr fun v => decOf v.toNat,
  blankOp .tcp,
  renderDataOp .tcp]

/-- `RENDER_UDP` (R179). -/
def renderUdpOp : Op Unit := seqOps [
  lineOp .udp strHUdp,
  blankOp .udp,
  fieldLine .udp strSport Record.udpSport .udpSport fun v => decOf v.toNat,
  fieldLine .udp strDport Record.udpDport .udpDport fun v => decOf v.toNat,
  fieldLine .udp strLength Record.udpLen .udpLen fun v => decOf v.toNat,
  fieldLine .udp strCksum Record.udpCksum .udpCksum fun v => hexbytesOf (bytesOf v.toNat 2),
  blankOp .udp,
  renderDataOp .udp]

/-- The transport section that `DF.tag` selects (R171, R182). -/
def renderTransportOp : Op Unit := fun s =>
  match s.df.tag with
  | .none => skipOp s
  | .icmp => renderIcmpOp s
  | .tcp => renderTcpOp s
  | .udp => renderUdpOp s
  | .unknown => renderDiagOp s

/-- The IPv4 section and what follows it, when `DF.ip_valid` (R171, R182). -/
def renderIpPartOp : Op Unit := fun s =>
  if s.df.ipValid then seqOps [renderIpOp, renderTransportOp] s else skipOp s

/-- `RENDER` (R182): nothing when there is no record (R219). -/
def renderOp : Op Unit := fun s =>
  if s.status = .ok then seqOps [modifyOp State.clearLines, renderEtherOp, renderIpPartOp] s else skipOp s

/-! ## The instructions -/

/-- `HEX2` (R150). -/
def execHex2 (b : Byte) (s : State) : Host.Outcome State Fault Refusal := returns (.text (hex2Of b)) s

/-- `HEXBYTES` (R151). -/
def execHexbytes (bs : List Byte) (s : State) : Host.Outcome State Fault Refusal :=
  returns (.text (hexbytesOf bs)) s

/-- `DEC` (R152). -/
def execDec (v : Nat) (s : State) : Host.Outcome State Fault Refusal := returns (.text (decOf v)) s

/-- `FMT_MAC` (R153). -/
def execFmtMac (v : BitVec 48) (s : State) : Host.Outcome State Fault Refusal := returns (.text (fmtMacOf v)) s

/-- `FMT_IP4` (R154). -/
def execFmtIp4 (v : BitVec 32) (s : State) : Host.Outcome State Fault Refusal := returns (.text (fmtIp4Of v)) s

/-- `PREFIX` (R155). -/
def execPrefix (t : SecTag) (s : State) : Host.Outcome State Fault Refusal := returns (.text (prefixOf t)) s

/-- `LINE` (R156). -/
def execLine (t : SecTag) (c : Text) (s : State) : Host.Outcome State Fault Refusal := procedure (lineOp t c s)

/-- `BLANK` (R156). -/
def execBlank (t : SecTag) (s : State) : Host.Outcome State Fault Refusal := procedure (blankOp t s)

/-- `KV` (R157). -/
def execKv (label value : Text) (s : State) : Host.Outcome State Fault Refusal :=
  returns (.text (kvOf label value)) s

/-- `MASK8` (R158). -/
def execMask8 (pos : Fin 8) (b : BitVec 1) (s : State) : Host.Outcome State Fault Refusal :=
  returns (.text (mask8Of pos b)) s

/-- `ANNOT` (R159). -/
def execAnnot (mask label : Text) (s : State) : Host.Outcome State Fault Refusal :=
  returns (.text (annotOf mask label)) s

/-- `FLAGLABEL` (R160). -/
def execFlaglabel (name : Text) (b : BitVec 1) (s : State) : Host.Outcome State Fault Refusal :=
  returns (.text (flaglabelOf name b)) s

/-- `DUMP_ROW` (R161). -/
def execDumpRow (bs : List Byte) (s : State) : Host.Outcome State Fault Refusal :=
  returns (.text (dumpRowOf bs)) s

/-- `ASCII_CH` (R162): a string of one character. -/
def execAsciiCh (b : Byte) (s : State) : Host.Outcome State Fault Refusal := returns (.text [asciiChOf b]) s

/-- `DUMP` (R163). -/
def execDump (t : SecTag) (bs : List Byte) (s : State) : Host.Outcome State Fault Refusal :=
  procedure (dumpOp t bs s)

/-- `RENDER_ETHER` (R173). -/
def execRenderEther (s : State) : Host.Outcome State Fault Refusal := procedure (renderEtherOp s)

/-- `RENDER_IP` (R174). -/
def execRenderIp (s : State) : Host.Outcome State Fault Refusal := procedure (renderIpOp s)

/-- `IPFLAGS_BYTE` (R175). -/
def execIpflagsByte (s : State) : Host.Outcome State Fault Refusal :=
  valued (fun v => .num (ipFlagsByteOf v).toNat) (readReg Record.ipFlagsFrag .ipFlagsFrag s)

/-- `RENDER_DIAG` (R176). -/
def execRenderDiag (s : State) : Host.Outcome State Fault Refusal := procedure (renderDiagOp s)

/-- `RENDER_ICMP` (R177). -/
def execRenderIcmp (s : State) : Host.Outcome State Fault Refusal := procedure (renderIcmpOp s)

/-- `RENDER_TCP` (R178). -/
def execRenderTcp (s : State) : Host.Outcome State Fault Refusal := procedure (renderTcpOp s)

/-- `RENDER_UDP` (R179). -/
def execRenderUdp (s : State) : Host.Outcome State Fault Refusal := procedure (renderUdpOp s)

/-- `RENDER_DATA` (R180). -/
def execRenderData (t : SecTag) (s : State) : Host.Outcome State Fault Refusal := procedure (renderDataOp t s)

/-- `RENDER`, the transaction (R182). -/
def execRender (s : State) : Host.Outcome State Fault Refusal := procedure (renderOp s)

end Sys2Proof.Machine
end

