-- ==== Sys2Proof/Machine/Transactions.lean ====
section
/-! DEFINITION. The transaction RUN (R183) and the reset input (R210). -/

namespace Sys2Proof.Machine

/-- `RUN` (R183): `DECODE(); RENDER()` as one atomic step. When DECODE has raised, the state is R193's and RENDER
emits nothing (R193, R182). -/
def execRun (s : State) : Host.Outcome State Fault Refusal :=
  match decodeOp s with
  | .ok _ t => procedure (renderOp t)
  | .trap t => procedure (renderOp t)
  | .fault f => .fault f
  | .refuse r => .refused r

/-- `RESET` (R46, R210, R211). -/
def execReset (s : State) : Host.Outcome State Fault Refusal := .next s.resetUnit

end Sys2Proof.Machine
end

