-- ==== Sys2Proof/Machine/Dispatch.lean ====
section
/-! DEFINITION. The one dispatch: every row of the opcode table to its meaning. -/

namespace Sys2Proof.Machine

def exec (i : Instr) (s : State) : Host.Outcome State Fault Refusal :=
  match i with
  | .eth dst src etype => Sys2Proof.Machine.execEth dst src etype s
  | .ipv4 version hlenWords tos totalLen ident flagsFrag ttl proto cksum src dst => Sys2Proof.Machine.execIpv4 version hlenWords tos totalLen ident flagsFrag ttl proto cksum src dst s
  | .icmp type code cksum => Sys2Proof.Machine.execIcmp type code cksum s
  | .tcp sport dport seqNo ackNo doff flags window cksum urgptr => Sys2Proof.Machine.execTcp sport dport seqNo ackNo doff flags window cksum urgptr s
  | .udp sport dport length cksum => Sys2Proof.Machine.execUdp sport dport length cksum s
  | .ethOnly => Sys2Proof.Machine.execEthOnly s
  | .ipUnknown => Sys2Proof.Machine.execIpUnknown s
  | .require n h => Sys2Proof.Machine.execRequire n h s
  | .rd8 h => Sys2Proof.Machine.execRd8 h s
  | .rd16 h => Sys2Proof.Machine.execRd16 h s
  | .rd32 h => Sys2Proof.Machine.execRd32 h s
  | .rdb n h => Sys2Proof.Machine.execRdb n h s
  | .be bs => Sys2Proof.Machine.execBe bs s
  | .bytes v n => Sys2Proof.Machine.execBytes v n s
  | .u8 v => Sys2Proof.Machine.execU8 v s
  | .bit _ v k => Sys2Proof.Machine.execBit v k s
  | .bits _ v hi lo => Sys2Proof.Machine.execBits v hi lo s
  | .mul4 v => Sys2Proof.Machine.execMul4 v s
  | .mul8 v => Sys2Proof.Machine.execMul8 v s
  | .minOf a b => Sys2Proof.Machine.execMin a b s
  | .equal _ a b => Sys2Proof.Machine.execEq a b s
  | .parseEth => Sys2Proof.Machine.execParseEth s
  | .parseIpv4 => Sys2Proof.Machine.execParseIpv4 s
  | .parseIcmp => Sys2Proof.Machine.execParseIcmp s
  | .parseTcp => Sys2Proof.Machine.execParseTcp s
  | .parseUdp => Sys2Proof.Machine.execParseUdp s
  | .parseUnknown => Sys2Proof.Machine.execParseUnknown s
  | .captureSample => Sys2Proof.Machine.execCaptureSample s
  | .decode => Sys2Proof.Machine.execDecode s
  | .hex2 b => Sys2Proof.Machine.execHex2 b s
  | .hexbytes bs => Sys2Proof.Machine.execHexbytes bs s
  | .dec v => Sys2Proof.Machine.execDec v s
  | .fmtMac v => Sys2Proof.Machine.execFmtMac v s
  | .fmtIp4 v => Sys2Proof.Machine.execFmtIp4 v s
  | .tagPrefix t => Sys2Proof.Machine.execPrefix t s
  | .line t c => Sys2Proof.Machine.execLine t c s
  | .blank t => Sys2Proof.Machine.execBlank t s
  | .kv label value => Sys2Proof.Machine.execKv label value s
  | .mask8 pos b => Sys2Proof.Machine.execMask8 pos b s
  | .annot mask label => Sys2Proof.Machine.execAnnot mask label s
  | .flaglabel name b => Sys2Proof.Machine.execFlaglabel name b s
  | .dumpRow bs => Sys2Proof.Machine.execDumpRow bs s
  | .asciiCh b => Sys2Proof.Machine.execAsciiCh b s
  | .dump t bs => Sys2Proof.Machine.execDump t bs s
  | .renderEther => Sys2Proof.Machine.execRenderEther s
  | .renderIp => Sys2Proof.Machine.execRenderIp s
  | .ipflagsByte => Sys2Proof.Machine.execIpflagsByte s
  | .renderDiag => Sys2Proof.Machine.execRenderDiag s
  | .renderIcmp => Sys2Proof.Machine.execRenderIcmp s
  | .renderTcp => Sys2Proof.Machine.execRenderTcp s
  | .renderUdp => Sys2Proof.Machine.execRenderUdp s
  | .renderData t => Sys2Proof.Machine.execRenderData t s
  | .render => Sys2Proof.Machine.execRender s
  | .run => Sys2Proof.Machine.execRun s
  | .reset => Sys2Proof.Machine.execReset s

end Sys2Proof.Machine
end

