-- ==== Sys2Proof/WellFormed.lean ====
section
/-! DEFINITION. The operand checks: the ranges the rules R115 to R122 and R156 to R163 declare for the operands
of the operations (log entry 10). A header class has no check: each of its fields takes every value of its width (R94 to R100). -/

namespace Sys2Proof

/-- The byte counts BE and BYTES are defined for: n in 1, 2, 4, 6 (R115, R116). -/
def fieldSize (n : Nat) : Bool := n == 1 || n == 2 || n == 4 || n == 6

/-- The operands are in the ranges the operation's rule declares. -/
def Instr.wf : Instr → Bool
  | .eth .. | .ipv4 .. | .icmp .. | .tcp .. | .udp .. | .ethOnly | .ipUnknown => true
  | .require .. | .rd8 .. | .rd16 .. | .rd32 .. | .rdb .. => true
  | .be s => fieldSize s.length
  | .bytes v n => fieldSize n && decide (v < 256 ^ n)
  | .u8 s => decide (-128 ≤ s) && decide (s ≤ 255)
  | .bit width v i => decide (v < 2 ^ width) && decide (i < width)
  | .bits width v hi lo => decide (v < 2 ^ width) && decide (hi < width) && decide (lo ≤ hi)
  | .mul4 .. | .mul8 .. | .minOf .. => true
  | .equal width a b => decide (a < 2 ^ width) && decide (b < 2 ^ width)
  | .parseEth | .parseIpv4 | .parseIcmp | .parseTcp | .parseUdp | .parseUnknown => true
  | .captureSample | .decode => true
  | .hex2 .. | .hexbytes .. | .dec .. | .fmtMac .. | .fmtIp4 .. | .tagPrefix .. => true
  | .line _ c => Text.printable c
  | .blank .. => true
  | .kv label value => Text.printable label && Text.printable value
  | .mask8 .. => true
  | .annot mask label => Text.printable mask && Text.printable label
  | .flaglabel name _ => Text.printable name
  | .dumpRow s => decide (1 ≤ s.length) && decide (s.length ≤ 16)
  | .asciiCh .. => true
  | .dump _ s => decide (s.length ≤ 64)
  | .renderEther | .renderIp | .ipflagsByte | .renderDiag | .renderIcmp | .renderTcp | .renderUdp => true
  | .renderData .. => true
  | .render | .run | .reset => true

end Sys2Proof
end

