-- ==== Sys2Proof/Machine/Step.lean ====
section
/-! DEFINITION. One step of the unit. -/

namespace Sys2Proof.Machine

/-- The present bytes of the frame that the unit may look at: offsets 0 to `min(LEN, 98) - 1` (R7, R64). -/
def State.visibleFrame (s : State) : List Byte :=
  Memory.readBytes s.frame 0 (minimumOf s.len Config.maxRead)

/-- The header class at the cursor. -/
def State.fetch (s : State) : Decoded := decodeAt s.cur s.visibleFrame

/-- One step. Between transactions nothing changes with time (R225). A started operation runs as one atomic
step (R9, R223). Header by header, the class at the cursor is fetched and run; a class the frame is too short
for raises TruncatedInput (R93, R191). -/
def step (s : State) : Host.Outcome State Fault Refusal :=
  match s.pending with
  | .idle => .next s
  | .op i => if i.wf then exec i (s.withPending .idle) else .refused .illFormed
  | .header =>
    match s.fetch with
    | .instr i => exec i s
    | .rejected (.truncated h) => .next (raiseTruncated h s)
    | .rejected .noHeaderAt => .refused .noHeaderAt

/-- The table word stored where step fetches its next instruction: the frame holds its bytes, and the unit is
header by header at the class the word stands for. -/
def State.withFetchWord (s : State) (nbits w : Nat) : State :=
  { s with
    frame := Memory.ofBytesAt 0 (wordBytes nbits w)
    len := Config.maxRead
    cur := windowOffset (wordBytes nbits w)
    pending := .header }

end Sys2Proof.Machine
end

