-- ==== Sys2Proof/Safety.lean ====
section
/-! DEFINITION. The vocabulary of the claims: the frame's bytes and big-endian fields at their offsets (R64, R67,
R82 to R86), the records a decoded frame holds, what a completed transaction leaves (R45), and the invariant
that every step keeps. No definition here is used by the machine. -/

namespace Sys2Proof.Machine

/-! ## The frame at its offsets -/

/-- `FRAME[a]` (R22). -/
def State.byteAt (s : State) (a : Nat) : Byte := Memory.read s.frame a

/-- The big-endian 2-byte field at offset `a` (R67). -/
def State.halfAt (s : State) (a : Nat) : BitVec 16 := s.byteAt a ++ s.byteAt (a + 1)

/-- The big-endian 4-byte field at offset `a` (R67). -/
def State.wordAt (s : State) (a : Nat) : BitVec 32 :=
  s.byteAt a ++ s.byteAt (a + 1) ++ s.byteAt (a + 2) ++ s.byteAt (a + 3)

/-- The big-endian 6-byte field at offset `a` (R67). -/
def State.macAt (s : State) (a : Nat) : BitVec 48 :=
  s.byteAt a ++ s.byteAt (a + 1) ++ s.byteAt (a + 2) ++ s.byteAt (a + 3) ++ s.byteAt (a + 4) ++ s.byteAt (a + 5)

/-- The bytes at offsets `a` to `a + n - 1`, in frame order (R14). -/
def State.bytesAt (s : State) (a n : Nat) : List Byte := (List.range n).map fun i => s.byteAt (a + i)

/-! ## What each parse operation writes, for a header that begins at offset `a` -/

/-- The fields of `ETH` (R82, R131). -/
def State.ethFields (s : State) (a : Nat) (d : Record) : Record :=
  { d with
    ethDst := some (s.macAt a)
    ethSrc := some (s.macAt (a + 6))
    ethType := some (s.halfAt (a + 12))
    ethValid := true }

/-- The fields of `IPV4` (R83, R88, R132). -/
def State.ipFields (s : State) (a : Nat) (d : Record) : Record :=
  { d with
    ipVersion := some ((s.byteAt a).extractLsb' 4 4)
    ipHlen := some (((s.byteAt a).extractLsb' 0 4).setWidth 6 * 4)
    ipTos := some (s.byteAt (a + 1))
    ipTotalLen := some (s.halfAt (a + 2))
    ipId := some (s.halfAt (a + 4))
    ipFlagsFrag := some (s.halfAt (a + 6))
    ipTtl := some (s.byteAt (a + 8))
    ipProto := some (s.byteAt (a + 9))
    ipCksum := some (s.halfAt (a + 10))
    ipSrc := some (s.wordAt (a + 12))
    ipDst := some (s.wordAt (a + 16))
    ipValid := true }

/-- The fields of `ICMP` (R84, R133). -/
def State.icmpFields (s : State) (a : Nat) (d : Record) : Record :=
  { d with
    icmpType := some (s.byteAt a)
    icmpCode := some (s.byteAt (a + 1))
    icmpCksum := some (s.halfAt (a + 2))
    tag := .icmp }

/-- The fields of `TCP` (R85, R134). -/
def State.tcpFields (s : State) (a : Nat) (d : Record) : Record :=
  { d with
    tcpSport := some (s.halfAt a)
    tcpDport := some (s.halfAt (a + 2))
    tcpSeq := some (s.wordAt (a + 4))
    tcpAck := some (s.wordAt (a + 8))
    tcpDoff := some ((s.byteAt (a + 12)).extractLsb' 4 4)
    tcpFlags := some ((s.byteAt (a + 13)).extractLsb' 0 6)
    tcpWindow := some (s.halfAt (a + 14))
    tcpCksum := some (s.halfAt (a + 16))
    tcpUrgptr := some (s.halfAt (a + 18))
    tag := .tcp }

/-- The fields of `UDP` (R86, R135). -/
def State.udpFields (s : State) (a : Nat) (d : Record) : Record :=
  { d with
    udpSport := some (s.halfAt a)
    udpDport := some (s.halfAt (a + 2))
    udpLen := some (s.halfAt (a + 4))
    udpCksum := some (s.halfAt (a + 6))
    tag := .udp }

/-- The payload sample (R28, R137). -/
def State.sampleFields (s : State) (d : Record) : Record :=
  { d with
    sample := s.bytesAt 34 (min 64 (s.len - 34))
    sampleLen := BitVec.ofNat 7 (min 64 (s.len - 34)) }

/-! ## The records a frame decodes to (R64, R80), before `DF.frame_size` -/

/-- The record after the Ethernet header. -/
def State.ethRecord (s : State) : Record := s.ethFields 0 Record.empty

/-- The record after the IPv4 header. -/
def State.ipRecord (s : State) : Record := s.ipFields 14 s.ethRecord

/-- The unit after a DECODE that succeeded with record `d` and cursor `c` (R45, R139). -/
def State.decodedAs (s : State) (d : Record) (c : Nat) : State :=
  { s with
    df := { d with frameSize := some s.len }
    status := .ok
    errHdr := none
    cur := c
    lines := []
    pending := .idle }

/-- The unit after a DECODE that raised TruncatedInput(h) with the cursor at `c` (R45, R193). -/
def State.truncatedAs (s : State) (h : Hdr) (c : Nat) : State :=
  { s with
    df := Record.empty
    status := .truncated
    errHdr := some h
    cur := c
    lines := []
    pending := .idle }

/-! ## The formats of numbers (R16) -/

/-- A string literal as a string of the report. -/
def txt (s : String) : Text := s.toList

/-- `c` is `"0123456789abcdef"[k]` (R16). -/
def isHexDigit (k : Nat) (c : Char) : Prop := (txt "0123456789abcdef")[k]? = some c

/-- `t` is the decimal numeral of `v` (R16): digits only, its value is `v`, and no leading zero: only the numeral
`0` itself begins with `0`. -/
def isDecimal (v : Nat) (t : Text) : Prop :=
  t ≠ [] ∧ (∀ c ∈ t, '0' ≤ c ∧ c ≤ '9') ∧
    t.foldl (fun n c => 10 * n + (c.toNat - 48)) 0 = v ∧ (t.head? = some '0' → t = ['0'])

/-- `be(s)` as the sum of R12: `sum over i of s[i] * 256^(n-1-i)`. -/
def bigEndianSum : List Byte → Nat
  | [] => 0
  | b :: s => b.toNat * 256 ^ s.length + bigEndianSum s

/-! ## The report -/

/-- The operations in order, each from the state the one before it left. -/
def execSeq : List Instr → State → Host.Outcome State Fault Refusal
  | [], s => .next s
  | i :: is, s =>
    match exec i s with
    | .next t => execSeq is t
    | .fault f => .fault f
    | .refused r => .refused r

/-- The sections of the report of a record, in order (R171, R182). -/
def Record.sections (d : Record) : List Instr :=
  if d.ipValid = false then [.renderEther]
  else
    match d.tag with
    | .none => [.renderEther, .renderIp]
    | .icmp => [.renderEther, .renderIp, .renderIcmp]
    | .tcp => [.renderEther, .renderIp, .renderTcp]
    | .udp => [.renderEther, .renderIp, .renderUdp]
    | .unknown => [.renderEther, .renderIp, .renderDiag]

/-- The number of lines of the whole report (R181); the dump has `ceil(sample_len / 16)` rows. -/
def Record.reportLength (d : Record) : Nat :=
  match d.tag with
  | .none => 7
  | .unknown => 29
  | .icmp => 34
  | .tcp => 48 + (d.sampleLen.toNat + 15) / 16
  | .udp => 37 + (d.sampleLen.toNat + 15) / 16

/-- The dump of the payload sample with tag `t` (R163, R180): `ceil(n / 16)` rows, row k the bytes from 16k on. -/
def dumpLines (t : SecTag) (b : List Byte) : List Text :=
  (List.range ((b.length + 15) / 16)).map fun k => prefixOf t ++ dumpRowOf ((b.drop (16 * k)).take 16)

/-- The two bytes of a 16-bit field as the report prints them: `0x` and four hexadecimal digits (R151). -/
def hex16 (v : BitVec 16) : Text :=
  txt "0x" ++ hex2Of (v.extractLsb' 8 8) ++ hex2Of (v.extractLsb' 0 8)

/-! ## The invariant -/

/-- The registers of `ETH` hold values or not (R24). -/
def Record.ethHeld (d : Record) (v : Bool) : Prop :=
  d.ethDst.isSome = v ∧ d.ethSrc.isSome = v ∧ d.ethType.isSome = v

/-- The registers of `IPV4` hold values or not (R24). -/
def Record.ipHeld (d : Record) (v : Bool) : Prop :=
  d.ipVersion.isSome = v ∧ d.ipHlen.isSome = v ∧ d.ipTos.isSome = v ∧ d.ipTotalLen.isSome = v ∧
    d.ipId.isSome = v ∧ d.ipFlagsFrag.isSome = v ∧ d.ipTtl.isSome = v ∧ d.ipProto.isSome = v ∧
    d.ipCksum.isSome = v ∧ d.ipSrc.isSome = v ∧ d.ipDst.isSome = v

/-- The registers of `ICMP` hold values or not (R24). -/
def Record.icmpHeld (d : Record) (v : Bool) : Prop :=
  d.icmpType.isSome = v ∧ d.icmpCode.isSome = v ∧ d.icmpCksum.isSome = v

/-- The registers of `TCP` hold values or not (R24). -/
def Record.tcpHeld (d : Record) (v : Bool) : Prop :=
  d.tcpSport.isSome = v ∧ d.tcpDport.isSome = v ∧ d.tcpSeq.isSome = v ∧ d.tcpAck.isSome = v ∧
    d.tcpDoff.isSome = v ∧ d.tcpFlags.isSome = v ∧ d.tcpWindow.isSome = v ∧ d.tcpCksum.isSome = v ∧
    d.tcpUrgptr.isSome = v

/-- The registers of `UDP` hold values or not (R24). -/
def Record.udpHeld (d : Record) (v : Bool) : Prop :=
  d.udpSport.isSome = v ∧ d.udpDport.isSome = v ∧ d.udpLen.isSome = v ∧ d.udpCksum.isSome = v

/-- The tag a decoded record has (R32). -/
def tagFor (ipValid : Bool) (proto : Option (BitVec 8)) : Tag :=
  if ipValid = false then .none
  else if proto = some 1 then .icmp
  else if proto = some 6 then .tcp
  else if proto = some 17 then .udp
  else .unknown

/-- A record of a DECODE that succeeded on a frame of `n` bytes (R24, R28 to R33, R45). -/
def Record.complete (d : Record) (n : Nat) : Prop :=
  d.frameSize = some n ∧ 14 ≤ n ∧ d.ethValid = true ∧ d.ethHeld true ∧
    (d.ipValid = true ↔ d.ethType = some 0x0800) ∧ (d.ipValid = true → 34 ≤ n) ∧ d.ipHeld d.ipValid ∧
    d.tag = tagFor d.ipValid d.ipProto ∧ (d.diag = true ↔ d.tag = .unknown) ∧
    d.icmpHeld (decide (d.tag = .icmp)) ∧ d.tcpHeld (decide (d.tag = .tcp)) ∧
    d.udpHeld (decide (d.tag = .udp)) ∧
    (d.tag = .icmp → 38 ≤ n) ∧ (d.tag = .tcp → 54 ≤ n) ∧ (d.tag = .udp → 42 ≤ n) ∧
    d.sample.length = d.sampleLen.toNat ∧
    d.sampleLen.toNat = (if d.tag = .tcp ∨ d.tag = .udp then min 64 (n - 34) else 0)

/-- A line of a report: printable characters after one of the five tag columns (R44, R156, R164). -/
def isReportLine (l : Text) : Prop :=
  Text.printable l = true ∧
    ∃ p ∈ [txt "ETHER:  ", txt "IP:     ", txt "ICMP:   ", txt "TCP:    ", txt "UDP:    "], p <+: l

/-- The unit is in the middle of a DECODE that runs header by header: what has been parsed is in the record and
the cursor stands at the next header (R37, R38, R80). -/
def State.inChain (s : State) : Prop :=
  s.status = .idle ∧ s.errHdr = none ∧ s.lines = [] ∧
    ((s.cur = 0 ∧ s.df = Record.empty) ∨
      (s.cur = 14 ∧ 14 ≤ s.len ∧ s.df = s.ethRecord) ∨
      (s.cur = 34 ∧ 34 ≤ s.len ∧ s.halfAt 12 = 0x0800 ∧ s.df = s.ipRecord))

/-- The unit between transactions (R30 to R36, R45, R46): its record, status and lines agree. -/
def State.coherent (s : State) : Prop :=
  match s.status with
  | .idle => s.errHdr = none ∧ s.df = Record.empty ∧ s.lines = []
  | .ok => s.errHdr = none ∧ ∃ n, s.df.complete n
  | .truncated => s.errHdr ≠ none ∧ s.df = Record.empty ∧ s.lines = []

/-- The invariant of the machine: the frame is in canonical form, the cursor fits 7 bits, a report has at most
52 lines and each is a report line, and the unit is idle, or started by the host (R183, R210), or in the middle
of a chain. -/
def State.invariant (s : State) : Prop :=
  Memory.wf s.frame = true ∧ s.cur ≤ 98 ∧ s.lines.length ≤ 52 ∧ (∀ l ∈ s.lines, isReportLine l) ∧
    (match s.pending with
      | .idle => s.coherent
      | .op i => i.hostStarted = true ∧ s.coherent
      | .header => s.inChain)

/-- A safe step: it answers a next state, neither a fault nor a refusal. -/
def State.stepsSafely (s : State) : Prop := ∃ t : State, step s = .next t

end Sys2Proof.Machine
end

