-- ==== Sys2Proof/Certificates/Slice0/Obligations.lean ====
section
/-! DEFINITION. The statements about the machine, one rule of the spec (or one design decision of the model,
named by its log entry) each. OBLIGATIONS.json says which. -/

section
open Sys2Proof Sys2Proof.Machine

/-! ## Reset (R46, R210, R211) -/

/-- R46, R211: what the RESET input leaves, from any state; and that the state after reset is that of a unit with
no call made. -/
def Obligations.ResetClearsUnit : Prop :=
  (∀ s : State, ∃ t : State,
    exec .reset s = .next t ∧ t.status = .idle ∧ t.errHdr = none ∧ t.df.ethValid = false ∧
      t.df.ipValid = false ∧ t.df.tag = .none ∧ t.df.diag = false ∧ t.df.sampleLen = 0 ∧
      t.nLines = 0 ∧ t.lines = [] ∧ t.cur = 0 ∧ ipPrec t.df = 0 ∧ t.df.sample = [] ∧ t.df = Record.empty ∧
      t.frame = s.frame ∧ t.len = s.len) ∧
  exec .reset State.reset = .next State.reset

/-! ## The length check and TruncatedInput (R110, R193) -/

/-- R110: it raises exactly when fewer than n bytes remain, and otherwise changes nothing. -/
def Obligations.RequireChecksRemainingLength : Prop := ∀ (n : Nat) (h : Hdr) (s : State),
  exec (.require n h) s = .next (if s.cur + n > s.len then raiseTruncated h s else s)

/-- R193: what taking TruncatedInput does to the state, and that RUN's RENDER part then emits nothing. -/
def Obligations.TruncatedInputEntryDiscardsRecord : Prop :=
  (∀ (n : Nat) (h : Hdr) (s : State), s.len < s.cur + n → ∃ t : State,
    exec (.require n h) s = .next t ∧ t.status = .truncated ∧ t.errHdr = some h ∧
      t.df.ethValid = false ∧ t.df.ipValid = false ∧ t.df.tag = .none ∧ t.df.diag = false ∧
      t.df.sampleLen = 0 ∧ t.lines = [] ∧ t.nLines = 0 ∧ t.df = Record.empty ∧ t.cur = s.cur ∧
      t.pending = .idle ∧ t.frame = s.frame ∧ t.len = s.len ∧ t.ret = s.ret) ∧
  (∀ s t : State, exec .decode s = .next t → t.status = .truncated → exec .run s = .next t)

/-! ## The cursor reads (R111 to R114) -/

/-- R111. -/
def Obligations.Rd8ReturnsByteAtCursor : Prop := ∀ (h : Hdr) (s : State),
  exec (.rd8 h) s = .next (if s.len < s.cur + 1 then raiseTruncated h s
    else { s with cur := s.cur + 1, ret := .num (s.byteAt s.cur).toNat })

/-- R112, R113: the first byte is the most significant, and the result is unsigned. -/
def Obligations.Rd16AndRd32AreBigEndian : Prop := ∀ (h : Hdr) (s : State),
  exec (.rd16 h) s = .next (if s.len < s.cur + 2 then raiseTruncated h s
    else { s with
      cur := s.cur + 2
      ret := .num ((s.byteAt s.cur).toNat * 256 + (s.byteAt (s.cur + 1)).toNat) }) ∧
  exec (.rd32 h) s = .next (if s.len < s.cur + 4 then raiseTruncated h s
    else { s with
      cur := s.cur + 4
      ret := .num ((((s.byteAt s.cur).toNat * 256 + (s.byteAt (s.cur + 1)).toNat) * 256 +
        (s.byteAt (s.cur + 2)).toNat) * 256 + (s.byteAt (s.cur + 3)).toNat) })

/-- R114. -/
def Obligations.RdbReturnsBytesInFrameOrder : Prop := ∀ (n : Nat) (h : Hdr) (s : State),
  exec (.rdb n h) s = .next (if s.len < s.cur + n then raiseTruncated h s
    else { s with cur := s.cur + n, ret := .bytes ((List.range n).map fun i => s.byteAt (s.cur + i)) })

/-! ## The value operations (R115 to R122): each changes the returned value and nothing else -/

/-- R115, R12. -/
def Obligations.BeIsBigEndianSum : Prop := ∀ (b : List Byte) (s : State),
  exec (.be b) s = .next { s with ret := .num (bigEndianSum b) } ∧ bigEndianSum b < 256 ^ b.length

/-- R116: the bytes of v, the most significant first, and the inverse of BE. -/
def Obligations.BytesInvertsBe : Prop :=
  (∀ (b : List Byte) (s : State),
    exec (.bytes (bigEndianSum b) b.length) s = .next { s with ret := .bytes b }) ∧
  (∀ (v n : Nat) (s : State), v < 256 ^ n → ∃ b : List Byte,
    exec (.bytes v n) s = .next { s with ret := .bytes b } ∧ b.length = n ∧ bigEndianSum b = v ∧
      ∀ i < n, b[i]? = some (BitVec.ofNat 8 (v / 256 ^ (n - 1 - i))))

/-- R117. -/
def Obligations.U8NormalisesSignedByte : Prop := ∀ (v : Int) (s : State), -128 ≤ v → v ≤ 255 → ∃ n : Nat,
  exec (.u8 v) s = .next { s with ret := .num n } ∧ n < 256 ∧ (n : Int) = v % 256 ∧
    (n : Int) = if 0 ≤ v then v else v + 256

/-- R118, R119: bit i of the value, and the bits hi down to lo of it, moved to bit 0. -/
def Obligations.BitAndBitsExtractPositions : Prop :=
  (∀ (w v i : Nat) (s : State), i < w → v < 2 ^ w →
    exec (.bit w v i) s = .next { s with ret := .num (if v.testBit i then 1 else 0) }) ∧
  (∀ (w v hi lo : Nat) (s : State), hi < w → lo ≤ hi → v < 2 ^ w → ∃ r : Nat,
    exec (.bits w v hi lo) s = .next { s with ret := .num r } ∧ r = v / 2 ^ lo % 2 ^ (hi - lo + 1) ∧
      (∀ k ≤ hi - lo, r.testBit k = v.testBit (lo + k)) ∧ (∀ k > hi - lo, r.testBit k = false))

/-- R120, R121, R122. -/
def Obligations.ArithmeticIsExact : Prop := ∀ (v a b w : Nat) (s : State),
  exec (.mul4 v) s = .next { s with ret := .num (v * 4) } ∧
    exec (.mul8 v) s = .next { s with ret := .num (v * 8) } ∧
    exec (.minOf a b) s = .next { s with ret := .num (min a b) } ∧
    exec (.equal w a b) s = .next { s with ret := .bool (decide (a = b)) }

/-! ## The parse operations (R131 to R137), wherever the cursor stands -/

/-- R131. -/
def Obligations.ParseEthReadsHeader : Prop := ∀ s : State,
  exec .parseEth s = .next (if s.len < s.cur + 14 then raiseTruncated .eth s
    else { s with df := s.ethFields s.cur s.df, cur := s.cur + 14 })

/-- R132. -/
def Obligations.ParseIpv4ReadsHeader : Prop := ∀ s : State,
  exec .parseIpv4 s = .next (if s.len < s.cur + 20 then raiseTruncated .ipv4 s
    else { s with df := s.ipFields s.cur s.df, cur := s.cur + 20 })

/-- R133. -/
def Obligations.ParseIcmpReadsHeader : Prop := ∀ s : State,
  exec .parseIcmp s = .next (if s.len < s.cur + 4 then raiseTruncated .icmp s
    else { s with df := s.icmpFields s.cur s.df, cur := s.cur + 4 })

/-- R134. -/
def Obligations.ParseTcpReadsHeader : Prop := ∀ s : State,
  exec .parseTcp s = .next (if s.len < s.cur + 20 then raiseTruncated .tcp s
    else { s with df := s.tcpFields s.cur s.df, cur := s.cur + 20 })

/-- R135. -/
def Obligations.ParseUdpReadsHeader : Prop := ∀ s : State,
  exec .parseUdp s = .next (if s.len < s.cur + 8 then raiseTruncated .udp s
    else { s with df := s.udpFields s.cur s.df, cur := s.cur + 8 })

/-- R136: no byte is read and the cursor stays, whatever the length. -/
def Obligations.ParseUnknownSetsDiagnostic : Prop := ∀ s : State,
  exec .parseUnknown s = .next { s with df := { s.df with tag := .unknown, diag := true } }

/-- R137: the sample starts at offset 34, is at most 64 bytes long and ends with the frame at the latest. -/
def Obligations.CaptureSampleTakesTransportBytes : Prop := ∀ s : State, 34 ≤ s.len → ∃ t : State,
  exec .captureSample s = .next t ∧
    t = { s with df := s.sampleFields s.df, cur := 34 + min 64 (s.len - 34) } ∧
    t.df.sampleLen.toNat = min 64 (s.len - 34) ∧ t.df.sample.length = min 64 (s.len - 34) ∧
    (∀ i < min 64 (s.len - 34), t.df.sample[i]? = some (s.byteAt (34 + i))) ∧ t.cur ≤ s.len

/-- The model's choice (log 9): in a frame of fewer than 34 bytes offset 34 does not exist, and CAPTURE_SAMPLE stops,
alone and inside the header classes `TCP` and `UDP`. -/
def Obligations.CaptureSampleStopsBelowOffset34 : Prop := ∀ s : State, s.len < 34 →
  exec .captureSample s = .fault .offsetAbsent ∧
  (∀ (sp dp : BitVec 16) (sq ak : BitVec 32) (df : BitVec 4) (fl : BitVec 6) (wi ck up : BitVec 16),
    exec (.tcp sp dp sq ak df fl wi ck up) s =
      if s.len < s.cur + 20 then .next (raiseTruncated .tcp s) else .fault .offsetAbsent) ∧
  (∀ sp dp ln ck : BitVec 16,
    exec (.udp sp dp ln ck) s =
      if s.len < s.cur + 8 then .next (raiseTruncated .udp s) else .fault .offsetAbsent)

/-! ## The views (R25, R26) -/

/-- R25: every view is its slice, for every value of the register; R26: the precedence register reads 0. -/
def Obligations.ViewsAreRegisterSlices : Prop :=
  (∀ w : BitVec 16, ipRsv w = w.extractLsb' 15 1 ∧ ipDf w = w.extractLsb' 14 1 ∧
    ipMf w = w.extractLsb' 13 1 ∧ ipFragOff w = w.extractLsb' 0 13) ∧
  (∀ t : BitVec 8, ipTosD t = t.extractLsb' 4 1 ∧ ipTosT t = t.extractLsb' 3 1 ∧
    ipTosR t = t.extractLsb' 2 1) ∧
  (∀ f : BitVec 6, tcpUrg f = f.extractLsb' 5 1 ∧ tcpAckf f = f.extractLsb' 4 1 ∧
    tcpPsh f = f.extractLsb' 3 1 ∧ tcpRst f = f.extractLsb' 2 1 ∧ tcpSyn f = f.extractLsb' 1 1 ∧
    tcpFin f = f.extractLsb' 0 1) ∧
  (∀ d : Record, ipPrec d = 0)

/-! ## The header classes as instructions (R80 to R86; the header-by-header mode is log entry 3) -/

/-- `ETH` and `IPV4`: the fields are written, the cursor advances by the header's length, and the next header
class follows; short frames take TruncatedInput. -/
def Obligations.EthAndIpv4ClassesContinueChain : Prop :=
  (∀ (dst src : BitVec 48) (y : BitVec 16) (s : State),
    exec (.eth dst src y) s = .next (if s.len < s.cur + 14 then raiseTruncated .eth s
      else { s with
        df := { s.df with ethDst := some dst, ethSrc := some src, ethType := some y, ethValid := true }
        cur := s.cur + 14
        pending := .header })) ∧
  (∀ (ver hw : BitVec 4) (tos : BitVec 8) (tl id ff : BitVec 16) (ttl p : BitVec 8) (ck : BitVec 16)
      (src dst : BitVec 32) (s : State),
    exec (.ipv4 ver hw tos tl id ff ttl p ck src dst) s =
      .next (if s.len < s.cur + 20 then raiseTruncated .ipv4 s
        else { s with
          df := { s.df with
            ipVersion := some ver, ipHlen := some (hw.setWidth 6 * 4), ipTos := some tos,
            ipTotalLen := some tl, ipId := some id, ipFlagsFrag := some ff, ipTtl := some ttl,
            ipProto := some p, ipCksum := some ck, ipSrc := some src, ipDst := some dst, ipValid := true }
          cur := s.cur + 20
          pending := .header }))

/-- `ICMP`, `TCP` and `UDP`: the fields are written, TCP and UDP capture the sample, and DECODE finishes. -/
def Obligations.TransportClassesFinishDecode : Prop :=
  (∀ (ty co : BitVec 8) (ck : BitVec 16) (s : State),
    exec (.icmp ty co ck) s = .next (if s.len < s.cur + 4 then raiseTruncated .icmp s
      else { s with
        df := { s.df with
          icmpType := some ty, icmpCode := some co, icmpCksum := some ck, tag := .icmp,
          frameSize := some s.len }
        cur := s.cur + 4
        status := .ok
        pending := .idle })) ∧
  (∀ (sp dp : BitVec 16) (sq ak : BitVec 32) (df : BitVec 4) (fl : BitVec 6) (wi ck up : BitVec 16) (s : State),
    34 ≤ s.len → exec (.tcp sp dp sq ak df fl wi ck up) s =
      .next (if s.len < s.cur + 20 then raiseTruncated .tcp s
        else { s with
          df := { s.df with
            tcpSport := some sp, tcpDport := some dp, tcpSeq := some sq, tcpAck := some ak,
            tcpDoff := some df, tcpFlags := some fl, tcpWindow := some wi, tcpCksum := some ck,
            tcpUrgptr := some up, tag := .tcp, sample := s.bytesAt 34 (min 64 (s.len - 34)),
            sampleLen := BitVec.ofNat 7 (min 64 (s.len - 34)), frameSize := some s.len }
          cur := 34 + min 64 (s.len - 34)
          status := .ok
          pending := .idle })) ∧
  (∀ (sp dp ln ck : BitVec 16) (s : State), 34 ≤ s.len →
    exec (.udp sp dp ln ck) s = .next (if s.len < s.cur + 8 then raiseTruncated .udp s
      else { s with
        df := { s.df with
          udpSport := some sp, udpDport := some dp, udpLen := some ln, udpCksum := some ck, tag := .udp,
          sample := s.bytesAt 34 (min 64 (s.len - 34)),
          sampleLen := BitVec.ofNat 7 (min 64 (s.len - 34)), frameSize := some s.len }
        cur := 34 + min 64 (s.len - 34)
        status := .ok
        pending := .idle }))

/-- `ETH_ONLY` and `IP_UNKNOWN` read no byte, never fail, and DECODE finishes (R94, R95). -/
def Obligations.DefaultClassesFinishDecode : Prop := ∀ s : State,
  exec .ethOnly s = .next { s with
    df := { s.df with frameSize := some s.len }, status := .ok, pending := .idle } ∧
  exec .ipUnknown s = .next { s with
    df := { s.df with tag := .unknown, diag := true, frameSize := some s.len }
    status := .ok
    pending := .idle }

/-! ## Decoding header classes (R82 to R93) -/

/-- Decode and encode agree: a frame that starts with the encoding of a header class, whatever follows, decodes
to that class with those fields; and every header class has an encoding, and no operation has one. -/
def Obligations.DecodeEncodeRoundTrip : Prop :=
  (∀ (i : Instr) (b rest : List Byte), encode i = some b → decodeAt i.hdrOffset (b ++ rest) = .instr i) ∧
  (∀ i : Instr, (encode i).isSome = match i with
    | .eth .. | .ipv4 .. | .icmp .. | .tcp .. | .udp .. | .ethOnly | .ipUnknown => true
    | _ => false)

/-- R90 to R93: the class at each cursor position of the frame, in the order of the tests, with the fields of
its table row at their offsets; at any other position no class begins. -/
def Obligations.FetchFollowsDispatchMap : Prop := ∀ s : State,
  (s.cur = 0 → s.fetch =
    if s.len < 14 then .rejected (.truncated .eth)
    else .instr (.eth (s.macAt 0) (s.macAt 6) (s.halfAt 12))) ∧
  (s.cur = 14 → 14 ≤ s.len → s.fetch =
    if s.halfAt 12 ≠ 0x0800 then .instr .ethOnly
    else if s.len < 34 then .rejected (.truncated .ipv4)
    else .instr (.ipv4 ((s.byteAt 14).extractLsb' 4 4) ((s.byteAt 14).extractLsb' 0 4) (s.byteAt 15)
      (s.halfAt 16) (s.halfAt 18) (s.halfAt 20) (s.byteAt 22) (s.byteAt 23) (s.halfAt 24) (s.wordAt 26)
      (s.wordAt 30))) ∧
  (s.cur = 34 → 34 ≤ s.len → s.halfAt 12 = 0x0800 → s.fetch =
    if s.byteAt 23 = 1 then
      if s.len < 38 then .rejected (.truncated .icmp)
      else .instr (.icmp (s.byteAt 34) (s.byteAt 35) (s.halfAt 36))
    else if s.byteAt 23 = 6 then
      if s.len < 54 then .rejected (.truncated .tcp)
      else .instr (.tcp (s.halfAt 34) (s.halfAt 36) (s.wordAt 38) (s.wordAt 42)
        ((s.byteAt 46).extractLsb' 4 4) ((s.byteAt 47).extractLsb' 0 6) (s.halfAt 48) (s.halfAt 50)
        (s.halfAt 52))
    else if s.byteAt 23 = 17 then
      if s.len < 42 then .rejected (.truncated .udp)
      else .instr (.udp (s.halfAt 34) (s.halfAt 36) (s.halfAt 38) (s.halfAt 40))
    else .instr .ipUnknown) ∧
  (s.cur ≠ 0 → s.cur ≠ 14 → s.cur ≠ 34 → s.fetch = .rejected .noHeaderAt)

/-- Table words written out from the rows of spec/opcode_table.json (R92): byte i of the frame in bits
8i+7..8i. -/
def Obligations.TableWordsDecode : Prop :=
  decodeTableWord 192 0 = some (.eth 0 0 0) ∧
    decodeTableWord 192 (0x08 * 2 ^ 96) = some (.ipv4 0 0 0 0 0 0 0 0 0 0 0) ∧
    decodeTableWord 192 (0x08 * 2 ^ 96 + 0x01 * 2 ^ 184) = some (.icmp 0 0 0) ∧
    decodeTableWord 192 (0x08 * 2 ^ 96 + 0x06 * 2 ^ 184) = some (.tcp 0 0 0 0 0 0 0 0 0) ∧
    decodeTableWord 192 (0x08 * 2 ^ 96 + 0x11 * 2 ^ 184) = some (.udp 0 0 0 0) ∧
    decodeTableWord 192 (0x08 * 2 ^ 96 + 0x45 * 2 ^ 112 + 0x40 * 2 ^ 160) =
      some (.ipv4 4 5 0 0 0 0x4000 0 0 0 0 0)

/-! ## The step -/

/-- A started operation with operands in range runs as one step; out of range it is refused (log 10). -/
def Obligations.StepRunsStartedOperation : Prop := ∀ (i : Instr) (s : State), s.pending = .op i →
  step s = if i.wf then exec i { s with pending := .idle } else .refused .illFormed

/-- When the frame at the cursor decodes to a header class, the step runs that class; when the frame is too short
for the class the step takes TruncatedInput; where no class begins it refuses (log 3). -/
def Obligations.StepRunsFetchedHeader : Prop := ∀ s : State, s.pending = .header →
  (∀ i : Instr, decodeAt s.cur s.visibleFrame = .instr i → step s = exec i s) ∧
  (∀ h : Hdr, decodeAt s.cur s.visibleFrame = .rejected (.truncated h) → step s = .next (raiseTruncated h s)) ∧
  (decodeAt s.cur s.visibleFrame = .rejected .noHeaderAt → step s = .refused .noHeaderAt)

/-- R225: between transactions no state changes with time alone. -/
def Obligations.IdleUnitHoldsItsState : Prop := ∀ s : State, s.pending = .idle → step s = .next s

/-- The header-by-header run is the model's choice (log 3); R223 knows DECODE as one atomic step only. From its start
the chain of at most three header classes ends in the state that this one step gives. -/
def Obligations.HeaderChainEqualsDecode : Prop := ∀ s : State,
  Host.Core.run Sys2Proof.core 3 s.startHeaders = exec .decode s

/-! ## DECODE (R139 to R141) -/

/-- R140: the outcome of DECODE as a function of the frame, decided by the first line whose condition holds; with
the record that R131 to R137 write and the whole state that R139 leaves. -/
def Obligations.DecodeOutcomeTable : Prop := ∀ s : State,
  exec .decode s = .next (
    if s.len < 14 then s.truncatedAs .eth 0
    else if s.halfAt 12 ≠ 0x0800 then s.decodedAs s.ethRecord 14
    else if s.len < 34 then s.truncatedAs .ipv4 14
    else if s.byteAt 23 = 1 then
      if s.len < 38 then s.truncatedAs .icmp 34
      else s.decodedAs (s.icmpFields 34 s.ipRecord) 38
    else if s.byteAt 23 = 6 then
      if s.len < 54 then s.truncatedAs .tcp 34
      else s.decodedAs (s.sampleFields (s.tcpFields 34 s.ipRecord)) (34 + min 64 (s.len - 34))
    else if s.byteAt 23 = 17 then
      if s.len < 42 then s.truncatedAs .udp 34
      else s.decodedAs (s.sampleFields (s.udpFields 34 s.ipRecord)) (34 + min 64 (s.len - 34))
    else s.decodedAs { s.ipRecord with tag := .unknown, diag := true } 34)

/-- R45: what holds after every DECODE and every RUN. -/
def Obligations.TransactionLeavesCoherentRecord : Prop := ∀ (i : Instr) (s : State),
  i = .decode ∨ i = .run → ∃ t : State, exec i s = .next t ∧
    ((t.status = .ok ∧ t.errHdr = none ∧ t.df.complete s.len) ∨
      (t.status = .truncated ∧ t.errHdr ≠ none ∧ t.df = Record.empty ∧ t.df.ethValid = false ∧
        t.df.ipValid = false ∧ t.df.tag = .none ∧ t.df.diag = false ∧ t.df.sampleLen = 0 ∧ t.nLines = 0))

/-- R141: two frames that agree in `LEN` and in their first `min(LEN, 98)` bytes decode alike, whatever the rest
of the two states holds. -/
def Obligations.DecodeDependsOnVisibleBytesOnly : Prop := ∀ s s' : State, s.len = s'.len →
  (∀ a < min s.len 98, s.byteAt a = s'.byteAt a) → ∃ t t' : State,
    exec .decode s = .next t ∧ exec .decode s' = .next t' ∧ t.status = t'.status ∧ t.errHdr = t'.errHdr ∧
      t.df = t'.df ∧ t.lines = [] ∧ t'.lines = [] ∧ t.cur = t'.cur

/-- R14, R22: no instruction writes the frame or its length. -/
def Obligations.FrameIsNeverWritten : Prop := ∀ (i : Instr) (s t : State), exec i s = .next t →
  (∀ a : Nat, t.byteAt a = s.byteAt a) ∧ t.frame = s.frame ∧ t.len = s.len

/-! ## The formatting operations (R150 to R162): each changes the returned value and nothing else -/

/-- R150, R151: two lowercase digits for each byte, the high nibble first, the bytes in order. -/
def Obligations.Hex2AndHexbytesGiveDigits : Prop :=
  (∀ (b : Byte) (s : State), ∃ x y : Char,
    exec (.hex2 b) s = .next { s with ret := .text [x, y] } ∧ isHexDigit (b.toNat / 16) x ∧
      isHexDigit (b.toNat % 16) y) ∧
  (∀ (b : List Byte) (s : State), ∃ t : Text,
    exec (.hexbytes b) s = .next { s with ret := .text t } ∧ t.length = 2 + 2 * b.length ∧
      t.take 2 = txt "0x" ∧
      ∀ (i : Nat) (v : Byte), b[i]? = some v → ∃ x y : Char, t[2 + 2 * i]? = some x ∧
        t[3 + 2 * i]? = some y ∧ isHexDigit (v.toNat / 16) x ∧ isHexDigit (v.toNat % 16) y)

/-- R152, R16: decimal digits of value `v`, never a leading zero; `DEC(0)` is `0` alone. -/
def Obligations.DecGivesDecimalNumeral : Prop := ∀ (v : Nat) (s : State), ∃ t : Text,
  exec (.dec v) s = .next { s with ret := .text t } ∧ isDecimal v t

/-- R153: six groups of two digits joined by colons, the first byte first, 17 characters. R154: four decimal
groups joined by periods, the first byte first, 7 to 15 characters. -/
def Obligations.AddressFormatsJoinGroups : Prop :=
  (∀ (a b c d e f : Byte) (s : State), ∃ t : Text,
    exec (.fmtMac (a ++ b ++ c ++ d ++ e ++ f)) s = .next { s with ret := .text t } ∧ t.length = 17 ∧
      t = hex2Of a ++ txt ":" ++ hex2Of b ++ txt ":" ++ hex2Of c ++ txt ":" ++ hex2Of d ++ txt ":" ++
        hex2Of e ++ txt ":" ++ hex2Of f) ∧
  (∀ (a b c d : Byte) (s : State), ∃ t : Text,
    exec (.fmtIp4 (a ++ b ++ c ++ d)) s = .next { s with ret := .text t } ∧ 7 ≤ t.length ∧ t.length ≤ 15 ∧
      t = decOf a.toNat ++ txt "." ++ decOf b.toNat ++ txt "." ++ decOf c.toNat ++ txt "." ++ decOf d.toNat)

/-- R155, R156: the five prefixes, and the lines that LINE and BLANK emit. -/
def Obligations.PrefixLineAndBlank : Prop := ∀ (g : SecTag) (c : Text) (s : State), ∃ p : Text,
  exec (.tagPrefix g) s = .next { s with ret := .text p } ∧ p.length = 8 ∧
    p = (match g with
      | .ether => txt "ETHER:  "
      | .ip => txt "IP:     "
      | .icmp => txt "ICMP:   "
      | .tcp => txt "TCP:    "
      | .udp => txt "UDP:    ") ∧
    exec (.line g c) s = .next { s with lines := s.lines ++ [p ++ c] } ∧
    exec (.blank g) s = .next { s with lines := s.lines ++ [p] }

/-- R157, R159, R160. -/
def Obligations.KvAnnotAndFlaglabel : Prop := ∀ (x y : Text) (b : BitVec 1) (s : State),
  exec (.kv x y) s = .next { s with ret := .text (x ++ txt " = " ++ y) } ∧
    exec (.annot x y) s = .next { s with ret := .text (txt "      " ++ x ++ txt " = " ++ y) } ∧
    exec (.flaglabel x b) s = .next { s with ret := .text (if b = 1 then x else txt "No " ++ x) }

/-- R158: position `pos` shows the bit, every other position a period, and a space stands between the nibbles. -/
def Obligations.Mask8ShowsOneBit : Prop := ∀ (pos : Fin 8) (b : BitVec 1) (s : State), ∃ t : Text,
  exec (.mask8 pos b) s = .next { s with ret := .text t } ∧ t.length = 9 ∧ t[4]? = some ' ' ∧
    ∀ p < 8, t[if 4 ≤ p then 7 - p else 8 - p]? =
      some (if p = pos.val then (if b = 1 then '1' else '0') else '.')

/-- R161: the columns of a dump row. -/
def Obligations.DumpRowColumns : Prop := ∀ (b : List Byte) (s : State), 1 ≤ b.length → b.length ≤ 16 →
  ∃ t : Text, exec (.dumpRow b) s = .next { s with ret := .text t } ∧ t.length = 56 ∧
    (∀ (i : Nat) (v : Byte), b[i]? = some v → ∃ x y : Char,
      t[2 * i + i / 2]? = some x ∧ t[2 * i + i / 2 + 1]? = some y ∧ isHexDigit (v.toNat / 16) x ∧
        isHexDigit (v.toNat % 16) y ∧ t[40 + i]? = some (asciiChOf v)) ∧
    (∀ i < 16, b.length ≤ i → t[2 * i + i / 2]? = some ' ' ∧ t[2 * i + i / 2 + 1]? = some ' ' ∧
      t[40 + i]? = some '.') ∧
    (∀ k < 8, t[5 * k + 4]? = some ' ')

/-- R162. -/
def Obligations.AsciiChMapsToPrintable : Prop := ∀ (b : Byte) (s : State), ∃ c : Char,
  exec (.asciiCh b) s = .next { s with ret := .text [c] } ∧
    if 0x20 ≤ b.toNat ∧ b.toNat ≤ 0x7E then c.toNat = b.toNat else c = '.'

/-- R163: `ceil(n / 16)` rows, each of at most 16 consecutive bytes, with the tag's prefix. -/
def Obligations.DumpEmitsRows : Prop := ∀ (g : SecTag) (b : List Byte) (s : State), b.length ≤ 64 →
  ∃ ls : List Text, exec (.dump g b) s = .next { s with lines := s.lines ++ ls } ∧
    ls.length = (b.length + 15) / 16 ∧
    ∀ k < (b.length + 15) / 16, ∃ row : Text, ls[k]? = some (prefixOf g ++ row) ∧
      exec (.dumpRow ((b.drop (16 * k)).take 16)) s = .next { s with ret := .text row }

/-! ## The report sections (R173 to R180): what each appends to the lines, and nothing else changes -/

/-- R173. -/
def Obligations.RenderEtherLines : Prop := ∀ (s : State) (n : Nat) (d c : BitVec 48) (y : BitVec 16),
  s.df.frameSize = some n → s.df.ethDst = some d → s.df.ethSrc = some c → s.df.ethType = some y →
    exec .renderEther s = .next { s with lines := s.lines ++ [
      txt "ETHER:  ----- Ether Header -----",
      txt "ETHER:  ",
      txt "ETHER:  Packet size = " ++ decOf n ++ txt " bytes",
      txt "ETHER:  Destination = " ++ fmtMacOf d,
      txt "ETHER:  Source = " ++ fmtMacOf c,
      txt "ETHER:  Ethertype = " ++ hex16 y ++ (if y = 0x0800 then txt " (IP)" else []),
      txt "ETHER:  "] }

/-- R174. -/
def Obligations.RenderIpLines : Prop := ∀ (s : State) (ver : BitVec 4) (hl : BitVec 6) (tos : BitVec 8)
    (tl id w : BitVec 16) (ttl p : BitVec 8) (ck : BitVec 16) (src dst : BitVec 32),
  s.df.ipVersion = some ver → s.df.ipHlen = some hl → s.df.ipTos = some tos → s.df.ipTotalLen = some tl →
  s.df.ipId = some id → s.df.ipFlagsFrag = some w → s.df.ipTtl = some ttl → s.df.ipProto = some p →
  s.df.ipCksum = some ck → s.df.ipSrc = some src → s.df.ipDst = some dst →
    exec .renderIp s = .next { s with lines := s.lines ++ [
      txt "IP:     ----- IP Header -----",
      txt "IP:     ",
      txt "IP:     Version = " ++ decOf ver.toNat,
      txt "IP:     Header length = " ++ decOf hl.toNat ++ txt " bytes",
      txt "IP:     Type of service = 0x" ++ hex2Of tos,
      txt "IP:           xxx. .... = 0 (precedence)",
      (if tos.getLsbD 4 then txt "IP:           ...1 .... = low delay"
        else txt "IP:           ...0 .... = normal delay"),
      (if tos.getLsbD 3 then txt "IP:           .... 1... = high throughput"
        else txt "IP:           .... 0... = normal throughput"),
      (if tos.getLsbD 2 then txt "IP:           .... .1.. = high reliability"
        else txt "IP:           .... .0.. = normal reliability"),
      txt "IP:     Total length = " ++ decOf tl.toNat ++ txt " bytes",
      txt "IP:     Identification = " ++ decOf id.toNat,
      txt "IP:     Flags = 0x" ++ hex2Of (w.extractLsb' 8 8 &&& 0xe0),
      (if w.getLsbD 14 then txt "IP:           .1.. .... = do not fragment"
        else txt "IP:           .0.. .... = OK to fragment"),
      (if w.getLsbD 13 then txt "IP:           ..1. .... = more fragments"
        else txt "IP:           ..0. .... = last fragment"),
      txt "IP:     Fragment offset = " ++ decOf (8 * (w.toNat % 8192)) ++ txt " bytes",
      txt "IP:     Time to live = " ++ decOf ttl.toNat ++ txt " seconds/hops",
      txt "IP:     Protocol = " ++ decOf p.toNat ++ (if p = 1 then txt " (ICMP)" else
        if p = 6 then txt " (TCP)" else if p = 17 then txt " (UDP)" else []),
      txt "IP:     Header checksum = " ++ hex16 ck,
      txt "IP:     Source address = " ++ fmtIp4Of src,
      txt "IP:     Destination address = " ++ fmtIp4Of dst,
      txt "IP:     "] }

/-- R175. -/
def Obligations.IpflagsByteKeepsTopThreeBits : Prop := ∀ (s : State) (w : BitVec 16),
  s.df.ipFlagsFrag = some w → ∃ n : Nat,
    exec .ipflagsByte s = .next { s with ret := .num n } ∧
      n = (ipRsv w).toNat * 128 + (ipDf w).toNat * 64 + (ipMf w).toNat * 32 ∧
      n = (w.extractLsb' 8 8 &&& 0xe0).toNat

/-- R176, R177. -/
def Obligations.RenderDiagAndIcmpLines : Prop :=
  (∀ (s : State) (p : BitVec 8), s.df.ipProto = some p →
    exec .renderDiag s = .next { s with lines := s.lines ++ [
      txt "IP:     Unsupported protocol = " ++ decOf p.toNat] }) ∧
  (∀ (s : State) (ty co : BitVec 8) (ck : BitVec 16), s.df.icmpType = some ty → s.df.icmpCode = some co →
    s.df.icmpCksum = some ck →
    exec .renderIcmp s = .next { s with lines := s.lines ++ [
      txt "ICMP:   ----- ICMP Header -----",
      txt "ICMP:   ",
      txt "ICMP:   Type = " ++ decOf ty.toNat,
      txt "ICMP:   Code = " ++ decOf co.toNat,
      txt "ICMP:   Checksum = " ++ hex16 ck,
      txt "ICMP:   "] })

/-- R180. -/
def Obligations.RenderDataLines : Prop := ∀ (g : SecTag) (s : State),
  s.df.sample.length = s.df.sampleLen.toNat →
    exec (.renderData g) s = .next { s with lines := s.lines ++ (
      [prefixOf g ++ txt "Data: (first " ++ decOf s.df.sampleLen.toNat ++ txt " bytes)"] ++
      dumpLines g s.df.sample ++ [prefixOf g]) }

/-- R178. -/
def Obligations.RenderTcpLines : Prop := ∀ (s : State) (sp dp : BitVec 16) (sq ak : BitVec 32) (df : BitVec 4)
    (fl : BitVec 6) (wi ck up : BitVec 16),
  s.df.tcpSport = some sp → s.df.tcpDport = some dp → s.df.tcpSeq = some sq → s.df.tcpAck = some ak →
  s.df.tcpDoff = some df → s.df.tcpFlags = some fl → s.df.tcpWindow = some wi → s.df.tcpCksum = some ck →
  s.df.tcpUrgptr = some up → s.df.sample.length = s.df.sampleLen.toNat →
    exec .renderTcp s = .next { s with lines := s.lines ++ ([
      txt "TCP:    ----- TCP Header -----",
      txt "TCP:    ",
      txt "TCP:    Source port = " ++ decOf sp.toNat,
      txt "TCP:    Destination port = " ++ decOf dp.toNat,
      txt "TCP:    Sequence number = " ++ decOf sq.toNat,
      txt "TCP:    Acknowledgement number = " ++ decOf ak.toNat,
      txt "TCP:    Data offset = " ++ decOf (4 * df.toNat) ++ txt " bytes",
      txt "TCP:    Flags = 0x" ++ hex2Of (fl.setWidth 8),
      (if fl.getLsbD 5 then txt "TCP:          ..1. .... = Urgent"
        else txt "TCP:          ..0. .... = No Urgent"),
      (if fl.getLsbD 4 then txt "TCP:          ...1 .... = Ack" else txt "TCP:          ...0 .... = No Ack"),
      (if fl.getLsbD 3 then txt "TCP:          .... 1... = Push" else txt "TCP:          .... 0... = No Push"),
      (if fl.getLsbD 2 then txt "TCP:          .... .1.. = Reset"
        else txt "TCP:          .... .0.. = No Reset"),
      (if fl.getLsbD 1 then txt "TCP:          .... ..1. = Syn" else txt "TCP:          .... ..0. = No Syn"),
      (if fl.getLsbD 0 then txt "TCP:          .... ...1 = Fin" else txt "TCP:          .... ...0 = No Fin"),
      txt "TCP:    Window = " ++ decOf wi.toNat,
      txt "TCP:    Checksum = " ++ hex16 ck,
      txt "TCP:    Urgent pointer = " ++ decOf up.toNat,
      txt "TCP:    ",
      txt "TCP:    Data: (first " ++ decOf s.df.sampleLen.toNat ++ txt " bytes)"] ++
      dumpLines .tcp s.df.sample ++ [txt "TCP:    "]) }

/-- R179. -/
def Obligations.RenderUdpLines : Prop := ∀ (s : State) (sp dp ln ck : BitVec 16),
  s.df.udpSport = some sp → s.df.udpDport = some dp → s.df.udpLen = some ln → s.df.udpCksum = some ck →
  s.df.sample.length = s.df.sampleLen.toNat →
    exec .renderUdp s = .next { s with lines := s.lines ++ ([
      txt "UDP:    ----- UDP Header -----",
      txt "UDP:    ",
      txt "UDP:    Source port = " ++ decOf sp.toNat,
      txt "UDP:    Destination port = " ++ decOf dp.toNat,
      txt "UDP:    Length = " ++ decOf ln.toNat,
      txt "UDP:    Checksum = " ++ hex16 ck,
      txt "UDP:    ",
      txt "UDP:    Data: (first " ++ decOf s.df.sampleLen.toNat ++ txt " bytes)"] ++
      dumpLines .udp s.df.sample ++ [txt "UDP:    "]) }

/-- R24, R220 (the refusal is log entry 8): an operation that meets a register outside its valid condition is
refused by name and reads no value. -/
def Obligations.SectionWithoutValueIsRefused : Prop := ∀ s : State,
  (s.df.frameSize = none ∨ s.df.ethDst = none ∨ s.df.ethSrc = none ∨ s.df.ethType = none →
    ∃ r : Reg, exec .renderEther s = .refused (.noValue r)) ∧
  (s.df.ipVersion = none ∨ s.df.ipHlen = none ∨ s.df.ipTos = none ∨ s.df.ipTotalLen = none ∨
      s.df.ipId = none ∨ s.df.ipFlagsFrag = none ∨ s.df.ipTtl = none ∨ s.df.ipProto = none ∨
      s.df.ipCksum = none ∨ s.df.ipSrc = none ∨ s.df.ipDst = none →
    ∃ r : Reg, exec .renderIp s = .refused (.noValue r)) ∧
  (s.df.ipProto = none → exec .renderDiag s = .refused (.noValue .ipProto)) ∧
  (s.df.ipFlagsFrag = none → exec .ipflagsByte s = .refused (.noValue .ipFlagsFrag)) ∧
  (s.df.icmpType = none ∨ s.df.icmpCode = none ∨ s.df.icmpCksum = none →
    ∃ r : Reg, exec .renderIcmp s = .refused (.noValue r)) ∧
  (s.df.tcpSport = none ∨ s.df.tcpDport = none ∨ s.df.tcpSeq = none ∨ s.df.tcpAck = none ∨
      s.df.tcpDoff = none ∨ s.df.tcpFlags = none ∨ s.df.tcpWindow = none ∨ s.df.tcpCksum = none ∨
      s.df.tcpUrgptr = none ∨ s.df.sample.length < s.df.sampleLen.toNat →
    ∃ r : Reg, exec .renderTcp s = .refused (.noValue r)) ∧
  (s.df.udpSport = none ∨ s.df.udpDport = none ∨ s.df.udpLen = none ∨ s.df.udpCksum = none ∨
      s.df.sample.length < s.df.sampleLen.toNat →
    ∃ r : Reg, exec .renderUdp s = .refused (.noValue r)) ∧
  (s.df.sample.length < s.df.sampleLen.toNat →
    ∀ g : SecTag, exec (.renderData g) s = .refused (.noValue .sample))

/-- R61, R156, R164: a Renderer's operation appends report lines and changes nothing else, and no line once
emitted is altered. -/
def Obligations.RendererOnlyAppendsReportLines : Prop := ∀ (i : Instr) (s t : State),
  (i = .renderEther ∨ i = .renderIp ∨ i = .renderDiag ∨ i = .renderIcmp ∨ i = .renderTcp ∨ i = .renderUdp ∨
    (∃ g, i = .renderData g) ∨ (∃ g, i = .blank g) ∨ (∃ g b, i = .dump g b) ∨
    (∃ g c, i = .line g c ∧ Text.printable c = true)) →
  exec i s = .next t →
    ∃ ls : List Text, t = { s with lines := s.lines ++ ls } ∧ ∀ l ∈ ls, isReportLine l

/-! ## RENDER and RUN (R171, R181 to R184) -/

/-- R182: without a record RENDER does nothing; with one it empties the lines and runs the sections that R171
lists, in order; and RENDER twice on the same record gives the same lines both times. -/
def Obligations.RenderRunsSectionsOfRecord : Prop :=
  (∀ s : State,
    exec .render s = if s.status = .ok then execSeq s.df.sections { s with lines := [] } else .next s) ∧
  (∀ s t : State, exec .render s = .next t → exec .render t = .next t)

/-- R181, R182: on the record of a successful DECODE, RENDER completes, writes the lines only, and their number
is that of the table. -/
def Obligations.RenderCompletesWithLineCount : Prop := ∀ (s : State) (n : Nat), s.status = .ok →
  s.df.complete n → ∃ ls : List Text, exec .render s = .next { s with lines := ls } ∧
    ls.length = s.df.reportLength ∧ ls.length ≤ 52 ∧ ∀ l ∈ ls, isReportLine l

/-- R181: no line is longer than 64 characters. The spec leaves the width of `LEN` open (log 5); the bound holds
for every length of at most 36 decimal digits. -/
def Obligations.LinesHaveAtMost64Characters : Prop := ∀ s t : State, s.len < 10 ^ 36 →
  exec .run s = .next t → ∀ l ∈ t.lines, l.length ≤ 64

/-- R183: RUN is DECODE and then RENDER, and it always completes: either the status is OK and the lines are the
report, or the status is TRUNCATED and there is no line. -/
def Obligations.RunIsDecodeThenRender : Prop := ∀ s : State, ∃ t u : State,
  exec .decode s = .next t ∧ exec .render t = .next u ∧ exec .run s = .next u ∧ u.df = t.df ∧
    ((u.status = .ok ∧ u.nLines = u.df.reportLength) ∨ (u.status = .truncated ∧ u.lines = []))

/-- R184, R213: the status, the record and the report of RUN are a function of `LEN` and of the first
`min(LEN, 98)` bytes of the frame, whatever ran before. -/
def Obligations.RunDependsOnVisibleBytesOnly : Prop := ∀ s s' : State, s.len = s'.len →
  (∀ a < min s.len 98, s.byteAt a = s'.byteAt a) → ∃ t t' : State,
    exec .run s = .next t ∧ exec .run s' = .next t' ∧ t.status = t'.status ∧ t.errHdr = t'.errHdr ∧
      t.df = t'.df ∧ t.lines = t'.lines

/-! ## The invariant -/

/-- The invariant holds at reset. -/
def Obligations.InvariantHoldsAtReset : Prop := State.reset.invariant

/-- The invariant is kept by every step, and by what the host may do between transactions: place a frame and start
a transaction (R183, R214) or RESET (R210). That a DECODE may also run header by header (`startHeaders`, the states
in the middle of a chain) is the model's choice, log 3: the spec's host starts no such run. -/
def Obligations.StepKeepsInvariant : Prop :=
  (∀ s t : State, s.invariant → step s = .next t → t.invariant) ∧
  (∀ (s : State) (b : List Byte) (i : Instr), s.invariant → s.pending = .idle → i.hostStarted = true →
    ((s.placeFrame b).start i).invariant ∧ (s.placeFrame b).startHeaders.invariant)

/-- A step from a state of the invariant neither faults nor is refused: only started operations that the host
may not start can stop. The header-by-header states among them are the model's choice (log 3). -/
def Obligations.StepUnderInvariantNeverStops : Prop := ∀ s : State, s.invariant → s.stepsSafely

end
end

