-- ==== Sys2Proof/Laws/Memory.lean ====
section
/-! SUPPORT. The frame buffer: read after write, the canonical form is kept by every operation, and reading a
run of bytes. -/

namespace Sys2Proof.Machine

theorem Memory.wfFrom_mono {m : Memory} : ∀ {lo hi : Nat}, lo ≤ hi → Memory.wfFrom hi m = true →
    Memory.wfFrom lo m = true := by
  cases m with
  | nil => intros; rfl
  | cons c m =>
    intro lo hi h hm
    simp only [Memory.wfFrom, Bool.and_eq_true, decide_eq_true_eq] at hm ⊢
    exact ⟨⟨by omega, hm.1.2⟩, hm.2⟩

theorem Memory.read_below {m : Memory} : ∀ {lo a : Nat}, Memory.wfFrom lo m = true → a < lo →
    Memory.read m a = 0 := by
  induction m with
  | nil => intros; rfl
  | cons c m ih =>
    intro lo a hm ha
    simp only [Memory.wfFrom, Bool.and_eq_true, decide_eq_true_eq] at hm
    have h : c.1 ≠ a := by omega
    simp only [Memory.read, h, if_false]
    exact ih hm.2 (by omega)

/-- A read after a write to the same offset gives the value written; any other offset reads as before. -/
theorem Memory.read_write {m : Memory} : ∀ {lo : Nat}, Memory.wfFrom lo m = true → ∀ (a k : Nat) (b : Byte),
    Memory.read (Memory.write m a b) k = if k = a then b else Memory.read m k := by
  induction m with
  | nil =>
    intro lo _ a k b
    unfold Memory.write
    split
    · subst_vars; simp [Memory.read]
    · simp only [Memory.read, eq_comm]
  | cons c m ih =>
    intro lo hm a k b
    have hm' := hm
    simp only [Memory.wfFrom, Bool.and_eq_true, decide_eq_true_eq] at hm
    unfold Memory.write
    by_cases h1 : a < c.1
    · simp only [h1, if_true]
      by_cases hb : b = 0
      · simp only [hb, if_true]
        by_cases hk : k = a
        · subst hk
          simp only [if_true, Memory.read, show c.1 ≠ k by omega, if_false]
          exact Memory.read_below hm.2 (by omega)
        · simp [hk]
      · simp only [hb, if_false]
        by_cases hk : k = a
        · simp [hk, Memory.read]
        · simp only [hk, if_false]
          rw [Memory.read]
          simp [Ne.symm hk]
    · simp only [h1, if_false]
      by_cases h2 : a = c.1
      · simp only [h2, if_true]
        by_cases hb : b = 0
        · simp only [hb, if_true]
          by_cases hk : k = c.1
          · subst hk
            simp only [if_true]
            exact Memory.read_below hm.2 (by omega)
          · simp [hk, Memory.read, Ne.symm hk]
        · simp only [hb, if_false]
          by_cases hk : k = c.1
          · simp [hk, Memory.read]
          · simp [hk, Memory.read, Ne.symm hk]
      · simp only [h2, if_false]
        by_cases hk : c.1 = k
        · subst hk
          simp [Memory.read, Ne.symm h2]
        · simp only [Memory.read, hk, if_false]
          exact ih hm.2 a k b

theorem Memory.wfFrom_write {m : Memory} : ∀ {lo : Nat}, Memory.wfFrom lo m = true → ∀ (a : Nat) (b : Byte),
    lo ≤ a → Memory.wfFrom lo (Memory.write m a b) = true := by
  induction m with
  | nil =>
    intro lo _ a b ha
    unfold Memory.write
    split
    · rfl
    · rename_i hb
      simpa [Memory.wfFrom, ha] using hb
  | cons c m ih =>
    intro lo hm a b ha
    have hm' := hm
    simp only [Memory.wfFrom, Bool.and_eq_true, decide_eq_true_eq] at hm
    unfold Memory.write
    by_cases h1 : a < c.1
    · simp only [h1, if_true]
      by_cases hb : b = 0
      · simpa [hb] using hm'
      · simp only [hb, if_false, Memory.wfFrom, Bool.and_eq_true, decide_eq_true_eq]
        exact ⟨⟨ha, hb⟩, ⟨by omega, hm.1.2⟩, hm.2⟩
    · simp only [h1, if_false]
      by_cases h2 : a = c.1
      · simp only [h2, if_true]
        by_cases hb : b = 0
        · simp only [hb, if_true]
          exact Memory.wfFrom_mono (by omega) hm.2
        · simp only [hb, if_false, Memory.wfFrom, Bool.and_eq_true, decide_eq_true_eq]
          exact ⟨⟨by omega, hb⟩, hm.2⟩
      · simp only [h2, if_false, Memory.wfFrom, Bool.and_eq_true, decide_eq_true_eq]
        exact ⟨hm.1, ih hm.2 a b (by omega)⟩

/-- A write keeps the canonical form. -/
theorem Memory.wf_write {m : Memory} (hm : Memory.wf m = true) (a : Nat) (b : Byte) :
    Memory.wf (Memory.write m a b) = true := Memory.wfFrom_write hm a b (Nat.zero_le a)

theorem Memory.wfFrom_ofBytesAt (bs : List Byte) : ∀ a, Memory.wfFrom a (Memory.ofBytesAt a bs) = true := by
  induction bs with
  | nil => intro a; rfl
  | cons b bs ih =>
    intro a
    unfold Memory.ofBytesAt
    split
    · exact Memory.wfFrom_mono (by omega) (ih (a + 1))
    · rename_i hb
      simpa [Memory.wfFrom, ih (a + 1)] using hb

/-- A placed byte sequence has the canonical form. -/
theorem Memory.wf_ofBytes (bs : List Byte) : Memory.wf (Memory.ofBytesAt 0 bs) = true :=
  Memory.wfFrom_ofBytesAt bs 0

/-- A placed byte sequence reads back. -/
theorem Memory.read_ofBytesAt (bs : List Byte) : ∀ a i, Memory.read (Memory.ofBytesAt a bs) (a + i) = bs.getD i 0 := by
  induction bs with
  | nil => intro a i; simp [Memory.ofBytesAt, Memory.read]
  | cons b bs ih =>
    intro a i
    unfold Memory.ofBytesAt
    cases i with
    | zero =>
      split
      · rw [Memory.read_below (Memory.wfFrom_ofBytesAt bs (a + 1)) (by omega)]
        simp [*]
      · simp [Memory.read]
    | succ i =>
      have h := ih (a + 1) i
      rw [show a + (i + 1) = a + 1 + i by omega]
      split
      · simpa using h
      · simp only [Memory.read, show a ≠ a + 1 + i by omega, if_false]
        simpa using h

@[simp] theorem Memory.readBytes_length (m : Memory) (n : Nat) : ∀ a, (Memory.readBytes m a n).length = n := by
  induction n with
  | zero => intro a; rfl
  | succ n ih => intro a; simp [Memory.readBytes, ih]

theorem Memory.readBytes_eq_map (m : Memory) (n : Nat) :
    ∀ a, Memory.readBytes m a n = (List.range n).map fun i => Memory.read m (a + i) := by
  induction n with
  | zero => intro a; rfl
  | succ n ih =>
    intro a
    rw [Memory.readBytes, ih, List.range_succ_eq_map]
    simp [Function.comp_def, Nat.add_comm, Nat.add_left_comm]

theorem Memory.readBytes_getElem? (m : Memory) (a n i : Nat) :
    (Memory.readBytes m a n)[i]? = if i < n then some (Memory.read m (a + i)) else none := by
  rw [Memory.readBytes_eq_map]
  by_cases h : i < n
  · simp [h]
  · simp [h]

/-- A run inside a longer run is the run at its own offset. -/
theorem Memory.readBytes_slice (m : Memory) (a n k j : Nat) (h : k + j ≤ n) :
    ((Memory.readBytes m a n).drop k).take j = Memory.readBytes m (a + k) j := by
  apply List.ext_getElem?
  intro i
  rw [List.getElem?_take, List.getElem?_drop, Memory.readBytes_getElem?, Memory.readBytes_getElem?]
  by_cases h1 : i < j
  · simp [h1, show k + i < n by omega, Nat.add_assoc]
  · simp [h1]

end Sys2Proof.Machine
end

