-- ==== Sys2Proof/Laws/State.lean ====
section
/-! SUPPORT. One lemma per field per update of the state: no later proof unfolds a record update. -/

namespace Sys2Proof.Machine

@[simp] theorem State.withDf_frame (s : State) (f : Record → Record) : (s.withDf f).frame = s.frame := rfl
@[simp] theorem State.withDf_len (s : State) (f : Record → Record) : (s.withDf f).len = s.len := rfl
@[simp] theorem State.withDf_df (s : State) (f : Record → Record) : (s.withDf f).df = f s.df := rfl
@[simp] theorem State.withDf_status (s : State) (f : Record → Record) : (s.withDf f).status = s.status := rfl
@[simp] theorem State.withDf_errHdr (s : State) (f : Record → Record) : (s.withDf f).errHdr = s.errHdr := rfl
@[simp] theorem State.withDf_cur (s : State) (f : Record → Record) : (s.withDf f).cur = s.cur := rfl
@[simp] theorem State.withDf_lines (s : State) (f : Record → Record) : (s.withDf f).lines = s.lines := rfl
@[simp] theorem State.withDf_ret (s : State) (f : Record → Record) : (s.withDf f).ret = s.ret := rfl
@[simp] theorem State.withDf_pending (s : State) (f : Record → Record) : (s.withDf f).pending = s.pending := rfl

@[simp] theorem State.withCur_frame (s : State) (c : Nat) : (s.withCur c).frame = s.frame := rfl
@[simp] theorem State.withCur_len (s : State) (c : Nat) : (s.withCur c).len = s.len := rfl
@[simp] theorem State.withCur_df (s : State) (c : Nat) : (s.withCur c).df = s.df := rfl
@[simp] theorem State.withCur_status (s : State) (c : Nat) : (s.withCur c).status = s.status := rfl
@[simp] theorem State.withCur_errHdr (s : State) (c : Nat) : (s.withCur c).errHdr = s.errHdr := rfl
@[simp] theorem State.withCur_cur (s : State) (c : Nat) : (s.withCur c).cur = c := rfl
@[simp] theorem State.withCur_lines (s : State) (c : Nat) : (s.withCur c).lines = s.lines := rfl
@[simp] theorem State.withCur_ret (s : State) (c : Nat) : (s.withCur c).ret = s.ret := rfl
@[simp] theorem State.withCur_pending (s : State) (c : Nat) : (s.withCur c).pending = s.pending := rfl

@[simp] theorem State.withRet_frame (s : State) (r : Ret) : (s.withRet r).frame = s.frame := rfl
@[simp] theorem State.withRet_len (s : State) (r : Ret) : (s.withRet r).len = s.len := rfl
@[simp] theorem State.withRet_df (s : State) (r : Ret) : (s.withRet r).df = s.df := rfl
@[simp] theorem State.withRet_status (s : State) (r : Ret) : (s.withRet r).status = s.status := rfl
@[simp] theorem State.withRet_errHdr (s : State) (r : Ret) : (s.withRet r).errHdr = s.errHdr := rfl
@[simp] theorem State.withRet_cur (s : State) (r : Ret) : (s.withRet r).cur = s.cur := rfl
@[simp] theorem State.withRet_lines (s : State) (r : Ret) : (s.withRet r).lines = s.lines := rfl
@[simp] theorem State.withRet_ret (s : State) (r : Ret) : (s.withRet r).ret = r := rfl
@[simp] theorem State.withRet_pending (s : State) (r : Ret) : (s.withRet r).pending = s.pending := rfl

@[simp] theorem State.withPending_frame (s : State) (p : Pending) : (s.withPending p).frame = s.frame := rfl
@[simp] theorem State.withPending_len (s : State) (p : Pending) : (s.withPending p).len = s.len := rfl
@[simp] theorem State.withPending_df (s : State) (p : Pending) : (s.withPending p).df = s.df := rfl
@[simp] theorem State.withPending_status (s : State) (p : Pending) : (s.withPending p).status = s.status := rfl
@[simp] theorem State.withPending_errHdr (s : State) (p : Pending) : (s.withPending p).errHdr = s.errHdr := rfl
@[simp] theorem State.withPending_cur (s : State) (p : Pending) : (s.withPending p).cur = s.cur := rfl
@[simp] theorem State.withPending_lines (s : State) (p : Pending) : (s.withPending p).lines = s.lines := rfl
@[simp] theorem State.withPending_ret (s : State) (p : Pending) : (s.withPending p).ret = s.ret := rfl
@[simp] theorem State.withPending_pending (s : State) (p : Pending) : (s.withPending p).pending = p := rfl

@[simp] theorem State.emit_frame (s : State) (t : Text) : (s.emit t).frame = s.frame := rfl
@[simp] theorem State.emit_len (s : State) (t : Text) : (s.emit t).len = s.len := rfl
@[simp] theorem State.emit_df (s : State) (t : Text) : (s.emit t).df = s.df := rfl
@[simp] theorem State.emit_status (s : State) (t : Text) : (s.emit t).status = s.status := rfl
@[simp] theorem State.emit_errHdr (s : State) (t : Text) : (s.emit t).errHdr = s.errHdr := rfl
@[simp] theorem State.emit_cur (s : State) (t : Text) : (s.emit t).cur = s.cur := rfl
@[simp] theorem State.emit_lines (s : State) (t : Text) : (s.emit t).lines = s.lines ++ [t] := rfl
@[simp] theorem State.emit_ret (s : State) (t : Text) : (s.emit t).ret = s.ret := rfl
@[simp] theorem State.emit_pending (s : State) (t : Text) : (s.emit t).pending = s.pending := rfl

@[simp] theorem State.clearLines_frame (s : State) : (s.clearLines).frame = s.frame := rfl
@[simp] theorem State.clearLines_len (s : State) : (s.clearLines).len = s.len := rfl
@[simp] theorem State.clearLines_df (s : State) : (s.clearLines).df = s.df := rfl
@[simp] theorem State.clearLines_status (s : State) : (s.clearLines).status = s.status := rfl
@[simp] theorem State.clearLines_errHdr (s : State) : (s.clearLines).errHdr = s.errHdr := rfl
@[simp] theorem State.clearLines_cur (s : State) : (s.clearLines).cur = s.cur := rfl
@[simp] theorem State.clearLines_lines (s : State) : (s.clearLines).lines = [] := rfl
@[simp] theorem State.clearLines_ret (s : State) : (s.clearLines).ret = s.ret := rfl
@[simp] theorem State.clearLines_pending (s : State) : (s.clearLines).pending = s.pending := rfl

@[simp] theorem State.beginDecode_frame (s : State) : (s.beginDecode).frame = s.frame := rfl
@[simp] theorem State.beginDecode_len (s : State) : (s.beginDecode).len = s.len := rfl
@[simp] theorem State.beginDecode_df (s : State) : (s.beginDecode).df = Record.empty := rfl
@[simp] theorem State.beginDecode_status (s : State) : (s.beginDecode).status = .idle := rfl
@[simp] theorem State.beginDecode_errHdr (s : State) : (s.beginDecode).errHdr = none := rfl
@[simp] theorem State.beginDecode_cur (s : State) : (s.beginDecode).cur = 0 := rfl
@[simp] theorem State.beginDecode_lines (s : State) : (s.beginDecode).lines = [] := rfl
@[simp] theorem State.beginDecode_ret (s : State) : (s.beginDecode).ret = s.ret := rfl
@[simp] theorem State.beginDecode_pending (s : State) : (s.beginDecode).pending = s.pending := rfl

@[simp] theorem State.finishDecode_frame (s : State) : (s.finishDecode).frame = s.frame := rfl
@[simp] theorem State.finishDecode_len (s : State) : (s.finishDecode).len = s.len := rfl
@[simp] theorem State.finishDecode_df (s : State) : (s.finishDecode).df = { s.df with frameSize := some s.len } := rfl
@[simp] theorem State.finishDecode_status (s : State) : (s.finishDecode).status = .ok := rfl
@[simp] theorem State.finishDecode_errHdr (s : State) : (s.finishDecode).errHdr = s.errHdr := rfl
@[simp] theorem State.finishDecode_cur (s : State) : (s.finishDecode).cur = s.cur := rfl
@[simp] theorem State.finishDecode_lines (s : State) : (s.finishDecode).lines = s.lines := rfl
@[simp] theorem State.finishDecode_ret (s : State) : (s.finishDecode).ret = s.ret := rfl
@[simp] theorem State.finishDecode_pending (s : State) : (s.finishDecode).pending = .idle := rfl

@[simp] theorem raiseTruncated_frame (h : Hdr) (s : State) : (raiseTruncated h s).frame = s.frame := rfl
@[simp] theorem raiseTruncated_len (h : Hdr) (s : State) : (raiseTruncated h s).len = s.len := rfl
@[simp] theorem raiseTruncated_df (h : Hdr) (s : State) : (raiseTruncated h s).df = Record.empty := rfl
@[simp] theorem raiseTruncated_status (h : Hdr) (s : State) : (raiseTruncated h s).status = .truncated := rfl
@[simp] theorem raiseTruncated_errHdr (h : Hdr) (s : State) : (raiseTruncated h s).errHdr = some h := rfl
@[simp] theorem raiseTruncated_cur (h : Hdr) (s : State) : (raiseTruncated h s).cur = s.cur := rfl
@[simp] theorem raiseTruncated_lines (h : Hdr) (s : State) : (raiseTruncated h s).lines = [] := rfl
@[simp] theorem raiseTruncated_ret (h : Hdr) (s : State) : (raiseTruncated h s).ret = s.ret := rfl
@[simp] theorem raiseTruncated_pending (h : Hdr) (s : State) : (raiseTruncated h s).pending = .idle := rfl

@[simp] theorem State.placeFrame_frame (s : State) (bs : List Byte) : (s.placeFrame bs).frame = Memory.ofBytesAt 0 bs := rfl
@[simp] theorem State.placeFrame_len (s : State) (bs : List Byte) : (s.placeFrame bs).len = bs.length := rfl
@[simp] theorem State.placeFrame_df (s : State) (bs : List Byte) : (s.placeFrame bs).df = s.df := rfl
@[simp] theorem State.placeFrame_status (s : State) (bs : List Byte) : (s.placeFrame bs).status = s.status := rfl
@[simp] theorem State.placeFrame_errHdr (s : State) (bs : List Byte) : (s.placeFrame bs).errHdr = s.errHdr := rfl
@[simp] theorem State.placeFrame_cur (s : State) (bs : List Byte) : (s.placeFrame bs).cur = s.cur := rfl
@[simp] theorem State.placeFrame_lines (s : State) (bs : List Byte) : (s.placeFrame bs).lines = s.lines := rfl
@[simp] theorem State.placeFrame_ret (s : State) (bs : List Byte) : (s.placeFrame bs).ret = s.ret := rfl
@[simp] theorem State.placeFrame_pending (s : State) (bs : List Byte) : (s.placeFrame bs).pending = s.pending := rfl

@[simp] theorem State.start_frame (s : State) (i : Instr) : (s.start i).frame = s.frame := rfl
@[simp] theorem State.start_len (s : State) (i : Instr) : (s.start i).len = s.len := rfl
@[simp] theorem State.start_df (s : State) (i : Instr) : (s.start i).df = s.df := rfl
@[simp] theorem State.start_status (s : State) (i : Instr) : (s.start i).status = s.status := rfl
@[simp] theorem State.start_errHdr (s : State) (i : Instr) : (s.start i).errHdr = s.errHdr := rfl
@[simp] theorem State.start_cur (s : State) (i : Instr) : (s.start i).cur = s.cur := rfl
@[simp] theorem State.start_lines (s : State) (i : Instr) : (s.start i).lines = s.lines := rfl
@[simp] theorem State.start_ret (s : State) (i : Instr) : (s.start i).ret = s.ret := rfl
@[simp] theorem State.start_pending (s : State) (i : Instr) : (s.start i).pending = .op i := rfl

@[simp] theorem State.startHeaders_frame (s : State) : (s.startHeaders).frame = s.frame := rfl
@[simp] theorem State.startHeaders_len (s : State) : (s.startHeaders).len = s.len := rfl
@[simp] theorem State.startHeaders_df (s : State) : (s.startHeaders).df = Record.empty := rfl
@[simp] theorem State.startHeaders_status (s : State) : (s.startHeaders).status = .idle := rfl
@[simp] theorem State.startHeaders_errHdr (s : State) : (s.startHeaders).errHdr = none := rfl
@[simp] theorem State.startHeaders_cur (s : State) : (s.startHeaders).cur = 0 := rfl
@[simp] theorem State.startHeaders_lines (s : State) : (s.startHeaders).lines = [] := rfl
@[simp] theorem State.startHeaders_ret (s : State) : (s.startHeaders).ret = s.ret := rfl
@[simp] theorem State.startHeaders_pending (s : State) : (s.startHeaders).pending = .header := rfl

@[simp] theorem State.resetUnit_frame (s : State) : (s.resetUnit).frame = s.frame := rfl
@[simp] theorem State.resetUnit_len (s : State) : (s.resetUnit).len = s.len := rfl
@[simp] theorem State.resetUnit_df (s : State) : (s.resetUnit).df = Record.empty := rfl
@[simp] theorem State.resetUnit_status (s : State) : (s.resetUnit).status = .idle := rfl
@[simp] theorem State.resetUnit_errHdr (s : State) : (s.resetUnit).errHdr = none := rfl
@[simp] theorem State.resetUnit_cur (s : State) : (s.resetUnit).cur = 0 := rfl
@[simp] theorem State.resetUnit_lines (s : State) : (s.resetUnit).lines = [] := rfl
@[simp] theorem State.resetUnit_ret (s : State) : (s.resetUnit).ret = .unit := rfl
@[simp] theorem State.resetUnit_pending (s : State) : (s.resetUnit).pending = .idle := rfl

end Sys2Proof.Machine
end

