-- ==== Sys2Proof/Laws/Values.lean ====
section
/-! SUPPORT. What the value operations compute: the big-endian value of a byte sequence as a sum and as a
concatenation (R12, R115), its inverse (R116), and the bit-field extractor (R118, R119). -/

namespace Sys2Proof.Machine

theorem beFrom_eq (s : List Byte) : ∀ v, beFrom v s = v * 256 ^ s.length + beOf s := by
  induction s with
  | nil => intro v; simp [beFrom, beOf]
  | cons b s ih =>
    intro v
    simp only [beFrom, beOf, List.length_cons]
    rw [ih (v * 256 + b.toNat), ih (0 * 256 + b.toNat)]
    ring

@[simp] theorem beOf_nil : beOf [] = 0 := rfl

theorem beOf_cons (b : Byte) (s : List Byte) : beOf (b :: s) = b.toNat * 256 ^ s.length + beOf s := by
  simp only [beOf, beFrom]
  rw [beFrom_eq]
  simp [beOf]

/-- No intermediate value exceeds `256^n - 1` (R115, R124). -/
theorem beOf_lt (s : List Byte) : beOf s < 256 ^ s.length := by
  induction s with
  | nil => simp
  | cons b s ih =>
    have hb := b.isLt
    rw [beOf_cons, List.length_cons, pow_succ]
    have h1 : b.toNat * 256 ^ s.length ≤ 255 * 256 ^ s.length := Nat.mul_le_mul_right _ (by omega)
    omega

theorem toNat_append_add {m n : Nat} (x : BitVec m) (y : BitVec n) :
    (x ++ y).toNat = x.toNat * 2 ^ n + y.toNat := by
  rw [BitVec.toNat_append, ← Nat.shiftLeft_add_eq_or_of_lt y.isLt, Nat.shiftLeft_eq]

/-- RD16's value is the two bytes side by side (R67, R112). -/
theorem beOf_two (a b : Byte) : BitVec.ofNat 16 (beOf [a, b]) = a ++ b := by
  apply BitVec.eq_of_toNat_eq
  have ha := a.isLt
  have hb := b.isLt
  simp only [toNat_append_add, BitVec.toNat_ofNat, beOf_cons, beOf_nil, List.length_cons, List.length_nil]
  omega

/-- RD32's value is the four bytes side by side (R67, R113). -/
theorem beOf_four (a b c d : Byte) : BitVec.ofNat 32 (beOf [a, b, c, d]) = a ++ b ++ c ++ d := by
  apply BitVec.eq_of_toNat_eq
  have ha := a.isLt
  have hb := b.isLt
  have hc := c.isLt
  have hd := d.isLt
  simp only [toNat_append_add, BitVec.toNat_ofNat, beOf_cons, beOf_nil, List.length_cons, List.length_nil]
  omega

/-- A MAC address is the six bytes side by side (R67, R82). -/
theorem beOf_six (a b c d e f : Byte) :
    BitVec.ofNat 48 (beOf [a, b, c, d, e, f]) = a ++ b ++ c ++ d ++ e ++ f := by
  apply BitVec.eq_of_toNat_eq
  have ha := a.isLt
  have hb := b.isLt
  have hc := c.isLt
  have hd := d.isLt
  have he := e.isLt
  have hf := f.isLt
  simp only [toNat_append_add, BitVec.toNat_ofNat, beOf_cons, beOf_nil, List.length_cons, List.length_nil]
  omega

theorem beOf_one (a : Byte) : beOf [a] = a.toNat := by simp [beOf_cons]

@[simp] theorem bytesOf_length (v n : Nat) : (bytesOf v n).length = n := by simp [bytesOf]

theorem bytesOf_zero (v : Nat) : bytesOf v 0 = [] := rfl

/-- The first of n + 1 bytes is the most significant; the rest are the bytes of the low part (R116). -/
theorem bytesOf_succ (v n : Nat) : bytesOf v (n + 1) = BitVec.ofNat 8 (v >>> (8 * n)) :: bytesOf v n := by
  simp only [bytesOf, List.range_succ_eq_map, List.map_cons, List.map_map]
  congr 1
  apply List.map_congr_left
  intro i _
  simp only [Function.comp]
  congr 3
  omega

theorem bytesOf_mod (n : Nat) : ∀ v, bytesOf (v % 256 ^ n) n = bytesOf v n := by
  intro v
  simp only [bytesOf]
  apply List.map_congr_left
  intro i hi
  have hi' : i < n := List.mem_range.mp hi
  apply BitVec.eq_of_toNat_eq
  simp only [BitVec.toNat_ofNat, Nat.shiftRight_eq_div_pow]
  have hp : (256 : Nat) ^ n = 2 ^ (8 * (n - 1 - i)) * 2 ^ (8 * (i + 1)) := by
    rw [← pow_add, show (256 : Nat) = 2 ^ 8 from rfl, ← pow_mul]
    congr 1
    omega
  rw [hp, Nat.mod_mul_right_div_self, show 8 * (i + 1) = 8 + 8 * i from by ring, pow_add,
    Nat.mod_mul_right_mod]

/-- `be(bytes_n(v)) = v` (R12, R116), for every v: modulo `256^n`. -/
theorem beOf_bytesOf (n : Nat) : ∀ v, beOf (bytesOf v n) = v % 256 ^ n := by
  induction n with
  | zero => intro v; simp [bytesOf_zero, Nat.mod_one]
  | succ n ih =>
    intro v
    rw [bytesOf_succ, beOf_cons, ih, bytesOf_length]
    simp only [BitVec.toNat_ofNat, Nat.shiftRight_eq_div_pow]
    have h : (2 : Nat) ^ (8 * n) = 256 ^ n := by rw [pow_mul]; norm_num
    have e : v % 256 ^ (n + 1) = v % 256 ^ n + 256 ^ n * (v / 256 ^ n % 256) := by
      rw [pow_succ, Nat.mod_mul]
    rw [h, e, show (2 : Nat) ^ 8 = 256 from rfl]
    ring

/-- `bytes_n(be(s)) = s` (R68, R116). -/
theorem bytesOf_beOf (s : List Byte) : bytesOf (beOf s) s.length = s := by
  induction s with
  | nil => rfl
  | cons b s ih =>
    rw [List.length_cons, bytesOf_succ, beOf_cons]
    have h : (2 : Nat) ^ (8 * s.length) = 256 ^ s.length := by rw [pow_mul]; norm_num
    have hl := beOf_lt s
    congr 1
    · apply BitVec.eq_of_toNat_eq
      have hb := b.isLt
      simp only [BitVec.toNat_ofNat, Nat.shiftRight_eq_div_pow]
      rw [h, Nat.mul_comm, Nat.mul_add_div (by positivity), Nat.div_eq_of_lt hl]
      simpa using hb
    · rw [← bytesOf_mod, Nat.mul_comm, Nat.mul_add_mod, Nat.mod_eq_of_lt hl, ih]

/-- `BIT` reads the bit (R118). -/
theorem bitOf_eq_testBit (v i : Nat) : bitOf v i = (v.testBit i).toNat := by
  rw [bitOf, Nat.toNat_testBit, Nat.shiftRight_eq_div_pow]

/-- `BITS` stays below its width (R119, R124). -/
theorem bitsOf_lt (v hi lo : Nat) : bitsOf v hi lo < 2 ^ (hi - lo + 1) :=
  Nat.mod_lt _ (Nat.two_pow_pos _)

/-- `BITS` of a bit vector is the slice of it (R119). -/
theorem bitsOf_eq_extract {w : Nat} (v : BitVec w) (hi lo : Nat) :
    BitVec.ofNat (hi - lo + 1) (bitsOf v.toNat hi lo) = v.extractLsb' lo (hi - lo + 1) := by
  apply BitVec.eq_of_toNat_eq
  simp [bitsOf, BitVec.extractLsb'_toNat]

theorem minimumOf_eq (a b : Nat) : minimumOf a b = min a b := by
  unfold minimumOf
  split <;> omega

theorem equalOf_toNat {w : Nat} (a b : BitVec w) : (equalOf a.toNat b.toNat = true) ↔ a = b := by
  simp [equalOf, BitVec.toNat_inj]

end Sys2Proof.Machine
end

