-- ==== Sys2Proof/Laws/Ops.lean ====
section
/-! SUPPORT. One lemma per shared operation: everything it can do. A conditional lemma `…_ok` says when the
operation goes on and with what; its companion `…_short` says when TruncatedInput is taken. -/

namespace Sys2Proof.Machine

/-! ## Sequencing -/

theorem bindOp_ok {α β : Type} {x : Op α} {f : α → Op β} {s t : State} {a : α} (h : x s = .ok a t) :
    bindOp x f s = f a t := by simp [bindOp, h]

theorem bindOp_trap {α β : Type} {x : Op α} {f : α → Op β} {s t : State} (h : x s = .trap t) :
    bindOp x f s = .trap t := by simp [bindOp, h]

/-- What a sequence that goes on has done: its first part has gone on, and so has the rest. -/
theorem bindOp_eq_ok {α β : Type} {x : Op α} {f : α → Op β} {s u : State} {b : β}
    (h : bindOp x f s = .ok b u) : ∃ a t, x s = .ok a t ∧ f a t = .ok b u := by
  unfold bindOp at h
  cases hx : x s with
  | ok a t => exact ⟨a, t, rfl, by simpa [hx] using h⟩
  | trap t => simp [hx] at h
  | fault e => simp [hx] at h
  | refuse r => simp [hx] at h

@[simp] theorem skipOp_eq (s : State) : skipOp s = .ok () s := rfl

@[simp] theorem modifyOp_eq (f : State → State) (s : State) : modifyOp f s = .ok () (f s) := rfl

@[simp] theorem seqOps_nil (s : State) : seqOps [] s = .ok () s := rfl

theorem seqOps_cons (x : Op Unit) (xs : List (Op Unit)) (s : State) :
    seqOps (x :: xs) s = bindOp x (fun _ => seqOps xs) s := rfl

/-- An operation that goes on hands its state to the rest of the sequence. -/
theorem seqOps_cons_ok {x : Op Unit} {xs : List (Op Unit)} {s t : State} (h : x s = .ok () t) :
    seqOps (x :: xs) s = seqOps xs t := by rw [seqOps_cons, bindOp_ok h]

/-- An operation that raises ends the sequence. -/
theorem seqOps_cons_trap {x : Op Unit} {xs : List (Op Unit)} {s t : State} (h : x s = .trap t) :
    seqOps (x :: xs) s = .trap t := by rw [seqOps_cons, bindOp_trap h]

@[simp] theorem procedure_ok (s : State) : procedure (.ok () s) = .next s := rfl
@[simp] theorem procedure_trap (s : State) : procedure (.trap s) = .next s := rfl
@[simp] theorem procedure_fault (f : Fault) : procedure (.fault f) = .fault f := rfl
@[simp] theorem procedure_refuse (r : Refusal) : procedure (.refuse r) = .refused r := rfl

/-! ## The length check and the cursor reads -/

theorem requireBytes_ok {n : Nat} {s : State} (h : Hdr) (hn : s.cur + n ≤ s.len) :
    requireBytes n h s = .ok () s := by
  simp only [requireBytes, show ¬ s.cur + n > s.len by omega, if_false]

theorem requireBytes_short {n : Nat} {s : State} (h : Hdr) (hn : s.len < s.cur + n) :
    requireBytes n h s = .trap (raiseTruncated h s) := by
  simp only [requireBytes, show s.cur + n > s.len by omega, if_true]

theorem memRead_ok {a n : Nat} {s : State} (hn : a + n ≤ s.len) :
    memRead a n s = .ok (Memory.readBytes s.frame a n) s := by
  simp only [memRead, hn, if_true]

theorem readBytesAtCur_ok {n : Nat} {s : State} (h : Hdr) (hn : s.cur + n ≤ s.len) :
    readBytesAtCur n h s = .ok (Memory.readBytes s.frame s.cur n) (s.withCur (s.cur + n)) := by
  unfold readBytesAtCur
  have hm : memReadAtCur n s = .ok (Memory.readBytes s.frame s.cur n) s := memRead_ok hn
  rw [bindOp_ok (requireBytes_ok h hn), bindOp_ok hm]
  rfl

theorem readBytesAtCur_short {n : Nat} {s : State} (h : Hdr) (hn : s.len < s.cur + n) :
    readBytesAtCur n h s = .trap (raiseTruncated h s) := by
  unfold readBytesAtCur
  rw [bindOp_trap (requireBytes_short h hn)]

theorem readU8_ok {s : State} (h : Hdr) (hn : s.cur + 1 ≤ s.len) :
    readU8 h s = .ok (s.byteAt s.cur) (s.withCur (s.cur + 1)) := by
  unfold readU8
  rw [bindOp_ok (readBytesAtCur_ok h hn)]
  simp [Memory.readBytes, beOf_one, State.byteAt]

theorem readU8_short {s : State} (h : Hdr) (hn : s.len < s.cur + 1) :
    readU8 h s = .trap (raiseTruncated h s) := by
  unfold readU8
  rw [bindOp_trap (readBytesAtCur_short h hn)]

theorem readU16_ok {s : State} (h : Hdr) (hn : s.cur + 2 ≤ s.len) :
    readU16 h s = .ok (s.halfAt s.cur) (s.withCur (s.cur + 2)) := by
  unfold readU16
  rw [bindOp_ok (readBytesAtCur_ok h hn)]
  simp only [Memory.readBytes, beOf_two, State.halfAt, State.byteAt]

theorem readU16_short {s : State} (h : Hdr) (hn : s.len < s.cur + 2) :
    readU16 h s = .trap (raiseTruncated h s) := by
  unfold readU16
  rw [bindOp_trap (readBytesAtCur_short h hn)]

theorem readU32_ok {s : State} (h : Hdr) (hn : s.cur + 4 ≤ s.len) :
    readU32 h s = .ok (s.wordAt s.cur) (s.withCur (s.cur + 4)) := by
  unfold readU32
  rw [bindOp_ok (readBytesAtCur_ok h hn)]
  simp only [Memory.readBytes, beOf_four, State.wordAt, State.byteAt, Nat.add_assoc, Nat.reduceAdd]

theorem readU32_short {s : State} (h : Hdr) (hn : s.len < s.cur + 4) :
    readU32 h s = .trap (raiseTruncated h s) := by
  unfold readU32
  rw [bindOp_trap (readBytesAtCur_short h hn)]

/-- A MAC address read (R131). -/
theorem readMac_value (s : State) (a : Nat) :
    BitVec.ofNat 48 (beOf (Memory.readBytes s.frame a 6)) = s.macAt a := by
  simp only [Memory.readBytes, beOf_six, State.macAt, State.byteAt, Nat.add_assoc, Nat.reduceAdd]

theorem bytesAt_eq_readBytes (s : State) (a n : Nat) : s.bytesAt a n = Memory.readBytes s.frame a n := by
  rw [Memory.readBytes_eq_map]
  rfl

/-! ## The registers -/

theorem load_ok {α : Type} {x : Op α} {f : α → Record → Record} {s t : State} {a : α} (h : x s = .ok a t) :
    load x f s = .ok () (t.withDf (f a)) := by
  unfold load
  rw [bindOp_ok h]
  rfl

theorem writeDf_eq (f : Record → Record) (s : State) : writeDf f s = .ok () (s.withDf f) := rfl

theorem advance_eq (n : Nat) (s : State) : advance n s = .ok () (s.withCur (s.cur + n)) := rfl

theorem readReg_some {α : Type} {g : Record → Option α} {s : State} {v : α} (r : Reg) (h : g s.df = some v) :
    readReg g r s = .ok v s := by simp [readReg, h]

theorem readReg_none {α : Type} {g : Record → Option α} {s : State} (r : Reg) (h : g s.df = none) :
    readReg g r s = .refuse (.noValue r) := by simp [readReg, h]

/-! ## The frame's fields depend on the frame only -/

theorem byteAt_congr {s t : State} (h : s.frame = t.frame) (a : Nat) : s.byteAt a = t.byteAt a := by
  simp [State.byteAt, h]

theorem halfAt_congr {s t : State} (h : s.frame = t.frame) (a : Nat) : s.halfAt a = t.halfAt a := by
  simp [State.halfAt, byteAt_congr h]

theorem wordAt_congr {s t : State} (h : s.frame = t.frame) (a : Nat) : s.wordAt a = t.wordAt a := by
  simp [State.wordAt, byteAt_congr h]

theorem macAt_congr {s t : State} (h : s.frame = t.frame) (a : Nat) : s.macAt a = t.macAt a := by
  simp [State.macAt, byteAt_congr h]

end Sys2Proof.Machine
end

