-- ==== Sys2Proof/Laws/Decoder.lean ====
section
/-! SUPPORT. Each parse operation in closed form: TruncatedInput when the frame is short, else the header's fields
and the cursor past it; and the operations DECODE is made of. -/

namespace Sys2Proof.Machine

@[simp] theorem Config_ethLen : Config.ethLen = 14 := rfl
@[simp] theorem Config_ipLen : Config.ipLen = 20 := rfl
@[simp] theorem Config_icmpLen : Config.icmpLen = 4 := rfl
@[simp] theorem Config_tcpLen : Config.tcpLen = 20 := rfl
@[simp] theorem Config_udpLen : Config.udpLen = 8 := rfl
@[simp] theorem Config_t0 : Config.t0 = 34 := rfl
@[simp] theorem Config_maxRead : Config.maxRead = 98 := rfl
@[simp] theorem Config_sampleMax : Config.sampleMax = 64 := rfl

/-- A load of one byte, inside a sequence. -/
theorem seq_load8 {h : Hdr} {f : BitVec 8 → Record → Record} {xs : List (Op Unit)} {s : State}
    (hn : s.cur + 1 ≤ s.len) :
    seqOps (load (readU8 h) f :: xs) s =
      seqOps xs { s with df := f (s.byteAt s.cur) s.df, cur := s.cur + 1 } := by
  rw [seqOps_cons_ok (load_ok (readU8_ok h hn))]
  rfl

/-- A load of two bytes, inside a sequence. -/
theorem seq_load16 {h : Hdr} {f : BitVec 16 → Record → Record} {xs : List (Op Unit)} {s : State}
    (hn : s.cur + 2 ≤ s.len) :
    seqOps (load (readU16 h) f :: xs) s =
      seqOps xs { s with df := f (s.halfAt s.cur) s.df, cur := s.cur + 2 } := by
  rw [seqOps_cons_ok (load_ok (readU16_ok h hn))]
  rfl

/-- A load of four bytes, inside a sequence. -/
theorem seq_load32 {h : Hdr} {f : BitVec 32 → Record → Record} {xs : List (Op Unit)} {s : State}
    (hn : s.cur + 4 ≤ s.len) :
    seqOps (load (readU32 h) f :: xs) s =
      seqOps xs { s with df := f (s.wordAt s.cur) s.df, cur := s.cur + 4 } := by
  rw [seqOps_cons_ok (load_ok (readU32_ok h hn))]
  rfl

/-- A load of a byte sequence, inside a sequence. -/
theorem seq_loadBytes {n : Nat} {h : Hdr} {f : List Byte → Record → Record} {xs : List (Op Unit)} {s : State}
    (hn : s.cur + n ≤ s.len) :
    seqOps (load (readBytesAtCur n h) f :: xs) s =
      seqOps xs { s with df := f (Memory.readBytes s.frame s.cur n) s.df, cur := s.cur + n } := by
  rw [seqOps_cons_ok (load_ok (readBytesAtCur_ok h hn))]
  rfl

/-- A write of the record, inside a sequence. -/
theorem seq_writeDf {f : Record → Record} {xs : List (Op Unit)} {s : State} :
    seqOps (writeDf f :: xs) s = seqOps xs { s with df := f s.df } := rfl

theorem nibble_high (b : Byte) : BitVec.ofNat 4 (bitsOf b.toNat 7 4) = b.extractLsb' 4 4 :=
  bitsOf_eq_extract b 7 4

theorem flags_low (b : Byte) : BitVec.ofNat 6 (bitsOf b.toNat 5 0) = b.extractLsb' 0 6 :=
  bitsOf_eq_extract b 5 0

/-- `DF.ip_hlen`: the low nibble times 4, in 6 bits (R88). -/
theorem hlen_value (b : Byte) :
    BitVec.ofNat 6 (mul4Of (bitsOf b.toNat 3 0)) = (b.extractLsb' 0 4).setWidth 6 * 4 := by
  apply BitVec.eq_of_toNat_eq
  have h : b.toNat % 16 < 16 := Nat.mod_lt _ (by norm_num)
  simp [mul4Of, bitsOf, BitVec.extractLsb'_toNat]

theorem parseEthOp_short {s : State} (hn : s.len < s.cur + 14) :
    parseEthOp s = .trap (raiseTruncated .eth s) :=
  seqOps_cons_trap (requireBytes_short .eth hn)

/-- PARSE_ETH goes on exactly when the header is there (R131). -/
theorem parseEthOp_ok {s : State} (hn : s.cur + 14 ≤ s.len) :
    parseEthOp s = .ok () { s with df := s.ethFields s.cur s.df, cur := s.cur + 14 } := by
  unfold parseEthOp
  rw [Config_ethLen, seqOps_cons_ok (requireBytes_ok .eth hn), seq_loadBytes (by omega), seq_loadBytes (by simp only; omega),
    seq_load16 (by simp only; omega), seq_writeDf, seqOps_nil]
  simp only [State.ethFields, readMac_value, Nat.add_assoc, Nat.reduceAdd]
  rfl

theorem parseIpv4Op_short {s : State} (hn : s.len < s.cur + 20) :
    parseIpv4Op s = .trap (raiseTruncated .ipv4 s) :=
  seqOps_cons_trap (requireBytes_short .ipv4 hn)

/-- PARSE_IPV4 (R132). -/
theorem parseIpv4Op_ok {s : State} (hn : s.cur + 20 ≤ s.len) :
    parseIpv4Op s = .ok () { s with df := s.ipFields s.cur s.df, cur := s.cur + 20 } := by
  unfold parseIpv4Op
  rw [Config_ipLen, seqOps_cons_ok (requireBytes_ok .ipv4 hn), seq_load8 (by omega), seq_load8 (by simp only; omega),
    seq_load16 (by simp only; omega), seq_load16 (by simp only; omega), seq_load16 (by simp only; omega),
    seq_load8 (by simp only; omega), seq_load8 (by simp only; omega), seq_load16 (by simp only; omega),
    seq_load32 (by simp only; omega), seq_load32 (by simp only; omega), seq_writeDf, seqOps_nil]
  simp only [State.ipFields, nibble_high, hlen_value, Nat.add_assoc, Nat.reduceAdd]
  rfl

theorem parseIcmpOp_short {s : State} (hn : s.len < s.cur + 4) :
    parseIcmpOp s = .trap (raiseTruncated .icmp s) :=
  seqOps_cons_trap (requireBytes_short .icmp hn)

/-- PARSE_ICMP (R133). -/
theorem parseIcmpOp_ok {s : State} (hn : s.cur + 4 ≤ s.len) :
    parseIcmpOp s = .ok () { s with df := s.icmpFields s.cur s.df, cur := s.cur + 4 } := by
  unfold parseIcmpOp
  rw [Config_icmpLen, seqOps_cons_ok (requireBytes_ok .icmp hn), seq_load8 (by omega), seq_load8 (by simp only; omega),
    seq_load16 (by simp only; omega), seq_writeDf, seqOps_nil]
  simp only [State.icmpFields, Nat.add_assoc, Nat.reduceAdd]
  rfl

theorem parseTcpOp_short {s : State} (hn : s.len < s.cur + 20) :
    parseTcpOp s = .trap (raiseTruncated .tcp s) :=
  seqOps_cons_trap (requireBytes_short .tcp hn)

/-- PARSE_TCP (R134). -/
theorem parseTcpOp_ok {s : State} (hn : s.cur + 20 ≤ s.len) :
    parseTcpOp s = .ok () { s with df := s.tcpFields s.cur s.df, cur := s.cur + 20 } := by
  unfold parseTcpOp
  rw [Config_tcpLen, seqOps_cons_ok (requireBytes_ok .tcp hn), seq_load16 (by omega), seq_load16 (by simp only; omega),
    seq_load32 (by simp only; omega), seq_load32 (by simp only; omega), seq_load8 (by simp only; omega),
    seq_load8 (by simp only; omega), seq_load16 (by simp only; omega), seq_load16 (by simp only; omega),
    seq_load16 (by simp only; omega), seq_writeDf, seqOps_nil]
  simp only [State.tcpFields, nibble_high, flags_low, Nat.add_assoc, Nat.reduceAdd]
  rfl

theorem parseUdpOp_short {s : State} (hn : s.len < s.cur + 8) :
    parseUdpOp s = .trap (raiseTruncated .udp s) :=
  seqOps_cons_trap (requireBytes_short .udp hn)

/-- PARSE_UDP (R135). -/
theorem parseUdpOp_ok {s : State} (hn : s.cur + 8 ≤ s.len) :
    parseUdpOp s = .ok () { s with df := s.udpFields s.cur s.df, cur := s.cur + 8 } := by
  unfold parseUdpOp
  rw [Config_udpLen, seqOps_cons_ok (requireBytes_ok .udp hn), seq_load16 (by omega), seq_load16 (by simp only; omega),
    seq_load16 (by simp only; omega), seq_load16 (by simp only; omega), seq_writeDf, seqOps_nil]
  simp only [State.udpFields, Nat.add_assoc, Nat.reduceAdd]
  rfl

/-- The sample read never raises (R137). -/
theorem readSample_ok {s : State} (h : Hdr) (hn : s.cur ≤ s.len) :
    readSample h s = .ok (s.bytesAt s.cur (min 64 (s.len - s.cur)))
      (s.withCur (s.cur + min 64 (s.len - s.cur))) := by
  unfold readSample
  rw [Config_sampleMax, minimumOf_eq, readBytesAtCur_ok h (by omega), bytesAt_eq_readBytes]

/-- CAPTURE_SAMPLE goes on whenever offset 34 exists or is the frame's end (R137). -/
theorem captureSampleOp_ok {s : State} (h : Hdr) (hn : 34 ≤ s.len) :
    captureSampleOp h s =
      .ok () { s with df := s.sampleFields s.df, cur := 34 + min 64 (s.len - 34) } := by
  have hr : (s.withCur 34).cur ≤ (s.withCur 34).len := hn
  simp only [captureSampleOp, Config_t0, show ¬ s.len < 34 by omega, if_false]
  rw [seqOps_cons_ok (modifyOp_eq _ s), seqOps_cons_ok (load_ok (readSample_ok h hr)), seqOps_nil]
  have hl : ∀ n, ((s.withCur 34).bytesAt 34 n).length = n := fun n => by simp [State.bytesAt]
  simp only [State.withCur_cur, State.withCur_len, hl]
  rfl

theorem captureSampleOp_absent {s : State} (h : Hdr) (hn : s.len < 34) :
    captureSampleOp h s = .fault .offsetAbsent := by
  simp only [captureSampleOp, Config_t0, hn, if_true]

theorem parseUnknownOp_eq (s : State) :
    parseUnknownOp s = .ok () { s with df := { s.df with tag := .unknown, diag := true } } := rfl

/-! ## The dispatches -/

/-- The ethertype comparison of dispatch 1 (R122). -/
theorem equalOf_etype (v : BitVec 16) : equalOf v.toNat Config.ethertypeIpv4.toNat = decide (v = 0x0800) := by
  by_cases h : v = 0x0800
  · subst h; decide
  · have : v.toNat ≠ Config.ethertypeIpv4.toNat := fun k => h (BitVec.eq_of_toNat_eq k)
    rw [decide_eq_false h]; simpa [equalOf] using this

/-- A protocol comparison of dispatch 2 (R122). -/
theorem equalOf_byte (v c : BitVec 8) : equalOf v.toNat c.toNat = decide (v = c) := by
  by_cases h : v = c
  · subst h; simp [equalOf]
  · have : v.toNat ≠ c.toNat := fun k => h (BitVec.eq_of_toNat_eq k)
    rw [decide_eq_false h]; simpa [equalOf] using this

/-- Dispatch 1 (R90). -/
theorem dispatchEtype_eq {s : State} {v : BitVec 16} (h : s.df.ethType = some v) :
    dispatchEtype s = if v = 0x0800 then seqOps [parseIpv4Op, dispatchProto] s else .ok () s := by
  unfold dispatchEtype
  rw [bindOp_ok (readReg_some .ethType h), equalOf_etype]
  by_cases c : v = 0x0800
  · rw [if_pos c, decide_eq_true c]; rfl
  · rw [if_neg c, decide_eq_false c]; rfl

/-- Dispatch 2 (R91). -/
theorem dispatchProto_eq {s : State} {v : BitVec 8} (h : s.df.ipProto = some v) :
    dispatchProto s = if v = 1 then parseIcmpOp s else if v = 6 then seqOps [parseTcpOp, captureSampleOp .tcp] s
      else if v = 17 then seqOps [parseUdpOp, captureSampleOp .udp] s else parseUnknownOp s := by
  unfold dispatchProto
  rw [bindOp_ok (readReg_some .ipProto h), equalOf_byte, equalOf_byte, equalOf_byte]
  by_cases c1 : v = 1
  · rw [if_pos c1, show decide (v = Config.protoIcmp) = true from decide_eq_true c1]; rfl
  · rw [if_neg c1, show decide (v = Config.protoIcmp) = false from decide_eq_false c1]
    by_cases c2 : v = 6
    · rw [if_pos c2, show decide (v = Config.protoTcp) = true from decide_eq_true c2]; rfl
    · rw [if_neg c2, show decide (v = Config.protoTcp) = false from decide_eq_false c2]
      by_cases c3 : v = 17
      · rw [if_pos c3, show decide (v = Config.protoUdp) = true from decide_eq_true c3]; rfl
      · rw [if_neg c3, show decide (v = Config.protoUdp) = false from decide_eq_false c3]; rfl

theorem seqOps_one (x : Op Unit) (s : State) : seqOps [x] s = x s := by
  rw [seqOps_cons]; unfold bindOp; cases x s <;> rfl

theorem seqOps_two_ok {x y : Op Unit} {s t : State} (h : x s = .ok () t) : seqOps [x, y] s = y t := by
  rw [seqOps_cons_ok h, seqOps_one]

/-! ## The header classes -/

theorem headerOp_ok {n : Nat} {h : Hdr} {f : Record → Record} {s : State} (hn : s.cur + n ≤ s.len) :
    headerOp n h f s = .ok () { s with df := f s.df, cur := s.cur + n } := by
  unfold headerOp
  rw [seqOps_cons_ok (requireBytes_ok h hn)]; rfl

theorem headerOp_short {n : Nat} {h : Hdr} {f : Record → Record} {s : State} (hn : s.len < s.cur + n) :
    headerOp n h f s = .trap (raiseTruncated h s) := by
  unfold headerOp
  rw [seqOps_cons_trap (requireBytes_short h hn)]

/-- CAPTURE_SAMPLE, inside a sequence. -/
theorem seq_capture {k : Hdr} {xs : List (Op Unit)} {s : State} (h : 34 ≤ s.len) :
    seqOps (captureSampleOp k :: xs) s =
      seqOps xs { s with df := s.sampleFields s.df, cur := 34 + min 64 (s.len - 34) } :=
  seqOps_cons_ok (captureSampleOp_ok k h)

end Sys2Proof.Machine
end

