-- ==== Sys2Proof/Laws/Fields.lean ====
section
/-! SUPPORT. What a field of an opcode-table row reads: from the bytes of a frame buffer, and from bytes that an
encoding wrote (R67, R87, R92). -/

namespace Sys2Proof

open Sys2Proof.Machine

theorem bitsOf_low (v n : Nat) : bitsOf v n 0 = v % 2 ^ (n + 1) := by simp [bitsOf]

/-! ## Over the frame buffer -/

theorem field_readBytes_half (m : Memory) (n a : Nat) (h : a + 2 ≤ n) :
    field (Memory.readBytes m 0 n) a (a + 1) 15 0 = (Memory.read m a ++ Memory.read m (a + 1) : BitVec 16) := by
  unfold field
  rw [show a + 1 - a + 1 = 2 by omega, Memory.readBytes_slice _ _ _ _ _ (by omega), Nat.zero_add, bitsOf_low]
  simp only [Memory.readBytes]
  rw [← beOf_two]
  apply BitVec.eq_of_toNat_eq
  simp only [BitVec.toNat_ofNat]
  omega

theorem field_readBytes_word (m : Memory) (n a : Nat) (h : a + 4 ≤ n) :
    field (Memory.readBytes m 0 n) a (a + 3) 31 0 =
      (Memory.read m a ++ Memory.read m (a + 1) ++ Memory.read m (a + 2) ++ Memory.read m (a + 3) :
        BitVec 32) := by
  unfold field
  rw [show a + 3 - a + 1 = 4 by omega, Memory.readBytes_slice _ _ _ _ _ (by omega), Nat.zero_add, bitsOf_low]
  simp only [Memory.readBytes, Nat.add_assoc, Nat.reduceAdd]
  rw [← beOf_four]
  apply BitVec.eq_of_toNat_eq
  simp only [BitVec.toNat_ofNat]
  omega

theorem field_readBytes_mac (m : Memory) (n a : Nat) (h : a + 6 ≤ n) :
    field (Memory.readBytes m 0 n) a (a + 5) 47 0 =
      (Memory.read m a ++ Memory.read m (a + 1) ++ Memory.read m (a + 2) ++ Memory.read m (a + 3) ++
        Memory.read m (a + 4) ++ Memory.read m (a + 5) : BitVec 48) := by
  unfold field
  rw [show a + 5 - a + 1 = 6 by omega, Memory.readBytes_slice _ _ _ _ _ (by omega), Nat.zero_add, bitsOf_low]
  simp only [Memory.readBytes, Nat.add_assoc, Nat.reduceAdd]
  rw [← beOf_six]
  apply BitVec.eq_of_toNat_eq
  simp only [BitVec.toNat_ofNat]
  omega

theorem field_readBytes_bits (m : Memory) (n a hi lo : Nat) (h : a + 1 ≤ n) :
    field (Memory.readBytes m 0 n) a a hi lo = (Memory.read m a).extractLsb' lo (hi - lo + 1) := by
  unfold field
  rw [show a - a + 1 = 1 by omega, Memory.readBytes_slice _ _ _ _ _ (by omega), Nat.zero_add]
  simp only [Memory.readBytes, beOf_one]
  apply BitVec.eq_of_toNat_eq
  simp [bitsOf, BitVec.extractLsb'_toNat]

theorem field_readBytes_byte (m : Memory) (n a : Nat) (h : a + 1 ≤ n) :
    field (Memory.readBytes m 0 n) a a 7 0 = Memory.read m a := by
  rw [field_readBytes_bits _ _ _ _ _ h]
  simp

theorem rowAccepts_readBytes (r : Row) (m : Memory) (n : Nat) (h : ∀ p ∈ r.needs, p.1 < n) :
    rowAccepts r (Memory.readBytes m 0 n) = r.needs.all fun p => Memory.read m p.1 == p.2 := by
  unfold rowAccepts
  rw [Bool.eq_iff_iff, List.all_eq_true, List.all_eq_true]
  refine forall₂_congr fun p hp => ?_
  have := h p hp
  rw [Memory.readBytes_getElem?, if_pos this]
  simp

/-! ## Over encoded bytes -/

theorem field_bytesOf (n : Nat) (f : List Byte) (first last hi : Nat) (v : Nat)
    (h : (f.drop first).take (last - first + 1) = bytesOf v n) (hv : v < 2 ^ (hi + 1))
    (hn : 256 ^ n = 2 ^ (hi + 1)) : field f first last hi 0 = BitVec.ofNat _ v := by
  unfold field
  rw [h, beOf_bytesOf, hn, bitsOf_low, Nat.mod_mod, Nat.mod_eq_of_lt hv]

theorem field_single (f : List Byte) (a hi lo : Nat) (b : Byte) (h : (f.drop a).take 1 = [b]) :
    field f a a hi lo = BitVec.ofNat _ (bitsOf b.toNat hi lo) := by
  unfold field
  rw [show a - a + 1 = 1 by omega, h, beOf_one]

theorem decodeRow_long (r : Row) (h : Hdr) (f : List Byte) (i : Instr) (hf : r.minLen ≤ f.length) :
    decodeRow r h f i = .instr i := by
  unfold decodeRow
  rw [if_neg (by omega)]

end Sys2Proof
end

