-- ==== Sys2Proof/Laws/Flags.lean ====
section
/-! SUPPORT. The views are the slices of their registers (R25), bit by bit. -/

namespace Sys2Proof.Machine

/-- A view of one bit is that slice. -/
theorem flagOf_eq_extract {w : Nat} (i : Nat) (v : BitVec w) : flagOf i v = v.extractLsb' i 1 := by
  apply BitVec.eq_of_toNat_eq
  simp [flagOf, bitOf, BitVec.extractLsb'_toNat]

/-- A view of one bit is that bit. -/
theorem flagOf_eq_getLsbD {w : Nat} (i : Nat) (v : BitVec w) :
    flagOf i v = if v.getLsbD i then 1 else 0 := by
  unfold flagOf
  rw [bitOf_eq_testBit, ← BitVec.testBit_toNat]
  cases v.toNat.testBit i <;> rfl

theorem ipFragOff_eq_extract (w : BitVec 16) : ipFragOff w = w.extractLsb' 0 13 := by
  apply BitVec.eq_of_toNat_eq
  simp [ipFragOff, bitsOf, BitVec.extractLsb'_toNat]

/-- The flags summary byte (R175). -/
theorem ipFlagsByteOf_eq (w : BitVec 16) : ipFlagsByteOf w = w.extractLsb' 8 8 &&& 0xe0 := by
  apply BitVec.eq_of_toNat_eq
  rw [ipFlagsByteOf, BitVec.toNat_ofNat, BitVec.toNat_and, BitVec.extractLsb'_toNat]
  have h : bitsOf w.toNat 15 8 &&& 0xE0 < 2 ^ 8 := Nat.lt_of_le_of_lt Nat.and_le_right (by decide)
  rw [Nat.mod_eq_of_lt h]
  rfl

end Sys2Proof.Machine
end

