-- ==== Sys2Proof/Laws/Format.lean ====
section
/-! SUPPORT. The character set of the formatting operations (R164): each gives characters in 0x20..0x7E only; and
the lengths of the fixed-size strings. -/

namespace Sys2Proof.Machine

/-! ## Printable strings -/

@[simp] theorem printable_nil : Text.printable [] = true := rfl

@[simp] theorem printable_cons (c : Char) (t : Text) :
    Text.printable (c :: t) = ((decide (0x20 ≤ c.toNat) && decide (c.toNat ≤ 0x7E)) && Text.printable t) := rfl

@[simp] theorem printable_append (t u : Text) :
    Text.printable (t ++ u) = (Text.printable t && Text.printable u) := by
  simp [Text.printable, List.all_append]

theorem printable_replicate (n : Nat) (c : Char) (h : Text.printable [c] = true) :
    Text.printable (List.replicate n c) = true := by
  induction n with
  | zero => rfl
  | succ n ih => simp only [List.replicate_succ, printable_cons, ih] at h ⊢; simpa using h

theorem printable_flatMap {α : Type} (l : List α) (f : α → Text) (h : ∀ a ∈ l, Text.printable (f a) = true) :
    Text.printable (l.flatMap f) = true := by
  induction l with
  | nil => rfl
  | cons a l ih =>
    simp only [List.flatMap_cons, printable_append, h a List.mem_cons_self, Bool.true_and]
    exact ih fun b hb => h b (List.mem_cons_of_mem a hb)

theorem hexd_printable (k : Nat) : Text.printable [hexd k] = true := by
  by_cases h : k < 16
  · interval_cases k <;> decide
  · have e : hexd k = '0' := by
      unfold hexd
      rw [List.getD_eq_getElem?_getD, List.getElem?_eq_none (by simp; omega)]
      rfl
    rw [e]
    decide

theorem hex2Of_printable (b : Byte) : Text.printable (hex2Of b) = true := by
  have h1 := hexd_printable (bitsOf b.toNat 7 4)
  have h2 := hexd_printable (bitsOf b.toNat 3 0)
  simp only [hex2Of, printable_cons, printable_nil, Bool.and_true] at h1 h2 ⊢
  simp [h1, h2]

theorem hexbytesOf_printable (s : List Byte) : Text.printable (hexbytesOf s) = true := by
  rw [hexbytesOf, printable_append, printable_flatMap s hex2Of fun b _ => hex2Of_printable b]
  decide

theorem decLoop_printable (n : Nat) : ∀ (v : Nat) (t : Text), Text.printable t = true →
    Text.printable (decLoop n v t) = true := by
  induction n with
  | zero => intro v t h; exact h
  | succ n ih =>
    intro v t h
    unfold decLoop
    split
    · exact h
    · apply ih
      have h1 := hexd_printable (v % 10)
      simp only [printable_cons, printable_nil, Bool.and_true] at h1 ⊢
      simp [h1, h]

theorem decOf_printable (v : Nat) : Text.printable (decOf v) = true := by
  unfold decOf
  split
  · decide
  · exact decLoop_printable _ _ _ rfl

theorem joinWith_printable (c : Char) (hc : Text.printable [c] = true) : ∀ l : List Text,
    (∀ t ∈ l, Text.printable t = true) → Text.printable (joinWith c l) = true
  | [], _ => rfl
  | [t], h => h t List.mem_cons_self
  | t :: u :: l, h => by
    have ih := joinWith_printable c hc (u :: l) fun x hx => h x (List.mem_cons_of_mem t hx)
    have ht := h t List.mem_cons_self
    simp only [printable_cons, printable_nil, Bool.and_true] at hc
    simp only [joinWith, printable_append, printable_cons, ht, hc, ih, Bool.and_true]

theorem fmtMacOf_printable (v : BitVec 48) : Text.printable (fmtMacOf v) = true := by
  apply joinWith_printable _ (by decide)
  intro t ht
  obtain ⟨b, _, rfl⟩ := List.mem_map.mp ht
  exact hex2Of_printable b

theorem fmtIp4Of_printable (v : BitVec 32) : Text.printable (fmtIp4Of v) = true := by
  apply joinWith_printable _ (by decide)
  intro t ht
  obtain ⟨b, _, rfl⟩ := List.mem_map.mp ht
  exact decOf_printable _

theorem kvOf_printable {l v : Text} (hl : Text.printable l = true) (hv : Text.printable v = true) :
    Text.printable (kvOf l v) = true := by
  simp only [kvOf, printable_append, hl, hv, Bool.and_true, Bool.true_and]
  decide

theorem mask8Of_printable (pos : Fin 8) (b : BitVec 1) : Text.printable (mask8Of pos b) = true := by
  apply printable_flatMap
  intro p _
  have h := hexd_printable b.toNat
  simp only [printable_cons, printable_nil, Bool.and_true] at h
  have hd : (decide (0x20 ≤ '.'.toNat) && decide ('.'.toNat ≤ 0x7E)) = true := by decide
  have hs : (decide (0x20 ≤ ' '.toNat) && decide (' '.toNat ≤ 0x7E)) = true := by decide
  by_cases h1 : p = pos.val <;> by_cases h2 : p = 4 <;>
    simp only [h1, h2, if_true, if_false, printable_cons, printable_nil, h, hd, hs, Bool.and_true] <;>
    split <;> simp [h]

theorem annotOf_printable {m l : Text} (hm : Text.printable m = true) (hl : Text.printable l = true) :
    Text.printable (annotOf m l) = true := by
  simp only [annotOf, printable_append, hm, hl, Bool.and_true]
  decide

theorem flaglabelOf_printable {n : Text} (b : BitVec 1) (hn : Text.printable n = true) :
    Text.printable (flaglabelOf n b) = true := by
  unfold flaglabelOf
  split
  · exact hn
  · rw [printable_append, hn]
    decide

theorem asciiChOf_printable (b : Byte) : Text.printable [asciiChOf b] = true := by
  unfold asciiChOf
  split
  · rename_i h
    simp only [printableByte, Bool.and_eq_true, decide_eq_true_eq] at h
    have hv : (Char.ofNat b.toNat).toNat = b.toNat := by
      rw [Char.toNat_ofNat, if_pos]
      exact Or.inl (by omega)
    simp [hv, h]
  · decide

theorem dumpSlot_printable (s : List Byte) (i : Nat) : Text.printable (dumpSlot s i) = true := by
  have h2 : Text.printable (if i % Config.groupBytes = 1 then [' '] else []) = true := by
    split <;> decide
  rw [dumpSlot, printable_append, h2, Bool.and_true]
  split
  · exact hex2Of_printable _
  · decide

theorem dumpRowOf_printable (s : List Byte) : Text.printable (dumpRowOf s) = true := by
  have h1 := printable_flatMap (List.range Config.rowBytes) (dumpSlot s) fun i _ => dumpSlot_printable s i
  have h2 : Text.printable (s.map asciiChOf) = true := by
    induction s with
    | nil => rfl
    | cons b s ih =>
      have hb := asciiChOf_printable b
      simp only [printable_cons, printable_nil, Bool.and_true] at hb
      have h3 := printable_flatMap (List.range Config.rowBytes) (dumpSlot s) fun i _ => dumpSlot_printable s i
      simp only [List.map_cons, printable_cons, hb, ih h3, Bool.and_true]
  have h3 := printable_replicate (Config.rowBytes - s.length) '.' (by decide)
  rw [dumpRowOf, printable_append, printable_append, h1, h2, h3]
  rfl

theorem prefixOf_printable (t : SecTag) : Text.printable (prefixOf t) = true := by
  cases t <;> decide

/-! ## Lengths -/

@[simp] theorem hex2Of_length (b : Byte) : (hex2Of b).length = 2 := rfl

@[simp] theorem prefixOf_length (t : SecTag) : (prefixOf t).length = 8 := by cases t <;> decide

theorem dumpSlot_length (s : List Byte) (i : Nat) :
    (dumpSlot s i).length = 2 + (if i % 2 = 1 then 1 else 0) := by
  have h : ∀ x : Text, x.length = 2 →
      (x ++ if i % 2 = 1 then [' '] else []).length = 2 + (if i % 2 = 1 then 1 else 0) := by
    intro x hx
    split <;> simp [hx]
  refine h _ ?_
  cases s[i]? <;> rfl

theorem dumpRowsOf_length (s : List Byte) : (dumpRowsOf s).length = (s.length + 15) / 16 := by
  simp [dumpRowsOf, Config.rowBytes]

end Sys2Proof.Machine
end

