-- ==== Sys2Proof/Laws/Render.lean ====
section
/-! SUPPORT. The Renderer's operations: what each line operation emits, and that a Renderer's operation does
nothing but append report lines (R61, R156, R164). -/

namespace Sys2Proof.Machine

/-! ## Emitting, inside a sequence -/

theorem lineOp_eq (t : SecTag) (c : Text) (s : State) : lineOp t c s = .ok () (s.emit (prefixOf t ++ c)) := rfl

theorem blankOp_eq (t : SecTag) (s : State) : blankOp t s = .ok () (s.emit (prefixOf t)) := by
  simp [blankOp, lineOp_eq]

theorem fieldLine_some {α : Type} {t : SecTag} {label : Text} {g : Record → Option α} {r : Reg} {f : α → Text}
    {s : State} {v : α} (h : g s.df = some v) :
    fieldLine t label g r f s = .ok () (s.emit (prefixOf t ++ kvOf label (f v))) := by
  unfold fieldLine
  rw [bindOp_ok (readReg_some r h)]
  rfl

theorem fieldLine_none {α : Type} {t : SecTag} {label : Text} {g : Record → Option α} {r : Reg} {f : α → Text}
    {s : State} (h : g s.df = none) : fieldLine t label g r f s = .refuse (.noValue r) := by
  simp [fieldLine, bindOp, readReg_none r h]

theorem flagLine_some {w : Nat} {t : SecTag} {g : Record → Option (BitVec w)} {r : Reg} {pos : Fin 8}
    {view : BitVec w → BitVec 1} {label : BitVec 1 → Text} {s : State} {v : BitVec w} (h : g s.df = some v) :
    flagLine t g r pos view label s =
      .ok () (s.emit (prefixOf t ++ annotOf (mask8Of pos (view v)) (label (view v)))) := by
  unfold flagLine
  rw [bindOp_ok (readReg_some r h)]
  rfl

theorem flagLine_none {w : Nat} {t : SecTag} {g : Record → Option (BitVec w)} {r : Reg} {pos : Fin 8}
    {view : BitVec w → BitVec 1} {label : BitVec 1 → Text} {s : State} (h : g s.df = none) :
    flagLine t g r pos view label s = .refuse (.noValue r) := by
  simp [flagLine, bindOp, readReg_none r h]

theorem seq_line {t : SecTag} {c : Text} {xs : List (Op Unit)} {s : State} :
    seqOps (lineOp t c :: xs) s = seqOps xs (s.emit (prefixOf t ++ c)) := rfl

theorem seq_blank {t : SecTag} {xs : List (Op Unit)} {s : State} :
    seqOps (blankOp t :: xs) s = seqOps xs (s.emit (prefixOf t)) := seqOps_cons_ok (blankOp_eq t s)

theorem seq_field {α : Type} {t : SecTag} {label : Text} {g : Record → Option α} {r : Reg} {f : α → Text}
    {xs : List (Op Unit)} {s : State} {v : α} (h : g s.df = some v) :
    seqOps (fieldLine t label g r f :: xs) s = seqOps xs (s.emit (prefixOf t ++ kvOf label (f v))) :=
  seqOps_cons_ok (fieldLine_some h)

theorem seq_flag {w : Nat} {t : SecTag} {g : Record → Option (BitVec w)} {r : Reg} {pos : Fin 8}
    {view : BitVec w → BitVec 1} {label : BitVec 1 → Text} {xs : List (Op Unit)} {s : State} {v : BitVec w}
    (h : g s.df = some v) :
    seqOps (flagLine t g r pos view label :: xs) s =
      seqOps xs (s.emit (prefixOf t ++ annotOf (mask8Of pos (view v)) (label (view v)))) :=
  seqOps_cons_ok (flagLine_some h)

/-- A sequence of lines appends them in order (R66, R74). -/
theorem seqOps_lines (t : SecTag) (ls : List Text) : ∀ s : State,
    seqOps (ls.map (lineOp t)) s = .ok () { s with lines := s.lines ++ ls.map (prefixOf t ++ ·) } := by
  induction ls with
  | nil => intro s; simp
  | cons l ls ih =>
    intro s
    rw [List.map_cons, seq_line, ih]
    simp [State.emit]

/-- DUMP emits its rows (R163). -/
theorem dumpOp_eq (t : SecTag) (b : List Byte) (s : State) :
    dumpOp t b s = .ok () { s with lines := s.lines ++ (dumpRowsOf b).map (prefixOf t ++ ·) } :=
  seqOps_lines t (dumpRowsOf b) s

/-! ## The Renderer appends report lines and does nothing else -/

theorem isReportLine_of (t : SecTag) {c : Text} (h : Text.printable c = true) :
    isReportLine (prefixOf t ++ c) := by
  refine ⟨by simp [prefixOf_printable, h], prefixOf t, ?_, List.prefix_append _ _⟩
  cases t <;> decide

/-- The operation appends report lines, or is refused; it changes nothing else. -/
def onlyEmits (x : Op Unit) : Prop := ∀ s : State,
  (∃ ls, x s = .ok () { s with lines := s.lines ++ ls } ∧ ∀ l ∈ ls, isReportLine l) ∨ ∃ r, x s = .refuse r

theorem onlyEmits_skip : onlyEmits skipOp := fun s => .inl ⟨[], by simp, by simp⟩

theorem onlyEmits_line (t : SecTag) {c : Text} (h : Text.printable c = true) : onlyEmits (lineOp t c) :=
  fun _ => .inl ⟨[prefixOf t ++ c], rfl, by simpa using isReportLine_of t h⟩

theorem onlyEmits_blank (t : SecTag) : onlyEmits (blankOp t) := onlyEmits_line t rfl

theorem onlyEmits_field {α : Type} (t : SecTag) {label : Text} (g : Record → Option α) (r : Reg) {f : α → Text}
    (hl : Text.printable label = true) (hf : ∀ v, Text.printable (f v) = true) :
    onlyEmits (fieldLine t label g r f) := by
  intro s
  cases h : g s.df with
  | none => exact .inr ⟨_, fieldLine_none h⟩
  | some v =>
    exact .inl ⟨_, fieldLine_some h, by simpa using isReportLine_of t (kvOf_printable hl (hf v))⟩

theorem onlyEmits_flag {w : Nat} (t : SecTag) (g : Record → Option (BitVec w)) (r : Reg) (pos : Fin 8)
    (view : BitVec w → BitVec 1) {label : BitVec 1 → Text} (hl : ∀ b, Text.printable (label b) = true) :
    onlyEmits (flagLine t g r pos view label) := by
  intro s
  cases h : g s.df with
  | none => exact .inr ⟨_, flagLine_none h⟩
  | some v =>
    exact .inl ⟨_, flagLine_some h,
      by simpa using isReportLine_of t (annotOf_printable (mask8Of_printable pos (view v)) (hl (view v)))⟩

theorem onlyEmits_dump (t : SecTag) (b : List Byte) : onlyEmits (dumpOp t b) := by
  intro s
  refine .inl ⟨_, dumpOp_eq t b s, ?_⟩
  intro l hl
  obtain ⟨row, hrow, rfl⟩ := List.mem_map.mp hl
  obtain ⟨k, _, rfl⟩ := List.mem_map.mp hrow
  exact isReportLine_of t (dumpRowOf_printable _)

/-- Two operations in order that only emit, together only emit. -/
theorem onlyEmits_seq_cons {x : Op Unit} {xs : List (Op Unit)} (hx : onlyEmits x) (hs : onlyEmits (seqOps xs)) :
    onlyEmits (seqOps (x :: xs)) := by
  intro s
  obtain ⟨ls, h, hl⟩ | ⟨r, h⟩ := hx s
  · obtain ⟨ms, k, hm⟩ | ⟨r, k⟩ := hs { s with lines := s.lines ++ ls }
    · refine .inl ⟨ls ++ ms, ?_, ?_⟩
      · rw [seqOps_cons_ok h, k]
        simp
      · intro l hmem
        rcases List.mem_append.mp hmem with h1 | h1
        · exact hl l h1
        · exact hm l h1
    · exact .inr ⟨r, by rw [seqOps_cons_ok h, k]⟩
  · exact .inr ⟨r, by simp [seqOps_cons, bindOp, h]⟩

theorem onlyEmits_seq {xs : List (Op Unit)} (h : ∀ x ∈ xs, onlyEmits x) : onlyEmits (seqOps xs) := by
  induction xs with
  | nil => exact fun s => .inl ⟨[], by simp, by simp⟩
  | cons x xs ih =>
    exact onlyEmits_seq_cons (h x List.mem_cons_self) (ih fun y hy => h y (List.mem_cons_of_mem x hy))

theorem onlyEmits_renderEther : onlyEmits renderEtherOp := by
  apply onlyEmits_seq
  simp only [List.forall_mem_cons, List.not_mem_nil, false_implies, implies_true, and_true]
  refine ⟨onlyEmits_line _ (by decide), onlyEmits_blank _, onlyEmits_field _ _ _ (by decide) fun v => ?_,
    onlyEmits_field _ _ _ (by decide) fmtMacOf_printable, onlyEmits_field _ _ _ (by decide) fmtMacOf_printable,
    onlyEmits_field _ _ _ (by decide) fun v => ?_, onlyEmits_blank _⟩
  · rw [printable_append, decOf_printable]; decide
  · rw [printable_append, hexbytesOf_printable]; split <;> decide

theorem onlyEmits_renderIp : onlyEmits renderIpOp := by
  apply onlyEmits_seq
  simp only [List.forall_mem_cons, List.not_mem_nil, false_implies, implies_true, and_true]
  refine ⟨onlyEmits_line _ (by decide), onlyEmits_blank _,
    onlyEmits_field _ _ _ (by decide) fun v => decOf_printable _,
    onlyEmits_field _ _ _ (by decide) fun v => ?_,
    onlyEmits_field _ _ _ (by decide) fun v => hexbytesOf_printable _,
    onlyEmits_line _ (by decide),
    onlyEmits_flag _ _ _ _ _ fun b => by unfold strDelay; split <;> decide,
    onlyEmits_flag _ _ _ _ _ fun b => by unfold strThroughput; split <;> decide,
    onlyEmits_flag _ _ _ _ _ fun b => by unfold strReliability; split <;> decide,
    onlyEmits_field _ _ _ (by decide) fun v => ?_,
    onlyEmits_field _ _ _ (by decide) fun v => decOf_printable _,
    onlyEmits_field _ _ _ (by decide) fun v => hexbytesOf_printable _,
    onlyEmits_flag _ _ _ _ _ fun b => by unfold strDf; split <;> decide,
    onlyEmits_flag _ _ _ _ _ fun b => by unfold strMf; split <;> decide,
    onlyEmits_field _ _ _ (by decide) fun v => ?_,
    onlyEmits_field _ _ _ (by decide) fun v => ?_,
    onlyEmits_field _ _ _ (by decide) fun v => ?_,
    onlyEmits_field _ _ _ (by decide) fun v => hexbytesOf_printable _,
    onlyEmits_field _ _ _ (by decide) fmtIp4Of_printable,
    onlyEmits_field _ _ _ (by decide) fmtIp4Of_printable, onlyEmits_blank _⟩
  · rw [printable_append, decOf_printable]; decide
  · rw [printable_append, decOf_printable]; decide
  · rw [printable_append, decOf_printable]; decide
  · rw [printable_append, decOf_printable]; decide
  · rw [printable_append, decOf_printable]
    unfold protoNoteOf
    split
    · decide
    · split
      · decide
      · split <;> decide

theorem onlyEmits_renderDiag : onlyEmits renderDiagOp :=
  onlyEmits_field _ _ _ (by decide) fun _ => decOf_printable _

theorem onlyEmits_renderIcmp : onlyEmits renderIcmpOp := by
  apply onlyEmits_seq
  simp only [List.forall_mem_cons, List.not_mem_nil, false_implies, implies_true, and_true]
  exact ⟨onlyEmits_line _ (by decide), onlyEmits_blank _,
    onlyEmits_field _ _ _ (by decide) fun _ => decOf_printable _,
    onlyEmits_field _ _ _ (by decide) fun _ => decOf_printable _,
    onlyEmits_field _ _ _ (by decide) fun _ => hexbytesOf_printable _, onlyEmits_blank _⟩

theorem dataHeading_printable (n : Nat) : Text.printable (strData1 ++ decOf n ++ strData2) = true := by
  rw [printable_append, printable_append, decOf_printable]
  decide

theorem onlyEmits_renderData (t : SecTag) : onlyEmits (renderDataOp t) := by
  intro s
  cases h : sampleOf s.df with
  | none => exact .inr ⟨.noValue .sample, by simp [renderDataOp, bindOp, readReg_none .sample h]⟩
  | some b =>
    have e : renderDataOp t s = seqOps [lineOp t (strData1 ++ decOf s.df.sampleLen.toNat ++ strData2),
        dumpOp t b, blankOp t] s := by
      unfold renderDataOp
      rw [bindOp_ok (readReg_some .sample h)]
      rfl
    rw [e]
    apply onlyEmits_seq
    simp only [List.forall_mem_cons, List.not_mem_nil, false_implies, implies_true, and_true]
    exact ⟨onlyEmits_line t (dataHeading_printable _), onlyEmits_dump t b, onlyEmits_blank t⟩

theorem onlyEmits_renderTcp : onlyEmits renderTcpOp := by
  apply onlyEmits_seq
  simp only [List.forall_mem_cons, List.not_mem_nil, false_implies, implies_true, and_true]
  refine ⟨onlyEmits_line _ (by decide), onlyEmits_blank _,
    onlyEmits_field _ _ _ (by decide) fun _ => decOf_printable _,
    onlyEmits_field _ _ _ (by decide) fun _ => decOf_printable _,
    onlyEmits_field _ _ _ (by decide) fun _ => decOf_printable _,
    onlyEmits_field _ _ _ (by decide) fun _ => decOf_printable _,
    onlyEmits_field _ _ _ (by decide) fun v => ?_,
    onlyEmits_field _ _ _ (by decide) fun _ => hexbytesOf_printable _,
    onlyEmits_flag _ _ _ _ _ fun b => flaglabelOf_printable b (by decide),
    onlyEmits_flag _ _ _ _ _ fun b => flaglabelOf_printable b (by decide),
    onlyEmits_flag _ _ _ _ _ fun b => flaglabelOf_printable b (by decide),
    onlyEmits_flag _ _ _ _ _ fun b => flaglabelOf_printable b (by decide),
    onlyEmits_flag _ _ _ _ _ fun b => flaglabelOf_printable b (by decide),
    onlyEmits_flag _ _ _ _ _ fun b => flaglabelOf_printable b (by decide),
    onlyEmits_field _ _ _ (by decide) fun _ => decOf_printable _,
    onlyEmits_field _ _ _ (by decide) fun _ => hexbytesOf_printable _,
    onlyEmits_field _ _ _ (by decide) fun _ => decOf_printable _,
    onlyEmits_blank _, onlyEmits_renderData _⟩
  rw [printable_append, decOf_printable]; decide

theorem onlyEmits_renderUdp : onlyEmits renderUdpOp := by
  apply onlyEmits_seq
  simp only [List.forall_mem_cons, List.not_mem_nil, false_implies, implies_true, and_true]
  exact ⟨onlyEmits_line _ (by decide), onlyEmits_blank _,
    onlyEmits_field _ _ _ (by decide) fun _ => decOf_printable _,
    onlyEmits_field _ _ _ (by decide) fun _ => decOf_printable _,
    onlyEmits_field _ _ _ (by decide) fun _ => decOf_printable _,
    onlyEmits_field _ _ _ (by decide) fun _ => hexbytesOf_printable _,
    onlyEmits_blank _, onlyEmits_renderData _⟩

/-! ## The values of a line -/

theorem hexbytesOf_half (v : BitVec 16) : hexbytesOf (bytesOf v.toNat 2) = hex16 v := by
  have h : bytesOf v.toNat 2 = [v.extractLsb' 8 8, v.extractLsb' 0 8] := by
    show [BitVec.ofNat 8 (v.toNat >>> 8), BitVec.ofNat 8 (v.toNat >>> 0)] = _
    rfl
  rw [h]
  simp [hexbytesOf, hex16, txt]

/-- An annotation line is one of two, by the bit of the register that its view is. -/
theorem annot_line_cases {w : Nat} (v : BitVec w) (i : Nat) (pos : Fin 8) (f : BitVec 1 → Text) (p a b : Text)
    (ha : p ++ annotOf (mask8Of pos 1) (f 1) = a) (hb : p ++ annotOf (mask8Of pos 0) (f 0) = b) :
    p ++ annotOf (mask8Of pos (flagOf i v)) (f (flagOf i v)) = if v.getLsbD i then a else b := by
  rw [flagOf_eq_getLsbD]
  split <;> assumption

end Sys2Proof.Machine
end

