-- ==== Sys2Proof/Laws/Frame.lean ====
section
/-! SUPPORT. The frame of the shared operations: none writes `FRAME` or `LEN` (R14, R22, R23), whatever its
outcome. -/

namespace Sys2Proof.Machine

/-- The host's part of the state is the same in both. -/
def State.sameFrame (s t : State) : Prop := t.frame = s.frame ∧ t.len = s.len

/-- The state an outcome carries has the frame of `s`. -/
def Res.sameFrame {α : Type} (s : State) : Res α → Prop
  | .ok _ t => s.sameFrame t
  | .trap t => s.sameFrame t
  | .fault _ => True
  | .refuse _ => True

/-- The operation leaves `FRAME` and `LEN` alone. -/
def keepsFrame {α : Type} (x : Op α) : Prop := ∀ s, Res.sameFrame s (x s)

theorem Res.sameFrame_ite {α : Type} {s : State} {c : Prop} [Decidable c] {a b : Res α}
    (ha : Res.sameFrame s a) (hb : Res.sameFrame s b) : Res.sameFrame s (if c then a else b) := by
  split <;> assumption

theorem keepsFrame_bindOp {α β : Type} {x : Op α} {f : α → Op β} (hx : keepsFrame x)
    (hf : ∀ a, keepsFrame (f a)) : keepsFrame (bindOp x f) := by
  intro s
  have h := hx s
  unfold bindOp
  cases e : x s with
  | ok a t =>
    rw [e] at h
    have h2 := hf a t
    simp only
    cases e2 : f a t with
    | ok b u => rw [e2] at h2; exact ⟨h2.1.trans h.1, h2.2.trans h.2⟩
    | trap u => rw [e2] at h2; exact ⟨h2.1.trans h.1, h2.2.trans h.2⟩
    | fault _ => trivial
    | refuse _ => trivial
  | trap t => rw [e] at h; exact h
  | fault _ => trivial
  | refuse _ => trivial

theorem keepsFrame_seqOps : ∀ {xs : List (Op Unit)}, (∀ x ∈ xs, keepsFrame x) → keepsFrame (seqOps xs)
  | [], _ => fun _ => ⟨rfl, rfl⟩
  | x :: _, h => keepsFrame_bindOp (h x List.mem_cons_self) fun _ =>
      keepsFrame_seqOps fun y hy => h y (List.mem_cons_of_mem x hy)

theorem keepsFrame_modifyOp {f : State → State} (h : ∀ s : State, s.sameFrame (f s)) : keepsFrame (modifyOp f) :=
  fun s => h s

theorem keepsFrame_requireBytes (n : Nat) (h : Hdr) : keepsFrame (requireBytes n h) := fun _ =>
  Res.sameFrame_ite ⟨rfl, rfl⟩ ⟨rfl, rfl⟩

theorem keepsFrame_memReadAtCur (n : Nat) : keepsFrame (memReadAtCur n) := fun _ =>
  Res.sameFrame_ite ⟨rfl, rfl⟩ trivial

theorem keepsFrame_readBytesAtCur (n : Nat) (h : Hdr) : keepsFrame (readBytesAtCur n h) :=
  keepsFrame_bindOp (keepsFrame_requireBytes n h) fun _ =>
    keepsFrame_bindOp (keepsFrame_memReadAtCur n) fun _ =>
      keepsFrame_bindOp (keepsFrame_modifyOp fun _ => ⟨rfl, rfl⟩) fun _ => fun _ => ⟨rfl, rfl⟩

theorem keepsFrame_readU8 (h : Hdr) : keepsFrame (readU8 h) :=
  keepsFrame_bindOp (keepsFrame_readBytesAtCur 1 h) fun _ => fun _ => ⟨rfl, rfl⟩

theorem keepsFrame_readU16 (h : Hdr) : keepsFrame (readU16 h) :=
  keepsFrame_bindOp (keepsFrame_readBytesAtCur 2 h) fun _ => fun _ => ⟨rfl, rfl⟩

theorem keepsFrame_readU32 (h : Hdr) : keepsFrame (readU32 h) :=
  keepsFrame_bindOp (keepsFrame_readBytesAtCur 4 h) fun _ => fun _ => ⟨rfl, rfl⟩

theorem keepsFrame_writeDf (f : Record → Record) : keepsFrame (writeDf f) :=
  keepsFrame_modifyOp fun _ => ⟨rfl, rfl⟩

theorem keepsFrame_load {α : Type} {x : Op α} (f : α → Record → Record) (h : keepsFrame x) :
    keepsFrame (load x f) :=
  keepsFrame_bindOp h fun _ => keepsFrame_writeDf _

theorem keepsFrame_readReg {α : Type} (g : Record → Option α) (r : Reg) : keepsFrame (readReg g r) := by
  intro s
  unfold readReg
  cases g s.df
  · trivial
  · exact ⟨rfl, rfl⟩

theorem keepsFrame_lineOp (t : SecTag) (c : Text) : keepsFrame (lineOp t c) :=
  keepsFrame_modifyOp fun _ => ⟨rfl, rfl⟩

theorem keepsFrame_of_onlyEmits {x : Op Unit} (h : onlyEmits x) : keepsFrame x := by
  intro s
  obtain ⟨ls, e, _⟩ | ⟨r, e⟩ := h s <;> rw [e]
  · exact ⟨rfl, rfl⟩
  · trivial

theorem keepsFrame_headerOp (n : Nat) (h : Hdr) (f : Record → Record) : keepsFrame (headerOp n h f) := by
  apply keepsFrame_seqOps
  simp only [List.forall_mem_cons, List.not_mem_nil, false_implies, implies_true, and_true]
  exact ⟨keepsFrame_requireBytes _ _, keepsFrame_writeDf _, keepsFrame_modifyOp fun _ => ⟨rfl, rfl⟩⟩

theorem procedure_sameFrame {x : Op Unit} (h : keepsFrame x) {s t : State} (e : procedure (x s) = .next t) :
    s.sameFrame t := by
  have k := h s
  cases c : x s <;> rw [c] at k e <;> simp [procedure] at e
  · subst e; exact k
  · subst e; exact k

theorem valued_sameFrame {α : Type} {x : Op α} (h : keepsFrame x) {f : α → Ret} {s t : State}
    (e : valued f (x s) = .next t) : s.sameFrame t := by
  have k := h s
  cases c : x s <;> rw [c] at k e <;> simp [valued] at e
  · subst e; exact k
  · subst e; exact k

theorem returns_sameFrame {r : Ret} {s t : State} (e : returns r s = .next t) : s.sameFrame t := by
  simp [returns] at e
  subst e
  exact ⟨rfl, rfl⟩

end Sys2Proof.Machine
end

