-- ==== Sys2Proof/Laws/PerInstr.lean ====
section
/-! SUPPORT. The per-instruction family `EncodedLength`: how many frame bytes the encoding of a header class has
(the end of its header, R7, R81), and that an operation has no encoding (R92). One lemma per constructor. -/

namespace Sys2Proof

/-- The length of an instruction's encoding: the frame up to the end of the header, or none. -/
def Laws.EncodedLength.Statement (i : Instr) : Prop :=
  (encode i).map List.length = match i with
    | .eth .. | .ethOnly => some 14
    | .ipv4 .. | .ipUnknown => some 34
    | .icmp .. => some 38
    | .tcp .. => some 54
    | .udp .. => some 42
    | _ => none

theorem Laws.EncodedLength.eth (dst : BitVec 48) (src : BitVec 48) (etype : BitVec 16) :
    Laws.EncodedLength.Statement (.eth dst src etype) := rfl

theorem Laws.EncodedLength.ipv4 (version : BitVec 4) (hlenWords : BitVec 4) (tos : BitVec 8)
    (totalLen : BitVec 16) (ident : BitVec 16) (flagsFrag : BitVec 16) (ttl : BitVec 8) (proto : BitVec 8) (cksum : BitVec 16) (src : BitVec 32) (dst : BitVec 32) :
    Laws.EncodedLength.Statement (.ipv4 version hlenWords tos totalLen ident flagsFrag ttl proto cksum src dst) := rfl

theorem Laws.EncodedLength.icmp (type : BitVec 8) (code : BitVec 8) (cksum : BitVec 16) :
    Laws.EncodedLength.Statement (.icmp type code cksum) := rfl

theorem Laws.EncodedLength.tcp (sport : BitVec 16) (dport : BitVec 16) (seqNo : BitVec 32)
    (ackNo : BitVec 32) (doff : BitVec 4) (flags : BitVec 6) (window : BitVec 16) (cksum : BitVec 16) (urgptr : BitVec 16) :
    Laws.EncodedLength.Statement (.tcp sport dport seqNo ackNo doff flags window cksum urgptr) := rfl

theorem Laws.EncodedLength.udp (sport : BitVec 16) (dport : BitVec 16) (length : BitVec 16) (cksum : BitVec 16) :
    Laws.EncodedLength.Statement (.udp sport dport length cksum) := rfl

theorem Laws.EncodedLength.ethOnly : Laws.EncodedLength.Statement .ethOnly := rfl

theorem Laws.EncodedLength.ipUnknown : Laws.EncodedLength.Statement .ipUnknown := rfl

theorem Laws.EncodedLength.require (n : Nat) (h : Hdr) : Laws.EncodedLength.Statement (.require n h) := rfl

theorem Laws.EncodedLength.rd8 (h : Hdr) : Laws.EncodedLength.Statement (.rd8 h) := rfl

theorem Laws.EncodedLength.rd16 (h : Hdr) : Laws.EncodedLength.Statement (.rd16 h) := rfl

theorem Laws.EncodedLength.rd32 (h : Hdr) : Laws.EncodedLength.Statement (.rd32 h) := rfl

theorem Laws.EncodedLength.rdb (n : Nat) (h : Hdr) : Laws.EncodedLength.Statement (.rdb n h) := rfl

theorem Laws.EncodedLength.be (s : List Byte) : Laws.EncodedLength.Statement (.be s) := rfl

theorem Laws.EncodedLength.bytes (v : Nat) (n : Nat) : Laws.EncodedLength.Statement (.bytes v n) := rfl

theorem Laws.EncodedLength.u8 (s : Int) : Laws.EncodedLength.Statement (.u8 s) := rfl

theorem Laws.EncodedLength.bit (width : Nat) (v : Nat) (i : Nat) :
    Laws.EncodedLength.Statement (.bit width v i) := rfl

theorem Laws.EncodedLength.bits (width : Nat) (v : Nat) (hi : Nat) (lo : Nat) :
    Laws.EncodedLength.Statement (.bits width v hi lo) := rfl

theorem Laws.EncodedLength.mul4 (v : Nat) : Laws.EncodedLength.Statement (.mul4 v) := rfl

theorem Laws.EncodedLength.mul8 (v : Nat) : Laws.EncodedLength.Statement (.mul8 v) := rfl

theorem Laws.EncodedLength.minOf (a : Nat) (b : Nat) : Laws.EncodedLength.Statement (.minOf a b) := rfl

theorem Laws.EncodedLength.equal (width : Nat) (a : Nat) (b : Nat) :
    Laws.EncodedLength.Statement (.equal width a b) := rfl

theorem Laws.EncodedLength.parseEth : Laws.EncodedLength.Statement .parseEth := rfl

theorem Laws.EncodedLength.parseIpv4 : Laws.EncodedLength.Statement .parseIpv4 := rfl

theorem Laws.EncodedLength.parseIcmp : Laws.EncodedLength.Statement .parseIcmp := rfl

theorem Laws.EncodedLength.parseTcp : Laws.EncodedLength.Statement .parseTcp := rfl

theorem Laws.EncodedLength.parseUdp : Laws.EncodedLength.Statement .parseUdp := rfl

theorem Laws.EncodedLength.parseUnknown : Laws.EncodedLength.Statement .parseUnknown := rfl

theorem Laws.EncodedLength.captureSample : Laws.EncodedLength.Statement .captureSample := rfl

theorem Laws.EncodedLength.decode : Laws.EncodedLength.Statement .decode := rfl

theorem Laws.EncodedLength.hex2 (b : Byte) : Laws.EncodedLength.Statement (.hex2 b) := rfl

theorem Laws.EncodedLength.hexbytes (s : List Byte) : Laws.EncodedLength.Statement (.hexbytes s) := rfl

theorem Laws.EncodedLength.dec (v : Nat) : Laws.EncodedLength.Statement (.dec v) := rfl

theorem Laws.EncodedLength.fmtMac (v : BitVec 48) : Laws.EncodedLength.Statement (.fmtMac v) := rfl

theorem Laws.EncodedLength.fmtIp4 (v : BitVec 32) : Laws.EncodedLength.Statement (.fmtIp4 v) := rfl

theorem Laws.EncodedLength.tagPrefix (t : SecTag) : Laws.EncodedLength.Statement (.tagPrefix t) := rfl

theorem Laws.EncodedLength.line (t : SecTag) (c : Text) : Laws.EncodedLength.Statement (.line t c) := rfl

theorem Laws.EncodedLength.blank (t : SecTag) : Laws.EncodedLength.Statement (.blank t) := rfl

theorem Laws.EncodedLength.kv (label : Text) (value : Text) : Laws.EncodedLength.Statement (.kv label value) := rfl

theorem Laws.EncodedLength.mask8 (pos : Fin 8) (b : BitVec 1) : Laws.EncodedLength.Statement (.mask8 pos b) := rfl

theorem Laws.EncodedLength.annot (mask : Text) (label : Text) :
    Laws.EncodedLength.Statement (.annot mask label) := rfl

theorem Laws.EncodedLength.flaglabel (name : Text) (b : BitVec 1) :
    Laws.EncodedLength.Statement (.flaglabel name b) := rfl

theorem Laws.EncodedLength.dumpRow (s : List Byte) : Laws.EncodedLength.Statement (.dumpRow s) := rfl

theorem Laws.EncodedLength.asciiCh (b : Byte) : Laws.EncodedLength.Statement (.asciiCh b) := rfl

theorem Laws.EncodedLength.dump (t : SecTag) (s : List Byte) : Laws.EncodedLength.Statement (.dump t s) := rfl

theorem Laws.EncodedLength.renderEther : Laws.EncodedLength.Statement .renderEther := rfl

theorem Laws.EncodedLength.renderIp : Laws.EncodedLength.Statement .renderIp := rfl

theorem Laws.EncodedLength.ipflagsByte : Laws.EncodedLength.Statement .ipflagsByte := rfl

theorem Laws.EncodedLength.renderDiag : Laws.EncodedLength.Statement .renderDiag := rfl

theorem Laws.EncodedLength.renderIcmp : Laws.EncodedLength.Statement .renderIcmp := rfl

theorem Laws.EncodedLength.renderTcp : Laws.EncodedLength.Statement .renderTcp := rfl

theorem Laws.EncodedLength.renderUdp : Laws.EncodedLength.Statement .renderUdp := rfl

theorem Laws.EncodedLength.renderData (t : SecTag) : Laws.EncodedLength.Statement (.renderData t) := rfl

theorem Laws.EncodedLength.render : Laws.EncodedLength.Statement .render := rfl

theorem Laws.EncodedLength.run : Laws.EncodedLength.Statement .run := rfl

theorem Laws.EncodedLength.reset : Laws.EncodedLength.Statement .reset := rfl

end Sys2Proof
end

