-- ==== Sys2Proof/Tests/Slice0.lean ====
section
/-! SUPPORT. Tests: the operand checks refuse what they should, frames written out byte by byte from the spec's
encodings decode to what they stand for, one or two vectors of 95_test_vectors.md and 96_test_programs.md for each
operation, and a witness for every statement that has hypotheses. Expected values are the spec's. -/

namespace Sys2Proof.Tests

open Sys2Proof.Machine

/-- Frame P1 of the spec. -/
def frameP1 : List Byte :=
  [0x00, 0x03, 0xba, 0x12, 0xde, 0x6b, 0x00, 0x00, 0x0c, 0x07, 0xac, 0x00, 0x08, 0x00, 0x45, 0x00] ++
  [0x00, 0x1c, 0x53, 0x09, 0x40, 0x00, 0xff, 0x01, 0x7d, 0x08, 0x81, 0x15, 0x1e, 0x25, 0x81, 0x15] ++
  [0x45, 0x8d, 0x08, 0x00, 0x9a, 0x4e, 0x00, 0x01, 0x00, 0x02]

/-- Frame P2 of the spec. -/
def frameP2 : List Byte :=
  [0x00, 0x03, 0xba, 0x12, 0xde, 0x6b, 0x00, 0x00, 0x0c, 0x07, 0xac, 0x00, 0x08, 0x00, 0x45, 0x10] ++
  [0x00, 0x3c, 0x00, 0x2a, 0x20, 0x05, 0x40, 0x06, 0xab, 0xcd, 0xc0, 0xa8, 0x00, 0x01, 0x0a, 0x00] ++
  [0x00, 0xfe, 0xc0, 0x01, 0x00, 0x50, 0xff, 0xff, 0xff, 0xff, 0x80, 0x00, 0x00, 0x00, 0x50, 0x18] ++
  [0xff, 0xff, 0x12, 0x34, 0x00, 0x00, 0x47, 0x45, 0x54, 0x20, 0x2f, 0x20, 0x48, 0x54, 0x54, 0x50] ++
  [0x2f, 0x31, 0x2e, 0x30, 0x0d, 0x0a, 0x0d, 0x0a, 0x00, 0xff]

/-- Frame P3 of the spec. -/
def frameP3 : List Byte :=
  [0x00, 0x03, 0xba, 0x12, 0xde, 0x6b, 0x00, 0x00, 0x0c, 0x07, 0xac, 0x00, 0x08, 0x00, 0x45, 0x00] ++
  [0x00, 0x25, 0x12, 0x34, 0x00, 0x00, 0x40, 0x11, 0x00, 0x00, 0x0a, 0x00, 0x00, 0x01, 0x0a, 0x00] ++
  [0x00, 0x02, 0x00, 0x35, 0xd4, 0x31, 0x00, 0x11, 0xbe, 0xef, 0x48, 0x69, 0x20, 0x74, 0x68, 0x65] ++
  [0x72, 0x65, 0x7f]

/-- Frame P5 of the spec. -/
def frameP5 : List Byte :=
  [0x00, 0x03, 0xba, 0x12, 0xde, 0x6b, 0x00, 0x00, 0x0c, 0x07, 0xac, 0x00, 0x08, 0x00, 0x46, 0x00] ++
  [0x00, 0x20, 0x00, 0x01, 0x00, 0x00, 0x01, 0x02, 0x00, 0x00, 0x0a, 0x00, 0x00, 0x01, 0xe0, 0x00] ++
  [0x00, 0x01, 0x94, 0x04, 0x00, 0x00, 0x11, 0x64, 0xee, 0x9b]

/-- The unit after reset with a frame placed. -/
def ready (f : List Byte) : State := State.reset.placeFrame f

/-- The unit with the cursor moved. -/
def readyAt (f : List Byte) (c : Nat) : State := (ready f).withCur c

/-- What a question answers on the next state, if there is one. -/
def onNext {α : Type} (o : Host.Outcome State Fault Refusal) (q : State → α) : Option α :=
  match o with
  | .next t => some (q t)
  | .fault _ => none
  | .refused _ => none

/-- The refusal, if there is one. -/
def refusalOf (o : Host.Outcome State Fault Refusal) : Option Refusal :=
  match o with
  | .next _ => none
  | .fault _ => none
  | .refused r => some r

/-- The fault, if there is one. -/
def faultOf (o : Host.Outcome State Fault Refusal) : Option Fault :=
  match o with
  | .next _ => none
  | .fault f => some f
  | .refused _ => none

/-- The unit after a DECODE of the frame. -/
def decoded (f : List Byte) : State :=
  match exec .decode (ready f) with
  | .next t => t
  | .fault _ => State.reset
  | .refused _ => State.reset

/-- The string an instruction returns. -/
def textOf (i : Instr) : Option Ret := onNext (exec i State.reset) State.ret

/-! ## The operand checks -/

theorem test_wf_refuses_be : Instr.wf (.be [1, 2, 3]) = false := by decide

theorem test_wf_refuses_bytes_size : Instr.wf (.bytes 1 3) = false := by decide

theorem test_wf_refuses_bytes_value : Instr.wf (.bytes 65536 2) = false := by decide

theorem test_wf_refuses_u8_low : Instr.wf (.u8 (-129)) = false := by decide

theorem test_wf_refuses_u8_high : Instr.wf (.u8 256) = false := by decide

theorem test_wf_refuses_bit_index : Instr.wf (.bit 8 1 8) = false := by decide

theorem test_wf_refuses_bit_value : Instr.wf (.bit 8 256 0) = false := by decide

theorem test_wf_refuses_bits_order : Instr.wf (.bits 8 1 3 4) = false := by decide

theorem test_wf_refuses_bits_high : Instr.wf (.bits 8 1 8 0) = false := by decide

theorem test_wf_refuses_bits_value : Instr.wf (.bits 8 256 7 0) = false := by decide

theorem test_wf_refuses_equal : Instr.wf (.equal 8 256 0) = false := by decide

theorem test_wf_refuses_line : Instr.wf (.line .ip ['\n']) = false := by decide

theorem test_wf_refuses_kv : Instr.wf (.kv [] ['\t']) = false := by decide

theorem test_wf_refuses_annot : Instr.wf (.annot ['\n'] []) = false := by decide

theorem test_wf_refuses_flaglabel : Instr.wf (.flaglabel ['\n'] 1) = false := by decide

theorem test_wf_refuses_dumpRow_empty : Instr.wf (.dumpRow []) = false := by decide

theorem test_wf_refuses_dumpRow_long : Instr.wf (.dumpRow (List.replicate 17 0)) = false := by decide

theorem test_wf_refuses_dump : Instr.wf (.dump .tcp (List.replicate 65 0)) = false := by decide +kernel

theorem test_step_refuses_ill_formed : refusalOf (step (State.reset.start (.be [1, 2, 3]))) = some .illFormed := by
  decide

/-! ## Decoding: the words of each class, field by field -/

theorem test_decode_eth : decodeAt 0 frameP1 = .instr (.eth 0x0003ba12de6b 0x00000c07ac00 0x0800) := by decide

theorem test_decode_ipv4 : decodeAt 14 frameP2 =
    .instr (.ipv4 4 5 0x10 60 42 0x2005 64 6 0xabcd 0xc0a80001 0x0a0000fe) := by decide

theorem test_decode_icmp : decodeAt 34 frameP1 = .instr (.icmp 8 0 0x9a4e) := by decide

theorem test_decode_tcp : decodeAt 34 frameP2 =
    .instr (.tcp 0xc001 80 0xffffffff 0x80000000 5 0x18 0xffff 0x1234 0) := by decide

theorem test_decode_udp : decodeAt 34 frameP3 = .instr (.udp 53 54321 17 0xbeef) := by decide

theorem test_decode_ethOnly :
    decodeAt 14 [0xff, 0xff, 0xff, 0xff, 0xff, 0xff, 0, 0, 0x0c, 7, 0xac, 0, 0x08, 0x06] = .instr .ethOnly := by
  decide

theorem test_decode_ipUnknown : decodeAt 34 frameP5 = .instr .ipUnknown := by decide

theorem test_decode_short_tcp : decodeAt 34 (frameP2.take 53) = .rejected (.truncated .tcp) := by decide

theorem test_decode_between_headers : decodeAt 15 frameP2 = .rejected .noHeaderAt := by decide

theorem test_tableWord_udp :
    decodeTableWord 192 (0x08 * 2 ^ 96 + 0x11 * 2 ^ 184) = some (.udp 0 0 0 0) := by decide

theorem test_withFetchWord_runs_icmp :
    onNext (step (State.reset.withFetchWord 192 (0x08 * 2 ^ 96 + 0x01 * 2 ^ 184)))
      (fun t => (t.status, t.df.tag, t.df.icmpType)) = some (.ok, .icmp, some 0) := by decide

theorem test_encode_eth : encode (.eth 0x0003ba12de6b 0x00000c07ac00 0x0800) = some (frameP1.take 14) := by decide

/-! ## The header classes as steps -/

theorem test_step_eth : onNext (step (ready frameP1).startHeaders)
    (fun t => (t.cur, t.df.ethType, t.pending)) = some (14, some 0x0800, .header) := by decide

theorem test_step_ipv4 : onNext (exec (.ipv4 4 6 0 32 1 0 1 2 0 0x0a000001 0xe0000001) (readyAt frameP5 14))
    (fun t => (t.cur, t.df.ipHlen, t.df.ipValid)) = some (34, some 24, true) := by decide

theorem test_step_tcp : onNext (exec (.tcp 0xc001 80 0xffffffff 0x80000000 5 0x18 0xffff 0x1234 0)
    (readyAt frameP2 34)) (fun t => (t.cur, t.df.sampleLen, t.df.tcpSeq)) = some (74, 40, some 0xffffffff) := by
  decide

theorem test_step_udp_short : onNext (exec (.udp 53 54321 17 0xbeef) (readyAt (frameP3.take 41) 34))
    (fun t => (t.status, t.errHdr)) = some (.truncated, some .udp) := by decide

/-! ## The primitives (95_test_vectors.md 2.1) -/

theorem test_require_raises : onNext (exec (.require 20 .ipv4) (readyAt (frameP1.take 33) 14))
    (fun t => (t.status, t.errHdr, t.cur)) = some (.truncated, some .ipv4, 14) := by decide

theorem test_require_passes : onNext (exec (.require 20 .ipv4) (readyAt (frameP1.take 34) 14))
    (fun t => (t.status, t.cur)) = some (.idle, 14) := by decide

theorem test_rd8 : onNext (exec (.rd8 .ipv4) (readyAt frameP1 22)) (fun t => (t.ret, t.cur)) =
    some (.num 255, 23) := by decide

theorem test_rd16 : onNext (exec (.rd16 .eth) (readyAt frameP1 12)) (fun t => (t.ret, t.cur)) =
    some (.num 2048, 14) := by decide

theorem test_rd32 : onNext (exec (.rd32 .tcp) (readyAt frameP2 38)) (fun t => (t.ret, t.cur)) =
    some (.num 4294967295, 42) := by decide

theorem test_rdb : onNext (exec (.rdb 6 .eth) (ready frameP1)) (fun t => (t.ret, t.cur)) =
    some (.bytes [0x00, 0x03, 0xba, 0x12, 0xde, 0x6b], 6) := by decide

theorem test_be : textOf (.be [0x80, 0, 0, 0]) = some (.num 2147483648) := by decide

theorem test_bytes : textOf (.bytes 0x0a0000fe 4) = some (.bytes [10, 0, 0, 254]) := by decide

theorem test_u8 : textOf (.u8 (-128)) = some (.num 128) := by decide

theorem test_bit : textOf (.bit 16 0x2005 13) = some (.num 1) := by decide

theorem test_bits : textOf (.bits 8 0xd2 5 0) = some (.num 18) := by decide

theorem test_mul4 : textOf (.mul4 15) = some (.num 60) := by decide

theorem test_mul8 : textOf (.mul8 8191) = some (.num 65528) := by decide

theorem test_minOf : textOf (.minOf 64 63) = some (.num 63) ∧ textOf (.minOf 64 65) = some (.num 64) := by decide

theorem test_equal : textOf (.equal 16 0x0801 0x0800) = some (.bool false) := by decide

/-! ## The Decoder (95_test_vectors.md 2.2) -/

theorem test_parseIpv4 : onNext (exec .parseIpv4 (readyAt frameP5 14))
    (fun t => (t.df.ipVersion, t.df.ipHlen, t.df.ipProto, t.cur)) = some (some 4, some 24, some 2, 34) := by decide

theorem test_captureSample : onNext (exec .captureSample (readyAt (frameP3.take 42) 42))
    (fun t => (t.df.sample, t.cur)) = some ([0x00, 0x35, 0xd4, 0x31, 0x00, 0x11, 0xbe, 0xef], 42) := by decide

theorem test_decode_short_icmp : onNext (exec .decode (ready (frameP1.take 37)))
    (fun t => (t.status, t.errHdr, t.df.ipValid)) = some (.truncated, some .icmp, false) := by decide +kernel

theorem test_decode_unknown : onNext (exec .decode (ready (frameP5.take 34)))
    (fun t => (t.df.tag, t.df.diag, t.cur)) = some (.unknown, true, 34) := by decide +kernel

/-! ## The formats (95_test_vectors.md 2.3) -/

theorem test_hex2 : textOf (.hex2 0xa5) = some (.text (txt "a5")) := by decide

theorem test_hexbytes : textOf (.hexbytes [0x00, 0x0a]) = some (.text (txt "0x000a")) := by decide

theorem test_dec : textOf (.dec 4294967295) = some (.text (txt "4294967295")) ∧
    textOf (.dec 0) = some (.text (txt "0")) := by decide

theorem test_fmtMac : textOf (.fmtMac 0x0a0b0c0d0e0f) = some (.text (txt "0a:0b:0c:0d:0e:0f")) := by decide

theorem test_fmtIp4 : textOf (.fmtIp4 0x0a0000fe) = some (.text (txt "10.0.0.254")) := by decide

theorem test_tagPrefix : textOf (.tagPrefix .ip) = some (.text (txt "IP:     ")) := by decide

theorem test_kv : textOf (.kv (txt "Source") (txt "00:00:0c:07:ac:00")) =
    some (.text (txt "Source = 00:00:0c:07:ac:00")) := by decide

theorem test_mask8 : textOf (.mask8 4 0) = some (.text (txt "...0 ....")) ∧
    textOf (.mask8 3 1) = some (.text (txt ".... 1...")) := by decide

theorem test_annot : textOf (.annot (txt "..0. ....") (txt "last fragment")) =
    some (.text (txt "      ..0. .... = last fragment")) := by decide

theorem test_flaglabel : textOf (.flaglabel (txt "Urgent") 0) = some (.text (txt "No Urgent")) := by decide

theorem test_dumpRow : textOf (.dumpRow [0x00, 0x20, 0x2e, 0x7e, 0x7f, 0x80, 0xff]) =
    some (.text (txt "0020 2e7e 7f80 ff                       . .~............")) := by decide +kernel

theorem test_asciiCh : textOf (.asciiCh 0x7e) = some (.text (txt "~")) ∧
    textOf (.asciiCh 0x7f) = some (.text (txt ".")) := by decide

theorem test_dump : onNext (exec (.dump .udp (frameP3.drop 34)) State.reset) State.lines = some [
    txt "UDP:    0035 d431 0011 beef 4869 2074 6865 7265 .5.1....Hi there",
    txt "UDP:    7f                                      ................"] := by decide +kernel

/-! ## The sections and transactions -/

theorem test_ipflagsByte : onNext (exec .ipflagsByte (decoded frameP2)) State.ret = some (.num 0x20) := by decide +kernel

theorem test_renderDiag : onNext (exec .renderDiag (decoded frameP5)) State.lines =
    some [txt "IP:     Unsupported protocol = 2"] := by decide +kernel

theorem test_run_udp : onNext (exec .run (ready frameP3)) (fun t => (t.status, t.nLines)) = some (.ok, 39) := by
  decide +kernel

theorem test_run_tcp_line : onNext (exec .run (ready frameP2)) (fun t => t.lines[35]?) =
    some (some (txt "TCP:    Flags = 0x18")) := by decide +kernel

theorem test_run_short : onNext (exec .run (ready (frameP2.take 53))) (fun t => (t.status, t.nLines)) =
    some (.truncated, 0) := by decide +kernel

/-! ## Witnesses: states and operands that meet the hypotheses of the statements -/

theorem witness_TruncatedInputEntryDiscardsRecord : (readyAt (frameP1.take 33) 14).len <
      (readyAt (frameP1.take 33) 14).cur + 20 ∧
    onNext (exec .decode (ready (frameP1.take 33))) State.status = some .truncated := by decide +kernel

theorem witness_BytesInvertsBe : (0x9a4e : Nat) < 256 ^ 2 ∧ (0 : Nat) < 256 ^ 0 ∧ 0 < 2 ∧ 1 < 2 := by decide

theorem witness_U8NormalisesSignedByte : ((-128 : Int) ≤ -128 ∧ (-128 : Int) ≤ 255) ∧
    ((-128 : Int) ≤ 255 ∧ (255 : Int) ≤ 255) := by decide

theorem witness_BitAndBitsExtractPositions : (15 < 16 ∧ 0x8000 < 2 ^ 16) ∧
    (7 < 8 ∧ 7 ≤ 7 ∧ 0xff < 2 ^ 8) ∧ (7 < 8 ∧ 0 ≤ 7 ∧ 0xff < 2 ^ 8) := by decide

theorem witness_CaptureSampleTakesTransportBytes : 34 ≤ (ready (frameP3.take 34)).len := by decide

theorem witness_CaptureSampleStopsBelowOffset34 : (ready (frameP3.take 33)).len < 34 ∧
    faultOf (exec .captureSample (ready (frameP3.take 33))) = some .offsetAbsent := by decide

theorem witness_TransportClassesFinishDecode : 34 ≤ (readyAt (frameP2.take 34) 14).len ∧
    (readyAt (frameP2.take 34) 14).cur + 20 = (readyAt (frameP2.take 34) 14).len := by decide

theorem witness_DecodeEncodeRoundTrip : encode (.icmp 8 0 0x9a4e) =
    some (List.replicate 12 0 ++ [0x08, 0x00] ++ List.replicate 9 0 ++ [1] ++ List.replicate 10 0 ++
      [8, 0, 0x9a, 0x4e]) := by decide

theorem witness_FetchFollowsDispatchMap : (ready []).cur = 0 ∧
    ((readyAt (frameP1.take 14) 14).cur = 14 ∧ 14 ≤ (readyAt (frameP1.take 14) 14).len) ∧
    ((readyAt (frameP1.take 34) 34).cur = 34 ∧ 34 ≤ (readyAt (frameP1.take 34) 34).len ∧
      (readyAt (frameP1.take 34) 34).halfAt 12 = 0x0800) ∧
    ((readyAt frameP1 13).cur ≠ 0 ∧ (readyAt frameP1 13).cur ≠ 14 ∧ (readyAt frameP1 13).cur ≠ 34) := by decide

theorem witness_StepRunsStartedOperation : (State.reset.start .run).pending = .op .run := by decide +kernel

theorem witness_StepRunsFetchedHeader : ((ready frameP1).startHeaders.pending = .header ∧
      decodeAt (ready frameP1).startHeaders.cur (ready frameP1).startHeaders.visibleFrame =
        .instr (.eth 0x0003ba12de6b 0x00000c07ac00 0x0800)) ∧
    decodeAt (ready []).startHeaders.cur (ready []).startHeaders.visibleFrame = .rejected (.truncated .eth) ∧
    decodeAt ((ready frameP1).startHeaders.withCur 1).cur
      ((ready frameP1).startHeaders.withCur 1).visibleFrame = .rejected .noHeaderAt := by decide

theorem witness_IdleUnitHoldsItsState : (decoded frameP1).pending = .idle := by decide +kernel

/-- P3 with another byte beyond offset 97, other registers, and an earlier record. -/
def otherP3 : State :=
  { decoded frameP2 with
    frame := Memory.write (Memory.ofBytesAt 0 frameP3) 200 7
    len := frameP3.length
    cur := 5 }

theorem witness_DependsOnVisibleBytesOnly : (ready frameP3).len = otherP3.len ∧
    (∀ a < min (ready frameP3).len 98, (ready frameP3).byteAt a = otherP3.byteAt a) ∧
    ready frameP3 ≠ otherP3 := by decide

theorem witness_TransactionLeavesCoherentRecord : (Instr.decode = .decode ∨ Instr.decode = .run) ∧
    (Instr.run = .decode ∨ Instr.run = .run) := by decide +kernel

theorem witness_FrameIsNeverWritten : onNext (exec .run (ready frameP2)) State.len = some 74 := by decide +kernel

theorem witness_DumpRowColumns : (1 ≤ [(0x41 : Byte)].length ∧ [(0x41 : Byte)].length ≤ 16) ∧
    (1 ≤ (frameP1.take 16).length ∧ (frameP1.take 16).length ≤ 16) := by decide

theorem witness_DumpEmitsRows : (frameP2.take 64).length ≤ 64 ∧ ([] : List Byte).length ≤ 64 := by decide

theorem witness_RenderEtherLines : (decoded frameP1).df.frameSize = some 42 ∧
    (decoded frameP1).df.ethDst = some 0x0003ba12de6b ∧ (decoded frameP1).df.ethSrc = some 0x00000c07ac00 ∧
    (decoded frameP1).df.ethType = some 0x0800 := by decide +kernel

/-- Also the witness of IpflagsByteKeepsTopThreeBits and of the DIAG clause of RenderDiagAndIcmpLines. -/
theorem witness_RenderIpLines : (decoded frameP2).df.ipVersion = some 4 ∧ (decoded frameP2).df.ipHlen = some 20 ∧
    (decoded frameP2).df.ipTos = some 0x10 ∧ (decoded frameP2).df.ipTotalLen = some 60 ∧
    (decoded frameP2).df.ipId = some 42 ∧ (decoded frameP2).df.ipFlagsFrag = some 0x2005 ∧
    (decoded frameP2).df.ipTtl = some 64 ∧ (decoded frameP2).df.ipProto = some 6 ∧
    (decoded frameP2).df.ipCksum = some 0xabcd ∧ (decoded frameP2).df.ipSrc = some 0xc0a80001 ∧
    (decoded frameP2).df.ipDst = some 0x0a0000fe := by decide +kernel

theorem witness_RenderDiagAndIcmpLines : (decoded frameP5).df.ipProto = some 2 ∧
    (decoded frameP1).df.icmpType = some 8 ∧ (decoded frameP1).df.icmpCode = some 0 ∧
    (decoded frameP1).df.icmpCksum = some 0x9a4e := by decide +kernel

/-- The empty sample and a sample of 40 bytes. -/
theorem witness_RenderDataLines :
    (decoded frameP1).df.sample.length = (decoded frameP1).df.sampleLen.toNat ∧
    (decoded frameP2).df.sample.length = (decoded frameP2).df.sampleLen.toNat ∧
    (decoded frameP2).df.sampleLen = 40 := by decide +kernel

theorem witness_RenderTcpLines : (decoded frameP2).df.tcpSport = some 0xc001 ∧
    (decoded frameP2).df.tcpDport = some 80 ∧ (decoded frameP2).df.tcpSeq = some 0xffffffff ∧
    (decoded frameP2).df.tcpAck = some 0x80000000 ∧ (decoded frameP2).df.tcpDoff = some 5 ∧
    (decoded frameP2).df.tcpFlags = some 0x18 ∧ (decoded frameP2).df.tcpWindow = some 0xffff ∧
    (decoded frameP2).df.tcpCksum = some 0x1234 ∧ (decoded frameP2).df.tcpUrgptr = some 0 ∧
    (decoded frameP2).df.sample.length = (decoded frameP2).df.sampleLen.toNat := by decide +kernel

theorem witness_RenderUdpLines : (decoded frameP3).df.udpSport = some 53 ∧
    (decoded frameP3).df.udpDport = some 54321 ∧ (decoded frameP3).df.udpLen = some 17 ∧
    (decoded frameP3).df.udpCksum = some 0xbeef ∧
    (decoded frameP3).df.sample.length = (decoded frameP3).df.sampleLen.toNat := by decide +kernel

/-- A record that claims one sample byte and holds none. -/
def noSample : State := State.reset.withDf fun d => { d with sampleLen := 1 }

theorem witness_SectionWithoutValueIsRefused : State.reset.df.frameSize = none ∧
    State.reset.df.ipDst = none ∧ State.reset.df.ipProto = none ∧ State.reset.df.ipFlagsFrag = none ∧
    State.reset.df.icmpCksum = none ∧ State.reset.df.tcpUrgptr = none ∧ State.reset.df.udpCksum = none ∧
    noSample.df.sample.length < noSample.df.sampleLen.toNat := by decide

theorem witness_RendererOnlyAppendsReportLines :
    onNext (exec .renderEther (decoded frameP1)) State.nLines = some 7 ∧
    onNext (exec .renderIp (decoded frameP1)) State.nLines = some 21 ∧
    onNext (exec .renderDiag (decoded frameP1)) State.nLines = some 1 ∧
    onNext (exec .renderIcmp (decoded frameP1)) State.nLines = some 6 ∧
    onNext (exec .renderTcp (decoded frameP2)) State.nLines = some 23 ∧
    onNext (exec .renderUdp (decoded frameP3)) State.nLines = some 11 ∧
    onNext (exec (.renderData .udp) (decoded frameP3)) State.nLines = some 4 ∧
    onNext (exec (.blank .ip) State.reset) State.nLines = some 1 ∧
    onNext (exec (.dump .udp [1]) State.reset) State.nLines = some 1 ∧
    (Text.printable (txt " ~") = true ∧ onNext (exec (.line .ip (txt " ~")) State.reset) State.nLines = some 1) := by
  decide +kernel

theorem witness_RenderRunsSectionsOfRecord : onNext (exec .render (decoded frameP1)) State.nLines = some 34 := by
  decide +kernel

/-- The smallest record: a frame of 14 bytes. -/
def ethOnlyRecord : Record :=
  { Record.empty with
    ethDst := some 1, ethSrc := some 2, ethType := some 0x0806, ethValid := true, frameSize := some 14 }

/-- A record with the largest sample: a TCP frame of 98 bytes. -/
def tcpRecord : Record :=
  { ethOnlyRecord with
    ethType := some 0x0800, ipVersion := some 4, ipHlen := some 20, ipTos := some 0, ipTotalLen := some 84,
    ipId := some 0, ipFlagsFrag := some 0, ipTtl := some 1, ipProto := some 6, ipCksum := some 0,
    ipSrc := some 1, ipDst := some 2, ipValid := true, tcpSport := some 1, tcpDport := some 2,
    tcpSeq := some 3, tcpAck := some 4, tcpDoff := some 5, tcpFlags := some 2, tcpWindow := some 6,
    tcpCksum := some 7, tcpUrgptr := some 8, tag := .tcp, frameSize := some 98,
    sample := List.replicate 64 7, sampleLen := 64 }

theorem witness_RenderCompletesWithLineCount :
    (decoded frameP1).status = .ok ∧ ethOnlyRecord.complete 14 ∧ tcpRecord.complete 98 := by
  refine ⟨by decide +kernel, ?_, ?_⟩ <;> unfold Record.complete <;>
    refine ⟨rfl, by decide, rfl, ⟨rfl, rfl, rfl⟩, by decide, by decide,
      ⟨rfl, rfl, rfl, rfl, rfl, rfl, rfl, rfl, rfl, rfl, rfl⟩, rfl, by decide, ⟨rfl, rfl, rfl⟩,
      ⟨rfl, rfl, rfl, rfl, rfl, rfl, rfl, rfl, rfl⟩, ⟨rfl, rfl, rfl, rfl⟩, by decide, by decide, by decide,
      rfl, rfl⟩

theorem witness_LinesHaveAtMost64Characters : (ready frameP2).len < 10 ^ 36 ∧
    onNext (exec .run (ready frameP2)) State.nLines = some 51 := by decide +kernel

/-- A state of the invariant between transactions, with the operation of its second clause. -/
theorem witness_StepKeepsInvariant : (ready frameP3).invariant ∧ step (ready frameP3) = .next (ready frameP3) ∧
    (ready frameP3).pending = .idle ∧
    Instr.hostStarted .run = true :=
  ⟨⟨by decide, by decide, by decide, (by intro l hl; cases hl), rfl, rfl, rfl⟩, rfl, rfl, rfl⟩

/-- States of the invariant whose step does something: a started transaction, and a chain in progress. -/
theorem witness_StepUnderInvariantNeverStops : ((ready frameP3).start .run).invariant ∧
    (ready frameP3).startHeaders.invariant :=
  ⟨⟨by decide, by decide, by decide, (by intro l hl; cases hl), rfl, rfl, rfl, rfl⟩,
    ⟨by decide, by decide, by decide, (by intro l hl; cases hl), rfl, rfl, rfl, .inl ⟨rfl, rfl⟩⟩⟩

end Sys2Proof.Tests
end

section
/-! O34: no instruction writes `FRAME` or `LEN` (R14, R22, R23). The rules of the shared operations stand in
Laws/Frame.lean; here they are carried to the Decoder's and the Renderer's operations, and from these to every
arm of `exec`. -/

namespace Sys2Proof.Machine

/-! ## The updates of the state, and operations in order -/

theorem State.sameFrame_refl (s : State) : s.sameFrame s := ⟨rfl, rfl⟩

theorem State.sameFrame_trans {s t u : State} (hst : s.sameFrame t) (htu : t.sameFrame u) : s.sameFrame u :=
  ⟨htu.1.trans hst.1, htu.2.trans hst.2⟩

theorem State.sameFrame_withCur (s : State) (c : Nat) : s.sameFrame (s.withCur c) := ⟨rfl, rfl⟩

theorem State.sameFrame_withPending (s : State) (p : Pending) : s.sameFrame (s.withPending p) := ⟨rfl, rfl⟩

theorem State.sameFrame_clearLines (s : State) : s.sameFrame s.clearLines := ⟨rfl, rfl⟩

theorem State.sameFrame_beginDecode (s : State) : s.sameFrame s.beginDecode := ⟨rfl, rfl⟩

theorem State.sameFrame_finishDecode (s : State) : s.sameFrame s.finishDecode := ⟨rfl, rfl⟩

theorem State.sameFrame_resetUnit (s : State) : s.sameFrame s.resetUnit := ⟨rfl, rfl⟩

theorem keepsFrame_skipOp : keepsFrame skipOp := State.sameFrame_refl

theorem keepsFrame_seqOps_cons {x : Op Unit} {xs : List (Op Unit)} (hx : keepsFrame x)
    (hxs : keepsFrame (seqOps xs)) : keepsFrame (seqOps (x :: xs)) :=
  keepsFrame_bindOp hx fun _ => hxs

theorem keepsFrame_seqOps_pair {x y : Op Unit} (hx : keepsFrame x) (hy : keepsFrame y) :
    keepsFrame (seqOps [x, y]) :=
  keepsFrame_seqOps_cons hx (keepsFrame_seqOps_cons hy keepsFrame_skipOp)

theorem keepsFrame_ite {α : Type} {c : Prop} [Decidable c] {x y : Op α} (hx : keepsFrame x)
    (hy : keepsFrame y) : keepsFrame (if c then x else y) := by
  split <;> assumption

/-! ## The Decoder (R131 to R139) -/

theorem keepsFrame_loadBytes (n : Nat) (h : Hdr) (f : List Byte → Record → Record) :
    keepsFrame (load (readBytesAtCur n h) f) :=
  keepsFrame_load f (keepsFrame_readBytesAtCur n h)

theorem keepsFrame_load8 (h : Hdr) (f : BitVec 8 → Record → Record) : keepsFrame (load (readU8 h) f) :=
  keepsFrame_load f (keepsFrame_readU8 h)

theorem keepsFrame_load16 (h : Hdr) (f : BitVec 16 → Record → Record) : keepsFrame (load (readU16 h) f) :=
  keepsFrame_load f (keepsFrame_readU16 h)

theorem keepsFrame_load32 (h : Hdr) (f : BitVec 32 → Record → Record) : keepsFrame (load (readU32 h) f) :=
  keepsFrame_load f (keepsFrame_readU32 h)

theorem keepsFrame_parseEthOp : keepsFrame parseEthOp := by
  apply keepsFrame_seqOps
  simp only [List.forall_mem_cons, List.not_mem_nil, false_implies, implies_true, and_true,
    keepsFrame_requireBytes, keepsFrame_loadBytes, keepsFrame_load16, keepsFrame_writeDf]

theorem keepsFrame_parseIpv4Op : keepsFrame parseIpv4Op := by
  apply keepsFrame_seqOps
  simp only [List.forall_mem_cons, List.not_mem_nil, false_implies, implies_true, and_true,
    keepsFrame_requireBytes, keepsFrame_load8, keepsFrame_load16, keepsFrame_load32, keepsFrame_writeDf]

theorem keepsFrame_parseIcmpOp : keepsFrame parseIcmpOp := by
  apply keepsFrame_seqOps
  simp only [List.forall_mem_cons, List.not_mem_nil, false_implies, implies_true, and_true,
    keepsFrame_requireBytes, keepsFrame_load8, keepsFrame_load16, keepsFrame_writeDf]

theorem keepsFrame_parseTcpOp : keepsFrame parseTcpOp := by
  apply keepsFrame_seqOps
  simp only [List.forall_mem_cons, List.not_mem_nil, false_implies, implies_true, and_true,
    keepsFrame_requireBytes, keepsFrame_load8, keepsFrame_load16, keepsFrame_load32, keepsFrame_writeDf]

theorem keepsFrame_parseUdpOp : keepsFrame parseUdpOp := by
  apply keepsFrame_seqOps
  simp only [List.forall_mem_cons, List.not_mem_nil, false_implies, implies_true, and_true,
    keepsFrame_requireBytes, keepsFrame_load16, keepsFrame_writeDf]

theorem keepsFrame_parseUnknownOp : keepsFrame parseUnknownOp := keepsFrame_writeDf _

theorem keepsFrame_readSample (h : Hdr) : keepsFrame (readSample h) := fun s =>
  keepsFrame_readBytesAtCur _ h s

theorem keepsFrame_captureSampleOp (h : Hdr) : keepsFrame (captureSampleOp h) := fun s =>
  Res.sameFrame_ite trivial <|
    keepsFrame_seqOps_pair (keepsFrame_modifyOp fun u => u.sameFrame_withCur Config.t0)
      (keepsFrame_load _ (keepsFrame_readSample h)) s

theorem keepsFrame_dispatchProto : keepsFrame dispatchProto :=
  keepsFrame_bindOp (keepsFrame_readReg _ _) fun _ =>
    keepsFrame_ite keepsFrame_parseIcmpOp <|
    keepsFrame_ite (keepsFrame_seqOps_pair keepsFrame_parseTcpOp (keepsFrame_captureSampleOp .tcp)) <|
    keepsFrame_ite (keepsFrame_seqOps_pair keepsFrame_parseUdpOp (keepsFrame_captureSampleOp .udp))
      keepsFrame_parseUnknownOp

theorem keepsFrame_dispatchEtype : keepsFrame dispatchEtype :=
  keepsFrame_bindOp (keepsFrame_readReg _ _) fun _ =>
    keepsFrame_ite (keepsFrame_seqOps_pair keepsFrame_parseIpv4Op keepsFrame_dispatchProto) keepsFrame_skipOp

theorem keepsFrame_thenFinish : keepsFrame thenFinish := keepsFrame_modifyOp State.sameFrame_finishDecode

theorem keepsFrame_decodeOp : keepsFrame decodeOp :=
  keepsFrame_seqOps_cons (keepsFrame_modifyOp State.sameFrame_beginDecode) <|
  keepsFrame_seqOps_cons keepsFrame_parseEthOp <|
  keepsFrame_seqOps_pair keepsFrame_dispatchEtype keepsFrame_thenFinish

/-! ## The header classes (R80, R81): a header and its hand-over, with the sample between them or not -/

theorem keepsFrame_headerThenNext (n : Nat) (h : Hdr) (f : Record → Record) :
    keepsFrame (seqOps [headerOp n h f, thenNextHeader]) :=
  keepsFrame_seqOps_pair (keepsFrame_headerOp n h f) (keepsFrame_modifyOp fun u => u.sameFrame_withPending .header)

theorem keepsFrame_headerThenFinish (n : Nat) (h : Hdr) (f : Record → Record) :
    keepsFrame (seqOps [headerOp n h f, thenFinish]) :=
  keepsFrame_seqOps_pair (keepsFrame_headerOp n h f) keepsFrame_thenFinish

theorem keepsFrame_headerSampleFinish (n : Nat) (h k : Hdr) (f : Record → Record) :
    keepsFrame (seqOps [headerOp n h f, captureSampleOp k, thenFinish]) :=
  keepsFrame_seqOps_cons (keepsFrame_headerOp n h f) <|
    keepsFrame_seqOps_pair (keepsFrame_captureSampleOp k) keepsFrame_thenFinish

/-! ## The Renderer (R163, R171, R182): a section only emits -/

theorem keepsFrame_renderTransportOp : keepsFrame renderTransportOp := by
  intro s
  unfold renderTransportOp
  cases s.df.tag with
  | none => exact keepsFrame_skipOp s
  | icmp => exact keepsFrame_of_onlyEmits onlyEmits_renderIcmp s
  | tcp => exact keepsFrame_of_onlyEmits onlyEmits_renderTcp s
  | udp => exact keepsFrame_of_onlyEmits onlyEmits_renderUdp s
  | unknown => exact keepsFrame_of_onlyEmits onlyEmits_renderDiag s

theorem keepsFrame_renderIpPartOp : keepsFrame renderIpPartOp := fun s =>
  Res.sameFrame_ite
    (keepsFrame_seqOps_pair (keepsFrame_of_onlyEmits onlyEmits_renderIp) keepsFrame_renderTransportOp s)
    (keepsFrame_skipOp s)

theorem keepsFrame_renderOp : keepsFrame renderOp := fun s =>
  Res.sameFrame_ite
    (keepsFrame_seqOps_cons (keepsFrame_modifyOp State.sameFrame_clearLines)
      (keepsFrame_seqOps_pair (keepsFrame_of_onlyEmits onlyEmits_renderEther) keepsFrame_renderIpPartOp) s)
    (keepsFrame_skipOp s)

/-! ## Every instruction -/

/-- A RUN that completes is RENDER from the state in which DECODE completed or took TruncatedInput (R183). -/
theorem execRun_next {s t : State} (e : execRun s = .next t) :
    ∃ u, (decodeOp s = .ok () u ∨ decodeOp s = .trap u) ∧ procedure (renderOp u) = .next t := by
  unfold execRun at e
  cases hd : decodeOp s with
  | ok _ u => exact ⟨u, .inl rfl, by simpa only [hd] using e⟩
  | trap u => exact ⟨u, .inr rfl, by simpa only [hd] using e⟩
  | fault f => simp [hd] at e
  | refuse r => simp [hd] at e

theorem execRun_sameFrame {s t : State} (e : execRun s = .next t) : s.sameFrame t := by
  obtain ⟨u, hu, ht⟩ := execRun_next e
  have hdecode : s.sameFrame u := by
    have k := keepsFrame_decodeOp s
    obtain hu | hu := hu <;> rw [hu] at k <;> exact k
  exact State.sameFrame_trans hdecode (procedure_sameFrame keepsFrame_renderOp ht)

theorem execReset_sameFrame {s t : State} (e : execReset s = .next t) : s.sameFrame t := by
  cases e
  exact s.sameFrame_resetUnit

/-- Whatever the instruction, the next state has the frame and the length of the state before. -/
theorem exec_sameFrame {i : Instr} {s t : State} (e : exec i s = .next t) : s.sameFrame t := by
  cases i with
  | eth | ipv4 => exact procedure_sameFrame (keepsFrame_headerThenNext _ _ _) e
  | icmp => exact procedure_sameFrame (keepsFrame_headerThenFinish _ _ _) e
  | tcp | udp => exact procedure_sameFrame (keepsFrame_headerSampleFinish _ _ _ _) e
  | ethOnly => exact procedure_sameFrame keepsFrame_thenFinish e
  | ipUnknown =>
    exact procedure_sameFrame (keepsFrame_seqOps_pair keepsFrame_parseUnknownOp keepsFrame_thenFinish) e
  | require n h => exact procedure_sameFrame (keepsFrame_requireBytes n h) e
  | rd8 h => exact valued_sameFrame (keepsFrame_readU8 h) e
  | rd16 h => exact valued_sameFrame (keepsFrame_readU16 h) e
  | rd32 h => exact valued_sameFrame (keepsFrame_readU32 h) e
  | rdb n h => exact valued_sameFrame (keepsFrame_readBytesAtCur n h) e
  | be | bytes | u8 | bit | bits | mul4 | mul8 | minOf | equal => exact returns_sameFrame e
  | parseEth => exact procedure_sameFrame keepsFrame_parseEthOp e
  | parseIpv4 => exact procedure_sameFrame keepsFrame_parseIpv4Op e
  | parseIcmp => exact procedure_sameFrame keepsFrame_parseIcmpOp e
  | parseTcp => exact procedure_sameFrame keepsFrame_parseTcpOp e
  | parseUdp => exact procedure_sameFrame keepsFrame_parseUdpOp e
  | parseUnknown => exact procedure_sameFrame keepsFrame_parseUnknownOp e
  | captureSample => exact procedure_sameFrame (keepsFrame_captureSampleOp _) e
  | decode => exact procedure_sameFrame keepsFrame_decodeOp e
  | hex2 | hexbytes | dec | fmtMac | fmtIp4 | tagPrefix | kv | mask8 | annot | flaglabel | dumpRow | asciiCh =>
    exact returns_sameFrame e
  | line t c => exact procedure_sameFrame (keepsFrame_lineOp t c) e
  | blank t => exact procedure_sameFrame (keepsFrame_lineOp t []) e
  | dump t bs => exact procedure_sameFrame (keepsFrame_of_onlyEmits (onlyEmits_dump t bs)) e
  | renderEther => exact procedure_sameFrame (keepsFrame_of_onlyEmits onlyEmits_renderEther) e
  | renderIp => exact procedure_sameFrame (keepsFrame_of_onlyEmits onlyEmits_renderIp) e
  | ipflagsByte => exact valued_sameFrame (keepsFrame_readReg _ _) e
  | renderDiag => exact procedure_sameFrame (keepsFrame_of_onlyEmits onlyEmits_renderDiag) e
  | renderIcmp => exact procedure_sameFrame (keepsFrame_of_onlyEmits onlyEmits_renderIcmp) e
  | renderTcp => exact procedure_sameFrame (keepsFrame_of_onlyEmits onlyEmits_renderTcp) e
  | renderUdp => exact procedure_sameFrame (keepsFrame_of_onlyEmits onlyEmits_renderUdp) e
  | renderData t => exact procedure_sameFrame (keepsFrame_of_onlyEmits (onlyEmits_renderData t)) e
  | render => exact procedure_sameFrame keepsFrame_renderOp e
  | run => exact execRun_sameFrame e
  | reset => exact execReset_sameFrame e

/-- Settles O34: every arm of `exec` keeps the frame buffer and `LEN`, and a frame byte is read from the buffer. -/
theorem frameIsNeverWritten : Obligations.FrameIsNeverWritten := by
  intro i s t e
  obtain ⟨hframe, hlen⟩ := exec_sameFrame e
  exact ⟨byteAt_congr hframe, hframe, hlen⟩

end Sys2Proof.Machine
end

section
/-! What DECODE ends in (R139, R140), as one transaction and header by header (R80, R90, R91): the state after the
Ethernet header, the state after the IPv4 header, and the outcome that the transport header decides. -/

namespace Sys2Proof.Machine

/-! ## Sequences that stop, and outcomes that are next states -/

theorem seqOps_cons_fault {x : Op Unit} {xs : List (Op Unit)} {s : State} {f : Fault} (h : x s = .fault f) :
    seqOps (x :: xs) s = .fault f := by
  simp only [seqOps_cons, bindOp, h]

theorem seqOps_cons_refuse {x : Op Unit} {xs : List (Op Unit)} {s : State} {r : Refusal} (h : x s = .refuse r) :
    seqOps (x :: xs) s = .refuse r := by
  simp only [seqOps_cons, bindOp, h]

/-- A sequence depends on its first operation through that operation's outcome only. -/
theorem seqOps_cons_congr {x y : Op Unit} {xs : List (Op Unit)} {s t : State} (h : x s = y t) :
    seqOps (x :: xs) s = seqOps (y :: xs) t := by
  simp only [seqOps_cons, bindOp, h]

theorem procedure_next {r : Res Unit} {t : State} (e : procedure r = .next t) : r = .ok () t ∨ r = .trap t := by
  cases r with
  | ok _ u => cases e; exact .inl rfl
  | trap u => cases e; exact .inr rfl
  | fault f => cases e
  | refuse r => cases e

/-! ## The states between two header classes, and the outcome -/

/-- DECODE after the Ethernet header (R131). -/
def State.pastEth (s : State) : State := { s.beginDecode with df := s.ethRecord, cur := 14 }

/-- DECODE after the IPv4 header (R132). -/
def State.pastIp (s : State) : State := { s.beginDecode with df := s.ipRecord, cur := 34 }

/-- The lines of R140's table for a frame that carries an IPv4 header. -/
def State.transportOutcome (s : State) : State :=
  if s.byteAt 23 = 1 then
    if s.len < 38 then s.truncatedAs .icmp 34
    else s.decodedAs (s.icmpFields 34 s.ipRecord) 38
  else if s.byteAt 23 = 6 then
    if s.len < 54 then s.truncatedAs .tcp 34
    else s.decodedAs (s.sampleFields (s.tcpFields 34 s.ipRecord)) (34 + min 64 (s.len - 34))
  else if s.byteAt 23 = 17 then
    if s.len < 42 then s.truncatedAs .udp 34
    else s.decodedAs (s.sampleFields (s.udpFields 34 s.ipRecord)) (34 + min 64 (s.len - 34))
  else s.decodedAs { s.ipRecord with tag := .unknown, diag := true } 34

/-- The table of R140: the state in which a DECODE from `s` ends. -/
def State.decodeOutcome (s : State) : State :=
  if s.len < 14 then s.truncatedAs .eth 0
  else if s.halfAt 12 ≠ 0x0800 then s.decodedAs s.ethRecord 14
  else if s.len < 34 then s.truncatedAs .ipv4 14
  else s.transportOutcome

theorem decodeOutcome_of_ip {s : State} (h : 34 ≤ s.len) (he : s.halfAt 12 = 0x0800) :
    s.decodeOutcome = s.transportOutcome := by
  rw [State.decodeOutcome, if_neg (by omega), if_neg (not_not.mpr he), if_neg (Nat.not_lt.mpr h)]

/-! ## DECODE as one transaction -/

theorem parseEthOp_beginDecode {s : State} (h : 14 ≤ s.len) : parseEthOp s.beginDecode = .ok () s.pastEth :=
  parseEthOp_ok (s := s.beginDecode) (by simpa using h)

theorem parseIpv4Op_pastEth {s : State} (h : 34 ≤ s.len) : parseIpv4Op s.pastEth = .ok () s.pastIp :=
  parseIpv4Op_ok (s := s.pastEth) h

theorem dispatchEtype_pastEth (s : State) : dispatchEtype s.pastEth =
    if s.halfAt 12 = 0x0800 then seqOps [parseIpv4Op, dispatchProto] s.pastEth else .ok () s.pastEth :=
  dispatchEtype_eq rfl

theorem dispatchProto_pastIp (s : State) : dispatchProto s.pastIp =
    if s.byteAt 23 = 1 then parseIcmpOp s.pastIp
    else if s.byteAt 23 = 6 then seqOps [parseTcpOp, captureSampleOp .tcp] s.pastIp
    else if s.byteAt 23 = 17 then seqOps [parseUdpOp, captureSampleOp .udp] s.pastIp
    else parseUnknownOp s.pastIp :=
  dispatchProto_eq rfl

theorem seq_finish_ok {x : Op Unit} {s t : State} (h : x s = .ok () t) :
    procedure (seqOps [x, thenFinish] s) = .next t.finishDecode := by
  rw [seqOps_two_ok h]
  rfl

theorem seq_finish_trap {x : Op Unit} {s t : State} (h : x s = .trap t) :
    procedure (seqOps [x, thenFinish] s) = .next t := by
  rw [seqOps_cons_trap h]
  rfl

/-- Dispatch 2 and step 7 (R91, R139). -/
theorem dispatchProto_then_finish {s : State} (h : 34 ≤ s.len) :
    procedure (seqOps [dispatchProto, thenFinish] s.pastIp) = .next s.transportOutcome := by
  have hp := dispatchProto_pastIp s
  unfold State.transportOutcome
  split_ifs at hp ⊢ with c1 hl c6 hl c17 hl
  · exact seq_finish_trap (hp.trans (parseIcmpOp_short (s := s.pastIp) hl))
  · exact seq_finish_ok (hp.trans (parseIcmpOp_ok (s := s.pastIp) (Nat.le_of_not_lt hl)))
  · exact seq_finish_trap (hp.trans (seqOps_cons_trap (parseTcpOp_short (s := s.pastIp) hl)))
  · rw [seqOps_two_ok (parseTcpOp_ok (s := s.pastIp) (Nat.le_of_not_lt hl))] at hp
    exact seq_finish_ok (hp.trans (captureSampleOp_ok _ h))
  · exact seq_finish_trap (hp.trans (seqOps_cons_trap (parseUdpOp_short (s := s.pastIp) hl)))
  · rw [seqOps_two_ok (parseUdpOp_ok (s := s.pastIp) (Nat.le_of_not_lt hl))] at hp
    exact seq_finish_ok (hp.trans (captureSampleOp_ok _ h))
  · exact seq_finish_ok hp

/-- Dispatch 1 and what follows it (R90, R139). -/
theorem dispatchEtype_then_finish {s : State} (h : 14 ≤ s.len) :
    procedure (seqOps [dispatchEtype, thenFinish] s.pastEth) = .next s.decodeOutcome := by
  have he := dispatchEtype_pastEth s
  rw [State.decodeOutcome, if_neg (Nat.not_lt.mpr h)]
  by_cases c : s.halfAt 12 = 0x0800
  · rw [if_pos c] at he
    rw [if_neg (not_not.mpr c)]
    by_cases hl : s.len < 34
    · rw [if_pos hl]
      exact seq_finish_trap (he.trans (seqOps_cons_trap (parseIpv4Op_short (s := s.pastEth) hl)))
    · have hl' := Nat.le_of_not_lt hl
      rw [if_neg hl, seqOps_cons_congr (he.trans (seqOps_two_ok (parseIpv4Op_pastEth hl')))]
      exact dispatchProto_then_finish hl'
  · rw [if_neg c] at he
    rw [if_pos c]
    exact seq_finish_ok he

/-- DECODE ends as R140's table says, from every state. -/
theorem procedure_decodeOp (s : State) : procedure (decodeOp s) = .next s.decodeOutcome := by
  unfold decodeOp
  rw [seqOps_cons_ok (modifyOp_eq _ s)]
  by_cases h : s.len < 14
  · rw [seqOps_cons_trap (parseEthOp_short (s := s.beginDecode) (by simpa using h)), State.decodeOutcome, if_pos h]
    rfl
  · have h' := Nat.le_of_not_lt h
    rw [seqOps_cons_ok (parseEthOp_beginDecode h')]
    exact dispatchEtype_then_finish h'

/-- RUN is RENDER from the outcome of DECODE (R183). -/
theorem execRun_eq (s : State) : execRun s = procedure (renderOp s.decodeOutcome) := by
  unfold execRun
  obtain h | h := procedure_next (procedure_decodeOp s) <;> rw [h]

end Sys2Proof.Machine
end

section
/-! The header-by-header run (R80, R90, R91; log entry 3): what is fetched at each cursor position of a frame, and
that the chain goes through the states of DECODE and ends in its outcome. -/

namespace Sys2Proof.Machine

/-! ## The decoder over the visible frame (R7, R92) -/

theorem State.visibleFrame_eq (s : State) :
    s.visibleFrame = Memory.readBytes s.frame 0 (min s.len 98) := by
  rw [State.visibleFrame, minimumOf_eq, Config_maxRead]

@[simp] theorem State.visibleFrame_length (s : State) : s.visibleFrame.length = min s.len 98 := by
  simp [State.visibleFrame_eq]

/-- No row asks for more than 98 bytes, so its length check is one on `LEN`; behind it stand the fields that the
whole frame gives (R93). -/
theorem decodeRow_visible {r : Row} {n : Nat} {h : Hdr} {i j : Instr} {s : State} (hr : r.minLen = n)
    (hn : n ≤ 98) (hij : n ≤ s.len → i = j) :
    decodeRow r h s.visibleFrame i = if s.len < n then .rejected (.truncated h) else .instr j := by
  have hmin : min s.len 98 < n ↔ s.len < n := by omega
  simp only [decodeRow, State.visibleFrame_length, hr, hmin]
  by_cases hl : s.len < n
  · rw [if_pos hl, if_pos hl]
  · rw [if_neg hl, if_neg hl, hij (Nat.le_of_not_lt hl)]

theorem fieldsEth_visible {s : State} (h : 14 ≤ s.len) :
    fieldsEth s.visibleFrame = .eth (s.macAt 0) (s.macAt 6) (s.halfAt 12) := by
  rw [State.visibleFrame_eq, fieldsEth, field_readBytes_mac _ _ 0 (by omega),
    field_readBytes_mac _ _ 6 (by omega), field_readBytes_half _ _ 12 (by omega)]
  rfl

theorem fieldsIpv4_visible {s : State} (h : 34 ≤ s.len) : fieldsIpv4 s.visibleFrame =
    .ipv4 ((s.byteAt 14).extractLsb' 4 4) ((s.byteAt 14).extractLsb' 0 4) (s.byteAt 15) (s.halfAt 16)
      (s.halfAt 18) (s.halfAt 20) (s.byteAt 22) (s.byteAt 23) (s.halfAt 24) (s.wordAt 26) (s.wordAt 30) := by
  rw [State.visibleFrame_eq, fieldsIpv4, field_readBytes_bits _ _ 14 7 4 (by omega),
    field_readBytes_bits _ _ 14 3 0 (by omega), field_readBytes_byte _ _ 15 (by omega),
    field_readBytes_half _ _ 16 (by omega), field_readBytes_half _ _ 18 (by omega),
    field_readBytes_half _ _ 20 (by omega), field_readBytes_byte _ _ 22 (by omega),
    field_readBytes_byte _ _ 23 (by omega), field_readBytes_half _ _ 24 (by omega),
    field_readBytes_word _ _ 26 (by omega), field_readBytes_word _ _ 30 (by omega)]
  rfl

theorem fieldsIcmp_visible {s : State} (h : 38 ≤ s.len) :
    fieldsIcmp s.visibleFrame = .icmp (s.byteAt 34) (s.byteAt 35) (s.halfAt 36) := by
  rw [State.visibleFrame_eq, fieldsIcmp, field_readBytes_byte _ _ 34 (by omega),
    field_readBytes_byte _ _ 35 (by omega), field_readBytes_half _ _ 36 (by omega)]
  rfl

theorem fieldsTcp_visible {s : State} (h : 54 ≤ s.len) : fieldsTcp s.visibleFrame =
    .tcp (s.halfAt 34) (s.halfAt 36) (s.wordAt 38) (s.wordAt 42) ((s.byteAt 46).extractLsb' 4 4)
      ((s.byteAt 47).extractLsb' 0 6) (s.halfAt 48) (s.halfAt 50) (s.halfAt 52) := by
  rw [State.visibleFrame_eq, fieldsTcp, field_readBytes_half _ _ 34 (by omega),
    field_readBytes_half _ _ 36 (by omega), field_readBytes_word _ _ 38 (by omega),
    field_readBytes_word _ _ 42 (by omega), field_readBytes_bits _ _ 46 7 4 (by omega),
    field_readBytes_bits _ _ 47 5 0 (by omega), field_readBytes_half _ _ 48 (by omega),
    field_readBytes_half _ _ 50 (by omega), field_readBytes_half _ _ 52 (by omega)]
  rfl

theorem fieldsUdp_visible {s : State} (h : 42 ≤ s.len) :
    fieldsUdp s.visibleFrame = .udp (s.halfAt 34) (s.halfAt 36) (s.halfAt 38) (s.halfAt 40) := by
  rw [State.visibleFrame_eq, fieldsUdp, field_readBytes_half _ _ 34 (by omega),
    field_readBytes_half _ _ 36 (by omega), field_readBytes_half _ _ 38 (by omega),
    field_readBytes_half _ _ 40 (by omega)]
  rfl

/-- The ethertype is 0x0800 exactly when its two bytes are those of the rows (R90, R92). -/
theorem halfAt_eq_ipv4 (s : State) (a : Nat) :
    s.halfAt a = 0x0800 ↔ s.byteAt a = 0x08 ∧ s.byteAt (a + 1) = 0x00 := by
  have hb := (s.byteAt (a + 1)).isLt
  rw [State.halfAt, ← BitVec.toNat_inj, ← BitVec.toNat_inj, ← BitVec.toNat_inj, toNat_append_add]
  show _ = 2048 ↔ _ = 8 ∧ _ = 0
  omega

/-- Row `IPV4` is matched exactly by the ethertype (R90). -/
theorem rowAccepts_ipv4_visible {s : State} (h : 14 ≤ s.len) :
    rowAccepts rowIpv4 s.visibleFrame = true ↔ s.halfAt 12 = 0x0800 := by
  rw [State.visibleFrame_eq, rowAccepts_readBytes _ _ _ (by simp [rowIpv4]; omega), halfAt_eq_ipv4]
  simp [rowIpv4, State.byteAt]

/-- A transport row of an IPv4 frame is matched exactly by its protocol number (R91). -/
theorem rowAccepts_transport_visible {s : State} {r : Row} {p : Byte}
    (hr : r.needs = [(12, 0x08), (13, 0x00), (23, p)]) (h : 34 ≤ s.len) (he : s.halfAt 12 = 0x0800) :
    rowAccepts r s.visibleFrame = true ↔ s.byteAt 23 = p := by
  obtain ⟨h12, h13⟩ := (halfAt_eq_ipv4 s 12).mp he
  simp only [State.byteAt, Nat.reduceAdd] at h12 h13 ⊢
  rw [State.visibleFrame_eq, rowAccepts_readBytes _ _ _ (by simp [hr]; omega), hr]
  simp [h12, h13]

/-! ## The class fetched at each position (R80, R90, R91) -/

theorem State.fetch_at_eth {s : State} (hc : s.cur = 0) : s.fetch =
    if s.len < 14 then .rejected (.truncated .eth)
    else .instr (.eth (s.macAt 0) (s.macAt 6) (s.halfAt 12)) := by
  rw [State.fetch, hc]
  exact decodeRow_visible rfl (by decide) fieldsEth_visible

theorem State.fetch_at_ipv4 {s : State} (hc : s.cur = 14) (h : 14 ≤ s.len) : s.fetch =
    if s.halfAt 12 ≠ 0x0800 then .instr .ethOnly
    else if s.len < 34 then .rejected (.truncated .ipv4)
    else .instr (.ipv4 ((s.byteAt 14).extractLsb' 4 4) ((s.byteAt 14).extractLsb' 0 4) (s.byteAt 15)
      (s.halfAt 16) (s.halfAt 18) (s.halfAt 20) (s.byteAt 22) (s.byteAt 23) (s.halfAt 24) (s.wordAt 26)
      (s.wordAt 30)) := by
  have e : s.fetch = if rowAccepts rowIpv4 s.visibleFrame
      then decodeRow rowIpv4 .ipv4 s.visibleFrame (fieldsIpv4 s.visibleFrame) else .instr .ethOnly := by
    rw [State.fetch, hc]
    rfl
  rw [e, ite_not]
  exact if_congr (rowAccepts_ipv4_visible h) (decodeRow_visible rfl (by decide) fieldsIpv4_visible) rfl

theorem State.fetch_at_transport {s : State} (hc : s.cur = 34) (h : 34 ≤ s.len) (he : s.halfAt 12 = 0x0800) :
    s.fetch =
      if s.byteAt 23 = 1 then
        if s.len < 38 then .rejected (.truncated .icmp)
        else .instr (.icmp (s.byteAt 34) (s.byteAt 35) (s.halfAt 36))
      else if s.byteAt 23 = 6 then
        if s.len < 54 then .rejected (.truncated .tcp)
        else .instr (.tcp (s.halfAt 34) (s.halfAt 36) (s.wordAt 38) (s.wordAt 42)
          ((s.byteAt 46).extractLsb' 4 4) ((s.byteAt 47).extractLsb' 0 6) (s.halfAt 48) (s.halfAt 50)
          (s.halfAt 52))
      else if s.byteAt 23 = 17 then
        if s.len < 42 then .rejected (.truncated .udp)
        else .instr (.udp (s.halfAt 34) (s.halfAt 36) (s.halfAt 38) (s.halfAt 40))
      else .instr .ipUnknown := by
  have e : s.fetch =
      if rowAccepts rowIcmp s.visibleFrame then decodeRow rowIcmp .icmp s.visibleFrame (fieldsIcmp s.visibleFrame)
      else if rowAccepts rowTcp s.visibleFrame then decodeRow rowTcp .tcp s.visibleFrame (fieldsTcp s.visibleFrame)
      else if rowAccepts rowUdp s.visibleFrame then decodeRow rowUdp .udp s.visibleFrame (fieldsUdp s.visibleFrame)
      else .instr .ipUnknown := by
    rw [State.fetch, hc]
    rfl
  rw [e]
  exact if_congr (rowAccepts_transport_visible rfl h he) (decodeRow_visible rfl (by decide) fieldsIcmp_visible) <|
    if_congr (rowAccepts_transport_visible rfl h he) (decodeRow_visible rfl (by decide) fieldsTcp_visible) <|
    if_congr (rowAccepts_transport_visible rfl h he) (decodeRow_visible rfl (by decide) fieldsUdp_visible) rfl

/-! ## A header class run on its own (R81) -/

theorem seq_header_ok {n : Nat} {h : Hdr} {f : Record → Record} {xs : List (Op Unit)} {s : State}
    (hn : s.cur + n ≤ s.len) :
    seqOps (headerOp n h f :: xs) s = seqOps xs { s with df := f s.df, cur := s.cur + n } :=
  seqOps_cons_ok (headerOp_ok hn)

theorem seq_header_short {n : Nat} {h : Hdr} {f : Record → Record} {xs : List (Op Unit)} {s : State}
    (hn : s.len < s.cur + n) : seqOps (headerOp n h f :: xs) s = .trap (raiseTruncated h s) :=
  seqOps_cons_trap (headerOp_short hn)

/-- A transport header with its sample (R137). -/
theorem seq_header_capture_ok {n : Nat} {h k : Hdr} {f : Record → Record} {xs : List (Op Unit)} {s : State}
    (hn : s.cur + n ≤ s.len) (hs : 34 ≤ s.len) : seqOps (headerOp n h f :: captureSampleOp k :: xs) s =
      seqOps xs { s with df := s.sampleFields (f s.df), cur := 34 + min 64 (s.len - 34) } :=
  (seq_header_ok hn).trans (seq_capture hs)

/-- The nibble of the row and the header length in bytes (R88, R92). -/
theorem mul4Of_nibble (v : BitVec 4) : BitVec.ofNat 6 (mul4Of v.toNat) = v.setWidth 6 * 4 := by
  apply BitVec.eq_of_toNat_eq
  simp [mul4Of]

theorem step_of_fetch_instr {s : State} {i : Instr} (hp : s.pending = .header) (hf : s.fetch = .instr i) :
    step s = exec i s := by
  simp only [step, hp, hf]

theorem step_of_fetch_truncated {s : State} {h : Hdr} (hp : s.pending = .header)
    (hf : s.fetch = .rejected (.truncated h)) : step s = .next (raiseTruncated h s) := by
  simp only [step, hp, hf]

/-! ## The chain from its start to the outcome of DECODE -/

/-- The first step: TruncatedInput in the Ethernet header, or on to the next class. -/
theorem step_startHeaders (s : State) : step s.startHeaders =
    .next (if s.len < 14 then s.decodeOutcome else s.pastEth.withPending .header) := by
  have hf := State.fetch_at_eth (s := s.startHeaders) rfl
  by_cases hl : s.len < 14
  · rw [step_of_fetch_truncated rfl (hf.trans (if_pos hl)), if_pos hl, State.decodeOutcome, if_pos hl]
    rfl
  · have hl' : s.startHeaders.cur + Config.ethLen ≤ s.startHeaders.len := by simpa using hl
    rw [step_of_fetch_instr rfl (hf.trans (if_neg hl)), if_neg hl]
    exact congrArg procedure (seq_header_ok hl')

/-- The second step: the Ethernet header alone, TruncatedInput in the IPv4 header, or on to the next class. -/
theorem step_pastEth {s : State} (h : 14 ≤ s.len) : step (s.pastEth.withPending .header) =
    .next (if s.halfAt 12 = 0x0800 ∧ 34 ≤ s.len then s.pastIp.withPending .header else s.decodeOutcome) := by
  have hf := State.fetch_at_ipv4 (s := s.pastEth.withPending .header) rfl h
  rw [State.decodeOutcome, if_neg (Nat.not_lt.mpr h)]
  by_cases c : s.halfAt 12 = 0x0800
  · replace hf := hf.trans (if_neg (not_not.mpr c))
    rw [if_neg (not_not.mpr c)]
    by_cases hl : s.len < 34
    · rw [step_of_fetch_truncated rfl (hf.trans (if_pos hl)), if_neg (fun k => by omega), if_pos hl]
      rfl
    · have hl' := Nat.le_of_not_lt hl
      rw [step_of_fetch_instr rfl (hf.trans (if_neg hl)), if_pos ⟨c, hl'⟩]
      refine (congrArg procedure (seq_header_ok hl')).trans ?_
      rw [mul4Of_nibble]
      rfl
  · rw [step_of_fetch_instr rfl (hf.trans (if_pos c)), if_neg (fun k => c k.1), if_pos c]
    rfl

/-- The third step ends the chain. -/
theorem step_pastIp {s : State} (h : 34 ≤ s.len) (he : s.halfAt 12 = 0x0800) :
    step (s.pastIp.withPending .header) = .next s.decodeOutcome := by
  have hf := State.fetch_at_transport (s := s.pastIp.withPending .header) rfl h he
  have hlen : 34 ≤ (s.pastIp.withPending .header).len := h
  have hs : s.transportOutcome = (s.pastIp.withPending .header).transportOutcome := rfl
  rw [decodeOutcome_of_ip h he, hs, State.transportOutcome]
  split_ifs at hf ⊢ with c1 hl c6 hl c17 hl
  · exact step_of_fetch_truncated rfl hf
  · exact (step_of_fetch_instr rfl hf).trans (congrArg procedure (seq_header_ok (Nat.le_of_not_lt hl)))
  · exact step_of_fetch_truncated rfl hf
  · exact (step_of_fetch_instr rfl hf).trans
      (congrArg procedure (seq_header_capture_ok (Nat.le_of_not_lt hl) hlen))
  · exact step_of_fetch_truncated rfl hf
  · exact (step_of_fetch_instr rfl hf).trans
      (congrArg procedure (seq_header_capture_ok (Nat.le_of_not_lt hl) hlen))
  · exact step_of_fetch_instr rfl hf

end Sys2Proof.Machine
end

section
/-! The records that DECODE leaves are complete (R24, R28 to R33, R45): one lemma for each kind of frame. -/

namespace Sys2Proof.Machine

/-! ## The five kinds of record that DECODE leaves are complete -/

/-- The length that the 7-bit register `DF.sample_len` shows (R28). -/
theorem sampleLen_toNat (n : Nat) : (BitVec.ofNat 7 (min 64 n)).toNat = min 64 n := by
  rw [BitVec.toNat_ofNat]
  omega

theorem bytesAt_length (s : State) (a n : Nat) : (s.bytesAt a n).length = n := by
  simp [State.bytesAt]

theorem sampleFields_length (s : State) (d : Record) :
    (s.sampleFields d).sample.length = (s.sampleFields d).sampleLen.toNat :=
  (bytesAt_length s 34 _).trans (sampleLen_toNat _).symm

theorem tagFor_icmp {p : BitVec 8} (h : p = 1) : Tag.icmp = tagFor true (some p) := by
  simp [tagFor, h]

theorem tagFor_tcp {p : BitVec 8} (h : p = 6) : Tag.tcp = tagFor true (some p) := by
  simp [tagFor, h]

theorem tagFor_udp {p : BitVec 8} (h : p = 17) : Tag.udp = tagFor true (some p) := by
  simp [tagFor, h]

theorem tagFor_unknown {p : BitVec 8} (h1 : p ≠ 1) (h6 : p ≠ 6) (h17 : p ≠ 17) :
    Tag.unknown = tagFor true (some p) := by
  simp only [tagFor, Option.some.injEq, h1, h6, h17, if_false, Bool.true_eq_false]

theorem ethHeld_ethFields (s : State) (a : Nat) (d : Record) : (s.ethFields a d).ethHeld true := ⟨rfl, rfl, rfl⟩

theorem ipHeld_ipFields (s : State) (a : Nat) (d : Record) : (s.ipFields a d).ipHeld true :=
  ⟨rfl, rfl, rfl, rfl, rfl, rfl, rfl, rfl, rfl, rfl, rfl⟩

theorem icmpHeld_icmpFields (s : State) (a : Nat) (d : Record) : (s.icmpFields a d).icmpHeld true := ⟨rfl, rfl, rfl⟩

theorem tcpHeld_tcpFields (s : State) (a : Nat) (d : Record) : (s.tcpFields a d).tcpHeld true :=
  ⟨rfl, rfl, rfl, rfl, rfl, rfl, rfl, rfl, rfl⟩

theorem udpHeld_udpFields (s : State) (a : Nat) (d : Record) : (s.udpFields a d).udpHeld true := ⟨rfl, rfl, rfl, rfl⟩

/-! No register of the empty record holds a value; an operation that does not write a group keeps it so. -/

theorem ipHeld_empty : Record.empty.ipHeld false := ⟨rfl, rfl, rfl, rfl, rfl, rfl, rfl, rfl, rfl, rfl, rfl⟩

theorem icmpHeld_empty : Record.empty.icmpHeld false := ⟨rfl, rfl, rfl⟩

theorem tcpHeld_empty : Record.empty.tcpHeld false := ⟨rfl, rfl, rfl, rfl, rfl, rfl, rfl, rfl, rfl⟩

theorem udpHeld_empty : Record.empty.udpHeld false := ⟨rfl, rfl, rfl, rfl⟩

/-! The conditions of R45 in the order of `Record.complete`: the size and the Ethernet part, the IPv4 part, the tag
and the diagnostic, the three transport parts, their lengths, the sample. -/

theorem ethRecord_complete {s : State} (h : 14 ≤ s.len) (he : s.halfAt 12 ≠ 0x0800) :
    Record.complete { s.ethRecord with frameSize := some s.len } s.len :=
  ⟨rfl, h, rfl, ethHeld_ethFields s 0 Record.empty,
    ⟨nofun, fun k => absurd (Option.some.inj k) he⟩, nofun, ipHeld_empty,
    rfl, ⟨nofun, nofun⟩,
    icmpHeld_empty, tcpHeld_empty, udpHeld_empty,
    nofun, nofun, nofun, rfl, rfl⟩

section
variable {s : State} (he : s.halfAt 12 = 0x0800)
include he

theorem unknownRecord_complete (h : 34 ≤ s.len) (h1 : s.byteAt 23 ≠ 1) (h6 : s.byteAt 23 ≠ 6)
    (h17 : s.byteAt 23 ≠ 17) :
    Record.complete { s.ipRecord with tag := .unknown, diag := true, frameSize := some s.len } s.len :=
  ⟨rfl, by omega, rfl, ethHeld_ethFields s 0 Record.empty,
    ⟨fun _ => congrArg some he, fun _ => rfl⟩, fun _ => h, ipHeld_ipFields s 14 s.ethRecord,
    tagFor_unknown h1 h6 h17, ⟨fun _ => rfl, fun _ => rfl⟩,
    icmpHeld_empty, tcpHeld_empty, udpHeld_empty,
    nofun, nofun, nofun, rfl, rfl⟩

theorem icmpRecord_complete (h : 38 ≤ s.len) (hp : s.byteAt 23 = 1) :
    Record.complete { s.icmpFields 34 s.ipRecord with frameSize := some s.len } s.len :=
  ⟨rfl, by omega, rfl, ethHeld_ethFields s 0 Record.empty,
    ⟨fun _ => congrArg some he, fun _ => rfl⟩, fun _ => by omega, ipHeld_ipFields s 14 s.ethRecord,
    tagFor_icmp hp, ⟨nofun, nofun⟩,
    icmpHeld_icmpFields s 34 s.ipRecord, tcpHeld_empty, udpHeld_empty,
    fun _ => h, nofun, nofun, rfl, rfl⟩

theorem tcpRecord_complete (h : 54 ≤ s.len) (hp : s.byteAt 23 = 6) :
    Record.complete { s.sampleFields (s.tcpFields 34 s.ipRecord) with frameSize := some s.len } s.len :=
  ⟨rfl, by omega, rfl, ethHeld_ethFields s 0 Record.empty,
    ⟨fun _ => congrArg some he, fun _ => rfl⟩, fun _ => by omega, ipHeld_ipFields s 14 s.ethRecord,
    tagFor_tcp hp, ⟨nofun, nofun⟩,
    icmpHeld_empty, tcpHeld_tcpFields s 34 s.ipRecord, udpHeld_empty,
    nofun, fun _ => h, nofun, sampleFields_length s (s.tcpFields 34 s.ipRecord), sampleLen_toNat _⟩

theorem udpRecord_complete (h : 42 ≤ s.len) (hp : s.byteAt 23 = 17) :
    Record.complete { s.sampleFields (s.udpFields 34 s.ipRecord) with frameSize := some s.len } s.len :=
  ⟨rfl, by omega, rfl, ethHeld_ethFields s 0 Record.empty,
    ⟨fun _ => congrArg some he, fun _ => rfl⟩, fun _ => by omega, ipHeld_ipFields s 14 s.ethRecord,
    tagFor_udp hp, ⟨nofun, nofun⟩,
    icmpHeld_empty, tcpHeld_empty, udpHeld_udpFields s 34 s.ipRecord,
    nofun, nofun, fun _ => h, sampleFields_length s (s.udpFields 34 s.ipRecord), sampleLen_toNat _⟩

end

end Sys2Proof.Machine
end

section
/-! What each section of the report does on a given record (R24, R173 to R182): it emits a fixed number of lines when
every register it reads holds a value, and is refused by name when one does not (log entry 8). That the lines are
report lines and that nothing else changes is `onlyEmits` (Laws/Render.lean). -/

namespace Sys2Proof.Machine

/-! ## The rule, and how it composes -/

/-- On the record `d` the operation emits `k` lines if `held`, and otherwise is refused for want of a value. -/
def rendersOn (d : Record) (held : Prop) (k : Nat) (x : Op Unit) : Prop := ∀ s : State, s.df = d →
  (held ∧ ∃ t, x s = .ok () t ∧ t.df = d ∧ t.lines.length = s.lines.length + k) ∨
    (¬ held ∧ ∃ r, x s = .refuse (.noValue r))

section
variable {d : Record} {p q : Prop} {k m : Nat} {xs : List (Op Unit)}

theorem rendersOn.congr {x : Op Unit} (h : rendersOn d p k x) (hpq : p ↔ q) (hkm : k = m) : rendersOn d q m x := by
  subst hkm
  rwa [← propext hpq]

theorem rendersOn.refused {x : Op Unit} (h : rendersOn d p k x) (hp : ¬ p) {s : State} (hs : s.df = d) :
    ∃ r, x s = .refuse (.noValue r) := by
  obtain ⟨hp', _⟩ | ⟨_, hr⟩ := h s hs
  · exact absurd hp' hp
  · exact hr

theorem rendersOn.completes {x : Op Unit} (h : rendersOn d p k x) (hp : p) {s : State} (hs : s.df = d) :
    ∃ t, x s = .ok () t ∧ t.df = d ∧ t.lines.length = s.lines.length + k := by
  obtain ⟨_, ht⟩ | ⟨hp', _⟩ := h s hs
  · exact ht
  · exact absurd hp hp'

theorem rendersOn_skip : rendersOn d True 0 skipOp := fun s hs => .inl ⟨trivial, s, rfl, hs, rfl⟩

theorem rendersOn_cons {x : Op Unit} (hx : rendersOn d p k x) (hxs : rendersOn d q m (seqOps xs)) :
    rendersOn d (p ∧ q) (k + m) (seqOps (x :: xs)) := by
  intro s hs
  obtain ⟨hp, t, hxt, htd, htl⟩ | ⟨hp, r, hr⟩ := hx s hs
  · rw [seqOps_cons_ok hxt]
    obtain ⟨hq, u, hu, hud, hul⟩ | ⟨hq, hr⟩ := hxs t htd
    · exact .inl ⟨⟨hp, hq⟩, u, hu, hud, by omega⟩
    · exact .inr ⟨fun hpq => hq hpq.2, hr⟩
  · exact .inr ⟨fun hpq => hp hpq.1, r, seqOps_cons_refuse hr⟩

/-! ## One line, and then the rest of a section -/

theorem rendersOn_line_then {t : SecTag} {c : Text} (h : rendersOn d q m (seqOps xs)) :
    rendersOn d q (1 + m) (seqOps (lineOp t c :: xs)) :=
  (rendersOn_cons (p := True) (fun s hs => .inl ⟨trivial, _, lineOp_eq t c s, hs, by simp⟩) h).congr
    (by rw [true_and]) rfl

theorem rendersOn_blank_then {t : SecTag} (h : rendersOn d q m (seqOps xs)) :
    rendersOn d q (1 + m) (seqOps (blankOp t :: xs)) := rendersOn_line_then h

theorem rendersOn_field {α : Type} {t : SecTag} {label : Text} {g : Record → Option α} {r : Reg}
    {f : α → Text} :
    rendersOn d ((g d).isSome = true) 1 (fieldLine t label g r f) := by
  rintro s rfl
  cases h : g s.df with
  | none => exact .inr ⟨nofun, r, fieldLine_none h⟩
  | some v => exact .inl ⟨rfl, _, fieldLine_some h, rfl, by simp⟩

theorem rendersOn_field_then {α : Type} {t : SecTag} {label : Text} {g : Record → Option α} {r : Reg}
    {f : α → Text} (h : rendersOn d q m (seqOps xs)) :
    rendersOn d ((g d).isSome = true ∧ q) (1 + m) (seqOps (fieldLine t label g r f :: xs)) :=
  rendersOn_cons rendersOn_field h

theorem rendersOn_flag_then {w : Nat} {t : SecTag} {g : Record → Option (BitVec w)} {r : Reg} {pos : Fin 8}
    {view : BitVec w → BitVec 1} {label : BitVec 1 → Text} (h : rendersOn d q m (seqOps xs)) :
    rendersOn d ((g d).isSome = true ∧ q) (1 + m) (seqOps (flagLine t g r pos view label :: xs)) := by
  refine rendersOn_cons ?_ h
  rintro s rfl
  cases h : g s.df with
  | none => exact .inr ⟨nofun, r, flagLine_none h⟩
  | some v => exact .inl ⟨rfl, _, flagLine_some h, rfl, by simp⟩

theorem rendersOn_end : rendersOn d True 0 (seqOps []) := rendersOn_skip

end

/-! ## The sections -/

/-- `RENDER_ETHER` (R173): 7 lines. -/
theorem rendersOn_renderEther (d : Record) :
    rendersOn d (d.frameSize.isSome = true ∧ d.ethHeld true) 7 renderEtherOp :=
  (rendersOn_line_then <| rendersOn_blank_then <| rendersOn_field_then <| rendersOn_field_then <|
    rendersOn_field_then <| rendersOn_field_then <| rendersOn_blank_then rendersOn_end).congr
    (by simp only [Record.ethHeld, and_true]) rfl

/-- `RENDER_IP` (R174): 21 lines. -/
theorem rendersOn_renderIp (d : Record) : rendersOn d (d.ipHeld true) 21 renderIpOp :=
  (rendersOn_line_then <| rendersOn_blank_then <| rendersOn_field_then <| rendersOn_field_then <|
    rendersOn_field_then <| rendersOn_line_then <| rendersOn_flag_then <| rendersOn_flag_then <|
    rendersOn_flag_then <| rendersOn_field_then <| rendersOn_field_then <| rendersOn_field_then <|
    rendersOn_flag_then <| rendersOn_flag_then <| rendersOn_field_then <| rendersOn_field_then <|
    rendersOn_field_then <| rendersOn_field_then <| rendersOn_field_then <| rendersOn_field_then <|
    rendersOn_blank_then rendersOn_end).congr (by simp only [Record.ipHeld, and_true]; tauto) rfl

/-- `RENDER_DIAG` (R176): 1 line. -/
theorem rendersOn_renderDiag (d : Record) : rendersOn d (d.ipProto.isSome = true) 1 renderDiagOp := rendersOn_field

/-- `RENDER_ICMP` (R177): 6 lines. -/
theorem rendersOn_renderIcmp (d : Record) : rendersOn d (d.icmpHeld true) 6 renderIcmpOp :=
  (rendersOn_line_then <| rendersOn_blank_then <| rendersOn_field_then <| rendersOn_field_then <|
    rendersOn_field_then <| rendersOn_blank_then rendersOn_end).congr
    (by simp only [Record.icmpHeld, and_true]) rfl

/-- Every sample element below the sample's length holds a value (R28). -/
def Record.sampleHeld (d : Record) : Prop := d.sampleLen.toNat ≤ d.sample.length

/-- The number of rows of the sample's dump (R163). -/
def Record.dumpCount (d : Record) : Nat := (d.sampleLen.toNat + 15) / 16

theorem sampleOf_held {d : Record} (h : d.sampleHeld) : sampleOf d = some (d.sample.take d.sampleLen.toNat) :=
  if_pos h

theorem sampleOf_absent {d : Record} (h : ¬ d.sampleHeld) : sampleOf d = none := if_neg h

theorem renderDataOp_absent {s : State} (h : ¬ s.df.sampleHeld) (t : SecTag) :
    renderDataOp t s = .refuse (.noValue .sample) := by
  simp only [renderDataOp, bindOp, readReg_none .sample (sampleOf_absent h)]

theorem rendersOn_dump (d : Record) (t : SecTag) (b : List Byte) :
    rendersOn d True ((b.length + 15) / 16) (dumpOp t b) := fun s hs =>
  .inl ⟨trivial, _, dumpOp_eq t b s, hs, by simp [dumpRowsOf_length]⟩

/-- `RENDER_DATA` (R180): the heading, the rows and a blank line. -/
theorem rendersOn_renderData (t : SecTag) (d : Record) :
    rendersOn d d.sampleHeld (2 + d.dumpCount) (renderDataOp t) := by
  intro s hs
  by_cases h : d.sampleHeld
  · have hb : sampleOf s.df = some (d.sample.take d.sampleLen.toNat) := by rw [hs, sampleOf_held h]
    have hlen : (d.sample.take d.sampleLen.toNat).length = d.sampleLen.toNat := List.length_take_of_le h
    unfold renderDataOp
    rw [bindOp_ok (readReg_some .sample hb)]
    have hrest := rendersOn_cons (rendersOn_dump d t (d.sample.take d.sampleLen.toNat))
      (rendersOn_blank_then (t := t) rendersOn_end)
    rw [hlen] at hrest
    obtain ⟨u, hu, hud, hul⟩ := (rendersOn_line_then (t := t)
      (c := strData1 ++ decOf s.df.sampleLen.toNat ++ strData2) hrest).completes ⟨trivial, trivial⟩ hs
    exact .inl ⟨h, u, hu, hud, by simp only [Record.dumpCount]; omega⟩
  · exact .inr ⟨h, .sample, renderDataOp_absent (by rwa [hs]) t⟩

/-- `RENDER_TCP` (R178): 18 lines and the data part. -/
theorem rendersOn_renderTcp (d : Record) :
    rendersOn d (d.tcpHeld true ∧ d.sampleHeld) (20 + d.dumpCount) renderTcpOp :=
  (rendersOn_line_then <| rendersOn_blank_then <| rendersOn_field_then <| rendersOn_field_then <|
    rendersOn_field_then <| rendersOn_field_then <| rendersOn_field_then <| rendersOn_field_then <|
    rendersOn_flag_then <| rendersOn_flag_then <| rendersOn_flag_then <| rendersOn_flag_then <|
    rendersOn_flag_then <| rendersOn_flag_then <| rendersOn_field_then <| rendersOn_field_then <|
    rendersOn_field_then <| rendersOn_blank_then <|
    rendersOn_cons (rendersOn_renderData .tcp d) rendersOn_end).congr
    (by simp only [Record.tcpHeld, and_true]; tauto) (by omega)

/-- `RENDER_UDP` (R179): 7 lines and the data part. -/
theorem rendersOn_renderUdp (d : Record) :
    rendersOn d (d.udpHeld true ∧ d.sampleHeld) (9 + d.dumpCount) renderUdpOp :=
  (rendersOn_line_then <| rendersOn_blank_then <| rendersOn_field_then <| rendersOn_field_then <|
    rendersOn_field_then <| rendersOn_field_then <| rendersOn_blank_then <|
    rendersOn_cons (rendersOn_renderData .udp d) rendersOn_end).congr
    (by simp only [Record.udpHeld, and_true]; tauto) (by omega)

/-! ## The report (R171, R181, R182) -/

/-- The registers that the transport section of the record's tag reads hold values (R24). -/
def Record.transportHeld (d : Record) : Prop :=
  match d.tag with
  | .none => True
  | .icmp => d.icmpHeld true
  | .tcp => d.tcpHeld true ∧ d.sampleHeld
  | .udp => d.udpHeld true ∧ d.sampleHeld
  | .unknown => d.ipProto.isSome = true

/-- The number of lines of the transport section (R181). -/
def Record.transportLines (d : Record) : Nat :=
  match d.tag with
  | .none => 0
  | .icmp => 6
  | .tcp => 20 + d.dumpCount
  | .udp => 9 + d.dumpCount
  | .unknown => 1

theorem rendersOn_renderTransport (d : Record) : rendersOn d d.transportHeld d.transportLines renderTransportOp := by
  rintro s rfl
  unfold renderTransportOp Record.transportHeld Record.transportLines
  cases s.df.tag with
  | none => exact rendersOn_skip s rfl
  | icmp => exact rendersOn_renderIcmp s.df s rfl
  | tcp => exact rendersOn_renderTcp s.df s rfl
  | udp => exact rendersOn_renderUdp s.df s rfl
  | unknown => exact rendersOn_renderDiag s.df s rfl

theorem rendersOn_renderIpPart_valid {d : Record} (h : d.ipValid = true) :
    rendersOn d (d.ipHeld true ∧ d.transportHeld) (21 + d.transportLines) renderIpPartOp := by
  have hsections : rendersOn d (d.ipHeld true ∧ d.transportHeld) (21 + d.transportLines)
      (seqOps [renderIpOp, renderTransportOp]) :=
    (rendersOn_cons (rendersOn_renderIp d) (rendersOn_cons (rendersOn_renderTransport d) rendersOn_end)).congr
      (by rw [and_true]) rfl
  intro s hs
  simpa only [renderIpPartOp, hs, h, if_true] using hsections s hs

theorem rendersOn_renderIpPart_absent {d : Record} (h : d.ipValid = false) :
    rendersOn d True 0 renderIpPartOp := by
  intro s hs
  simpa only [renderIpPartOp, hs, h, Bool.false_eq_true, if_false] using rendersOn_skip s hs

theorem onlyEmits_renderTransport : onlyEmits renderTransportOp := by
  intro s
  unfold renderTransportOp
  cases s.df.tag with
  | none => exact onlyEmits_skip s
  | icmp => exact onlyEmits_renderIcmp s
  | tcp => exact onlyEmits_renderTcp s
  | udp => exact onlyEmits_renderUdp s
  | unknown => exact onlyEmits_renderDiag s

theorem onlyEmits_renderIpPart : onlyEmits renderIpPartOp := by
  intro s
  unfold renderIpPartOp
  split
  · exact onlyEmits_seq (by simp [onlyEmits_renderIp, onlyEmits_renderTransport]) s
  · exact onlyEmits_skip s

/-! ## RENDER on the record of a successful DECODE -/

/-- Only a record without an IPv4 part has no tag (R32). -/
theorem tagFor_eq_none_iff (v : Bool) (p : Option (BitVec 8)) : tagFor v p = .none ↔ v = false := by
  unfold tagFor
  split_ifs <;> simp_all

section
variable {d : Record} {n : Nat}

theorem Record.complete.tag_none_iff (h : d.complete n) : d.tag = .none ↔ d.ipValid = false := by
  obtain ⟨_, _, _, _, _, _, _, htag, _⟩ := h
  rw [htag, tagFor_eq_none_iff]

theorem Record.complete.ipHeld_of_tag (h : d.complete n) (ht : d.tag ≠ .none) : d.ipHeld true := by
  have hv : d.ipValid = true := by simpa [h.tag_none_iff] using ht
  obtain ⟨_, _, _, _, _, _, hip, _⟩ := h
  rwa [hv] at hip

/-- The transport section finds its values (R24, R45). -/
theorem Record.complete.transportHeld (h : d.complete n) : d.transportHeld := by
  have hip := h.ipHeld_of_tag
  obtain ⟨_, _, _, _, _, _, _, _, _, hicmp, htcp, hudp, _, _, _, hsample, _⟩ := h
  have hs : d.sampleHeld := hsample.ge
  unfold Record.transportHeld
  cases ht : d.tag with
  | none => trivial
  | icmp => rwa [ht] at hicmp
  | tcp => exact ⟨by rwa [ht] at htcp, hs⟩
  | udp => exact ⟨by rwa [ht] at hudp, hs⟩
  | unknown =>
    obtain ⟨_, _, _, _, _, _, _, hproto, _⟩ := hip (by rw [ht]; nofun)
    exact hproto

/-- The dump of a complete record's sample has at most 4 rows (R28, R163). -/
theorem Record.complete.sampleLen_le (h : d.complete n) : d.sampleLen.toNat ≤ 64 := by
  obtain ⟨_, _, _, _, _, _, _, _, _, _, _, _, _, _, _, _, hlen⟩ := h
  rw [hlen]
  split_ifs <;> omega

theorem Record.complete.reportLength_le (h : d.complete n) : d.reportLength ≤ 52 := by
  have hs := h.sampleLen_le
  unfold Record.reportLength
  cases d.tag <;> simp only <;> omega

/-- R181's table counts the sections that R171 lists. -/
theorem Record.reportLength_of_tag (ht : d.tag ≠ .none) : d.reportLength = 28 + d.transportLines := by
  unfold Record.reportLength Record.transportLines Record.dumpCount
  cases h : d.tag with
  | none => exact absurd h ht
  | icmp | unknown => rfl
  | tcp | udp => simp only; omega

theorem Record.complete.rendersOn_ipPart (h : d.complete n) :
    ∃ k, rendersOn d True k renderIpPartOp ∧ 7 + k = d.reportLength := by
  cases hv : d.ipValid with
  | false =>
    refine ⟨0, rendersOn_renderIpPart_absent hv, ?_⟩
    rw [Record.reportLength, h.tag_none_iff.mpr hv]
  | true =>
    have ht : d.tag ≠ .none := by simp [h.tag_none_iff, hv]
    exact ⟨_, (rendersOn_renderIpPart_valid hv).congr
      (iff_true_intro ⟨h.ipHeld_of_tag ht, h.transportHeld⟩) rfl, by rw [Record.reportLength_of_tag ht]; omega⟩

/-- On a complete record the sections emit the whole report (R171, R181). -/
theorem Record.complete.rendersOn_report (h : d.complete n) :
    rendersOn d True d.reportLength (seqOps [renderEtherOp, renderIpPartOp]) := by
  obtain ⟨k, hk, hlen⟩ := h.rendersOn_ipPart
  obtain ⟨hsize, _, _, heth, _⟩ := h
  have hether : d.frameSize.isSome = true ∧ d.ethHeld true := ⟨by rw [hsize]; rfl, heth⟩
  exact (rendersOn_cons (rendersOn_renderEther d) (rendersOn_cons hk rendersOn_end)).congr
    (by simp only [hether, and_true]) hlen

end

/-- RENDER without a record does nothing (R182, R219). -/
theorem renderOp_without_record {s : State} (h : s.status ≠ .ok) : renderOp s = .ok () s := if_neg h

/-- RENDER on a complete record completes, with the report as the lines and nothing else changed (R181, R182). -/
theorem renderOp_complete {s : State} {n : Nat} (hs : s.status = .ok) (h : s.df.complete n) :
    ∃ ls, renderOp s = .ok () { s with lines := ls } ∧ ls.length = s.df.reportLength ∧
      ∀ l ∈ ls, isReportLine l := by
  have e : renderOp s = seqOps [renderEtherOp, renderIpPartOp] s.clearLines := if_pos hs
  have hemits : onlyEmits (seqOps [renderEtherOp, renderIpPartOp]) :=
    onlyEmits_seq (by simp [onlyEmits_renderEther, onlyEmits_renderIpPart])
  obtain ⟨t, ht, _, hlen⟩ := h.rendersOn_report.completes trivial (s := s.clearLines) rfl
  obtain ⟨ls, hls, hlines⟩ | ⟨r, hr⟩ := hemits s.clearLines
  · obtain rfl : { s.clearLines with lines := [] ++ ls } = t := by
      rw [hls] at ht
      injection ht
    exact ⟨ls, e.trans hls, by simpa using hlen, hlines⟩
  · rw [hr] at ht
    cases ht

end Sys2Proof.Machine
end

section
/-! O32 and O51: what a transaction leaves (R45), and the refusals of the sections (log entry 8). -/

namespace Sys2Proof.Machine

/-! ## DECODE and RUN end in TruncatedInput or with a complete record -/

/-- Every line of R140's table is TruncatedInput or a complete record, with the cursor inside its 7 bits (R37). -/
theorem decodeOutcome_cases (s : State) :
    (∃ h c, c ≤ 98 ∧ s.decodeOutcome = s.truncatedAs h c) ∨
      ∃ d c, c ≤ 98 ∧ Record.complete { d with frameSize := some s.len } s.len ∧
        s.decodeOutcome = s.decodedAs d c := by
  have hcur : 34 + min 64 (s.len - 34) ≤ 98 := by omega
  unfold State.decodeOutcome State.transportOutcome
  split_ifs with h14 he h34 h1 h38 h6 h54 h17 h42
  · exact .inl ⟨_, _, by decide, rfl⟩
  · exact .inr ⟨_, _, by decide, ethRecord_complete (Nat.le_of_not_lt h14) he, rfl⟩
  · exact .inl ⟨_, _, by decide, rfl⟩
  · exact .inl ⟨_, _, by decide, rfl⟩
  · exact .inr ⟨_, _, by decide, icmpRecord_complete (not_not.mp he) (Nat.le_of_not_lt h38) h1, rfl⟩
  · exact .inl ⟨_, _, by decide, rfl⟩
  · exact .inr ⟨_, _, hcur, tcpRecord_complete (not_not.mp he) (Nat.le_of_not_lt h54) h6, rfl⟩
  · exact .inl ⟨_, _, by decide, rfl⟩
  · exact .inr ⟨_, _, hcur, udpRecord_complete (not_not.mp he) (Nat.le_of_not_lt h42) h17, rfl⟩
  · exact .inr ⟨_, _, by decide, unknownRecord_complete (not_not.mp he) (Nat.le_of_not_lt h34) h1 h6 h17, rfl⟩

/-- DECODE and RUN complete from every state: with TruncatedInput, or with a complete record and at most 52
report lines. -/
theorem exec_decode_or_run {i : Instr} (hi : i = .decode ∨ i = .run) (s : State) :
    (∃ h c, c ≤ 98 ∧ exec i s = .next (s.truncatedAs h c)) ∨
      ∃ d c ls, c ≤ 98 ∧ Record.complete { d with frameSize := some s.len } s.len ∧ ls.length ≤ 52 ∧
        (∀ l ∈ ls, isReportLine l) ∧ exec i s = .next { s.decodedAs d c with lines := ls } := by
  have hdecode : exec .decode s = .next s.decodeOutcome := procedure_decodeOp s
  have hrun : exec .run s = procedure (renderOp s.decodeOutcome) := execRun_eq s
  obtain ⟨h, c, hc, e⟩ | ⟨d, c, hc, hd, e⟩ := decodeOutcome_cases s <;> rw [e] at hdecode hrun
  · refine .inl ⟨h, c, hc, ?_⟩
    obtain rfl | rfl := hi
    · exact hdecode
    · have hstatus : (s.truncatedAs h c).status ≠ .ok := by simp [State.truncatedAs]
      rw [hrun, renderOp_without_record hstatus]
      rfl
  · refine .inr ⟨d, c, ?_⟩
    obtain rfl | rfl := hi
    · exact ⟨[], hc, hd, by decide, nofun, hdecode⟩
    · obtain ⟨ls, hls, hlen, hlines⟩ := renderOp_complete (s := s.decodedAs d c) rfl hd
      exact ⟨ls, hc, hd, hlen.trans_le hd.reportLength_le, hlines, by rw [hrun, hls]; rfl⟩

/-- Settles O32: a transaction ends in R193's state or with the complete record of R45. -/
theorem transactionLeavesCoherentRecord : Obligations.TransactionLeavesCoherentRecord := by
  intro i s hi
  obtain ⟨h, c, _, e⟩ | ⟨d, c, ls, _, hd, _, _, e⟩ := exec_decode_or_run hi s
  · exact ⟨_, e, .inr ⟨rfl, nofun, rfl, rfl, rfl, rfl, rfl, rfl, rfl⟩⟩
  · exact ⟨_, e, .inl ⟨rfl, rfl, hd⟩⟩

/-! ## A section that meets a register without a value -/

section
variable (d : Record)

theorem not_etherHeld_iff : ¬ (d.frameSize.isSome = true ∧ d.ethHeld true) ↔
    d.frameSize = none ∨ d.ethDst = none ∨ d.ethSrc = none ∨ d.ethType = none := by
  simp only [Record.ethHeld, not_and_or, Option.not_isSome_iff_eq_none]

theorem not_ipHeld_iff : ¬ d.ipHeld true ↔
    d.ipVersion = none ∨ d.ipHlen = none ∨ d.ipTos = none ∨ d.ipTotalLen = none ∨ d.ipId = none ∨
      d.ipFlagsFrag = none ∨ d.ipTtl = none ∨ d.ipProto = none ∨ d.ipCksum = none ∨ d.ipSrc = none ∨
      d.ipDst = none := by
  simp only [Record.ipHeld, not_and_or, Option.not_isSome_iff_eq_none]

theorem not_icmpHeld_iff : ¬ d.icmpHeld true ↔ d.icmpType = none ∨ d.icmpCode = none ∨ d.icmpCksum = none := by
  simp only [Record.icmpHeld, not_and_or, Option.not_isSome_iff_eq_none]

theorem not_sampleHeld_iff : ¬ d.sampleHeld ↔ d.sample.length < d.sampleLen.toNat := Nat.not_le

theorem not_tcpPartHeld_iff : ¬ (d.tcpHeld true ∧ d.sampleHeld) ↔
    d.tcpSport = none ∨ d.tcpDport = none ∨ d.tcpSeq = none ∨ d.tcpAck = none ∨ d.tcpDoff = none ∨
      d.tcpFlags = none ∨ d.tcpWindow = none ∨ d.tcpCksum = none ∨ d.tcpUrgptr = none ∨
      d.sample.length < d.sampleLen.toNat := by
  simp only [Record.tcpHeld, not_and_or, Option.not_isSome_iff_eq_none, not_sampleHeld_iff, or_assoc]

theorem not_udpPartHeld_iff : ¬ (d.udpHeld true ∧ d.sampleHeld) ↔
    d.udpSport = none ∨ d.udpDport = none ∨ d.udpLen = none ∨ d.udpCksum = none ∨
      d.sample.length < d.sampleLen.toNat := by
  simp only [Record.udpHeld, not_and_or, Option.not_isSome_iff_eq_none, not_sampleHeld_iff, or_assoc]

end

/-- An operation that does not find all the values it reads is refused (log entry 8). -/
theorem refused_of_rendersOn {x : Op Unit} {s : State} {p : Prop} {k : Nat} (h : rendersOn s.df p k x)
    (hp : ¬ p) : ∃ r, procedure (x s) = .refused (.noValue r) := by
  obtain ⟨r, hr⟩ := h.refused hp rfl
  exact ⟨r, by rw [hr]; rfl⟩

/-- Settles O51: each section is refused unless all that it reads holds a value (`rendersOn`). -/
theorem sectionWithoutValueIsRefused : Obligations.SectionWithoutValueIsRefused := by
  intro s
  exact ⟨fun h => refused_of_rendersOn (rendersOn_renderEther s.df) ((not_etherHeld_iff s.df).mpr h),
    fun h => refused_of_rendersOn (rendersOn_renderIp s.df) ((not_ipHeld_iff s.df).mpr h),
    fun h => congrArg procedure (fieldLine_none h),
    fun h => congrArg (valued _) (readReg_none .ipFlagsFrag h),
    fun h => refused_of_rendersOn (rendersOn_renderIcmp s.df) ((not_icmpHeld_iff s.df).mpr h),
    fun h => refused_of_rendersOn (rendersOn_renderTcp s.df) ((not_tcpPartHeld_iff s.df).mpr h),
    fun h => refused_of_rendersOn (rendersOn_renderUdp s.df) ((not_udpPartHeld_iff s.df).mpr h),
    fun h g => congrArg procedure (renderDataOp_absent ((not_sampleHeld_iff s.df).mpr h) g)⟩

end Sys2Proof.Machine
end

section
/-! O19, O20: the model's choice for a sample below offset 34 (log entry 9), and the views (R25, R26). -/

namespace Sys2Proof.Machine

/-! ## A header class that captures the sample, in a frame of fewer than 34 bytes -/

/-- The length check of the header comes before the missing offset 34. -/
theorem header_capture_absent {n : Nat} {h k : Hdr} {f : Record → Record} {xs : List (Op Unit)} {s : State}
    (hs : s.len < 34) : procedure (seqOps (headerOp n h f :: captureSampleOp k :: xs) s) =
      if s.len < s.cur + n then .next (raiseTruncated h s) else .fault .offsetAbsent := by
  by_cases hn : s.len < s.cur + n
  · rw [if_pos hn, seq_header_short hn]
    rfl
  · have habsent := captureSampleOp_absent (s := { s with df := f s.df, cur := s.cur + n }) k hs
    rw [if_neg hn, seq_header_ok (Nat.le_of_not_lt hn), seqOps_cons_fault habsent]
    rfl

/-- Settles O19: by the fault of CAPTURE_SAMPLE, alone and behind a header. -/
theorem captureSampleStopsBelowOffset34 : Obligations.CaptureSampleStopsBelowOffset34 := fun _ h =>
  ⟨congrArg procedure (captureSampleOp_absent _ h), fun _ _ _ _ _ _ _ _ _ => header_capture_absent h,
    fun _ _ _ _ => header_capture_absent h⟩

/-- Settles O20: a 1-bit view is a slice by `flagOf_eq_extract`, the fragment offset by `ipFragOff_eq_extract`. -/
theorem viewsAreRegisterSlices : Obligations.ViewsAreRegisterSlices :=
  ⟨fun w => ⟨flagOf_eq_extract 15 w, flagOf_eq_extract 14 w, flagOf_eq_extract 13 w, ipFragOff_eq_extract w⟩,
    fun t => ⟨flagOf_eq_extract 4 t, flagOf_eq_extract 3 t, flagOf_eq_extract 2 t⟩,
    fun f => ⟨flagOf_eq_extract 5 f, flagOf_eq_extract 4 f, flagOf_eq_extract 3 f, flagOf_eq_extract 2 f,
      flagOf_eq_extract 1 f, flagOf_eq_extract 0 f⟩,
    fun _ => rfl⟩

end Sys2Proof.Machine
end

section
/-! O1, O58, O59: the reset state and the invariant of the machine (R37, R44 to R46, R193). -/

namespace Sys2Proof.Machine

/-- Settles O1: RESET gives `resetUnit`, whose fields are those of R46. -/
theorem resetClearsUnit : Obligations.ResetClearsUnit :=
  ⟨fun s => ⟨s.resetUnit, rfl, rfl, rfl, rfl, rfl, rfl, rfl, rfl, rfl, rfl, rfl, rfl, rfl, rfl, rfl, rfl⟩, rfl⟩

/-! ## Where the invariant holds -/

/-- RESET leaves a unit without a record, whatever frame is placed (R46). -/
theorem resetUnit_invariant {s : State} (hwf : Memory.wf s.frame = true) : s.resetUnit.invariant :=
  ⟨hwf, Nat.zero_le 98, Nat.zero_le 52, nofun, rfl, rfl, rfl⟩

/-- Settles O58: the state after reset is its own RESET. -/
theorem invariantHoldsAtReset : Obligations.InvariantHoldsAtReset := resetUnit_invariant (s := State.reset) rfl

section
variable {s : State} {c : Nat}

theorem truncatedAs_invariant (hwf : Memory.wf s.frame = true) (h : Hdr) (hc : c ≤ 98) :
    (s.truncatedAs h c).invariant :=
  ⟨hwf, hc, Nat.zero_le 52, nofun, nofun, rfl, rfl⟩

theorem decodedAs_invariant (hwf : Memory.wf s.frame = true) (hc : c ≤ 98) {d : Record} {n : Nat} {ls : List Text}
    (hd : Record.complete { d with frameSize := some s.len } n) (hlen : ls.length ≤ 52)
    (hlines : ∀ l ∈ ls, isReportLine l) : State.invariant { s.decodedAs d c with lines := ls } :=
  ⟨hwf, hc, hlen, hlines, rfl, n, hd⟩

theorem decodeOutcome_invariant (hwf : Memory.wf s.frame = true) : s.decodeOutcome.invariant := by
  obtain ⟨h, c, hc, e⟩ | ⟨d, c, hc, hd, e⟩ := decodeOutcome_cases s <;> rw [e]
  · exact truncatedAs_invariant hwf h hc
  · exact decodedAs_invariant (ls := []) hwf hc hd (by decide) nofun

theorem startHeaders_invariant (hwf : Memory.wf s.frame = true) : s.startHeaders.invariant :=
  ⟨hwf, Nat.zero_le 98, Nat.zero_le 52, nofun, rfl, rfl, rfl, .inl ⟨rfl, rfl⟩⟩

theorem pastEth_invariant (hwf : Memory.wf s.frame = true) (h : 14 ≤ s.len) :
    (s.pastEth.withPending .header).invariant :=
  ⟨hwf, (by decide : 14 ≤ 98), Nat.zero_le 52, nofun, rfl, rfl, rfl, .inr (.inl ⟨rfl, h, rfl⟩)⟩

theorem pastIp_invariant (hwf : Memory.wf s.frame = true) (h : 34 ≤ s.len) (he : s.halfAt 12 = 0x0800) :
    (s.pastIp.withPending .header).invariant :=
  ⟨hwf, (by decide : 34 ≤ 98), Nat.zero_le 52, nofun, rfl, rfl, rfl, .inr (.inr ⟨rfl, h, he, rfl⟩)⟩

end

/-! ## The operations that the host starts -/

theorem hostStarted_iff (i : Instr) :
    i.hostStarted = true ↔ (i = .decode ∨ i = .run) ∨ i = .render ∨ i = .reset := by
  simp only [Instr.hostStarted, Bool.or_eq_true, decide_eq_true_eq]
  tauto

theorem exec_decode_or_run_invariant {i : Instr} (hi : i = .decode ∨ i = .run) {s t : State}
    (hwf : Memory.wf s.frame = true) (e : exec i s = .next t) : t.invariant := by
  obtain ⟨h, c, hc, k⟩ | ⟨d, c, ls, hc, hd, hlen, hlines, k⟩ := exec_decode_or_run hi s <;>
    obtain rfl := Host.Outcome.next.inj (k.symm.trans e)
  · exact truncatedAs_invariant hwf h hc
  · exact decodedAs_invariant hwf hc hd hlen hlines

/-- An idle unit that shows a record has a complete one (R45). -/
theorem State.coherent.complete {s : State} (h : s.coherent) (hs : s.status = .ok) :
    s.errHdr = none ∧ ∃ n, s.df.complete n := by
  simpa only [State.coherent, hs] using h

/-- RENDER between transactions replaces the lines by a report, or does nothing (R182). -/
theorem exec_render_invariant {s t : State} (hwf : Memory.wf s.frame = true) (hcur : s.cur ≤ 98)
    (hlen : s.lines.length ≤ 52) (hlines : ∀ l ∈ s.lines, isReportLine l) (hp : s.pending = .idle)
    (hc : s.coherent) (e : exec .render s = .next t) : t.invariant := by
  by_cases hs : s.status = .ok
  · obtain ⟨herr, n, hn⟩ := hc.complete hs
    obtain ⟨ls, hls, hcount, hreport⟩ := renderOp_complete hs hn
    obtain rfl := Host.Outcome.next.inj ((congrArg procedure hls).symm.trans e)
    refine ⟨hwf, hcur, hcount.trans_le hn.reportLength_le, hreport, ?_⟩
    simp only [hp, State.coherent, hs]
    exact ⟨herr, n, hn⟩
  · obtain rfl := Host.Outcome.next.inj ((congrArg procedure (renderOp_without_record hs)).symm.trans e)
    exact ⟨hwf, hcur, hlen, hlines, by simpa only [hp] using hc⟩

/-- A started operation of the host runs whole and keeps the invariant (R183, R210, R223). -/
theorem step_started_invariant {s t : State} {i : Instr} (h : s.invariant) (hp : s.pending = .op i)
    (e : step s = .next t) : t.invariant := by
  obtain ⟨hwf, hcur, hlen, hlines, hpending⟩ := h
  simp only [hp] at hpending
  obtain ⟨hi, hc⟩ := hpending
  have hi' := (hostStarted_iff i).mp hi
  have hwfi : i.wf = true := by
    obtain (rfl | rfl) | rfl | rfl := hi' <;> rfl
  simp only [step, hp, hwfi, if_true] at e
  obtain htrans | rfl | rfl := hi'
  · exact exec_decode_or_run_invariant htrans (s := s.withPending .idle) hwf e
  · exact exec_render_invariant (s := s.withPending .idle) hwf hcur hlen hlines rfl hc e
  · obtain rfl := Host.Outcome.next.inj e
    exact resetUnit_invariant (s := s.withPending .idle) hwf

/-! ## The header-by-header run -/

/-- A unit in the middle of a chain is at its start, past the Ethernet header, or past the IPv4 header (log entry
3). -/
theorem State.inChain.cases {s : State} (h : s.inChain) (hp : s.pending = .header) :
    s = s.startHeaders ∨ (14 ≤ s.len ∧ s = s.pastEth.withPending .header) ∨
      (34 ≤ s.len ∧ s.halfAt 12 = 0x0800 ∧ s = s.pastIp.withPending .header) := by
  obtain ⟨hstatus, herr, hlines, hat⟩ := h
  have hs : ∀ d c, s.df = d → s.cur = c →
      s = { s with df := d, status := .idle, errHdr := none, cur := c, lines := [], pending := .header } := by
    rintro d c rfl rfl
    rw [← hstatus, ← herr, ← hlines, ← hp]
  obtain ⟨hc, hd⟩ | ⟨hc, h14, hd⟩ | ⟨hc, h34, he, hd⟩ := hat
  · exact .inl (hs _ _ hd hc)
  · exact .inr (.inl ⟨h14, hs _ _ hd hc⟩)
  · exact .inr (.inr ⟨h34, he, hs _ _ hd hc⟩)

theorem step_header_invariant {s t : State} (h : s.invariant) (hp : s.pending = .header)
    (e : step s = .next t) : t.invariant := by
  obtain ⟨hwf, _, _, _, hpending⟩ := h
  simp only [hp] at hpending
  obtain hs | ⟨h14, hs⟩ | ⟨h34, he, hs⟩ := hpending.cases hp <;> rw [hs] at e
  · rw [step_startHeaders] at e
    split_ifs at e with hl <;> obtain rfl := Host.Outcome.next.inj e
    · exact decodeOutcome_invariant hwf
    · exact pastEth_invariant hwf (Nat.le_of_not_lt hl)
  · rw [step_pastEth h14] at e
    split_ifs at e with hl <;> obtain rfl := Host.Outcome.next.inj e
    · exact pastIp_invariant hwf hl.2 hl.1
    · exact decodeOutcome_invariant hwf
  · rw [step_pastIp h34 he] at e
    obtain rfl := Host.Outcome.next.inj e
    exact decodeOutcome_invariant hwf

/-- Settles O59: idle, started by the host, or in a chain; and what the host does between transactions. -/
theorem stepKeepsInvariant : Obligations.StepKeepsInvariant := by
  refine ⟨fun s t h e => ?_, fun s b i h hp hi => ⟨?_, startHeaders_invariant (Memory.wf_ofBytes b)⟩⟩
  · cases hp : s.pending with
    | idle =>
      simp only [step, hp] at e
      exact Host.Outcome.next.inj e ▸ h
    | op i => exact step_started_invariant h hp e
    | header => exact step_header_invariant h hp e
  · obtain ⟨_, hcur, hlen, hlines, hpending⟩ := h
    simp only [hp] at hpending
    exact ⟨Memory.wf_ofBytes b, hcur, hlen, hlines, hi, hpending⟩

end Sys2Proof.Machine
end

section
/-! O52: what the operations that emit leave (R61, R156, R164). -/

namespace Sys2Proof.Machine

/-- An operation that only emits, run as an instruction: a next state differs by appended report lines only. -/
theorem procedure_appends {x : Op Unit} (h : onlyEmits x) {s t : State} (e : procedure (x s) = .next t) :
    ∃ ls : List Text, t = { s with lines := s.lines ++ ls } ∧ ∀ l ∈ ls, isReportLine l := by
  obtain ⟨ls, hok, hreport⟩ | ⟨r, hrefused⟩ := h s
  · rw [hok, procedure_ok] at e
    exact ⟨ls, (Host.Outcome.next.inj e).symm, hreport⟩
  · rw [hrefused, procedure_refuse] at e
    cases e

/-- Settles O52: each of the operations listed is one that only emits (`onlyEmits`). -/
theorem rendererOnlyAppendsReportLines : Obligations.RendererOnlyAppendsReportLines := by
  intro i s t hi e
  obtain rfl | rfl | rfl | rfl | rfl | rfl | ⟨g, rfl⟩ | ⟨g, rfl⟩ | ⟨g, b, rfl⟩ | ⟨g, c, rfl, hc⟩ := hi
  · exact procedure_appends onlyEmits_renderEther e
  · exact procedure_appends onlyEmits_renderIp e
  · exact procedure_appends onlyEmits_renderDiag e
  · exact procedure_appends onlyEmits_renderIcmp e
  · exact procedure_appends onlyEmits_renderTcp e
  · exact procedure_appends onlyEmits_renderUdp e
  · exact procedure_appends (onlyEmits_renderData g) e
  · exact procedure_appends (onlyEmits_blank g) e
  · exact procedure_appends (onlyEmits_dump g b) e
  · exact procedure_appends (onlyEmits_line g hc) e

end Sys2Proof.Machine
end

section
/-! O24: the decoder inverts the encoder (R82 to R86, R92). An encoding is a list whose length and shape do not
depend on the fields' values, so a slice of it at fixed offsets is found by evaluation; what it decodes to is a
lemma on the slice. -/

namespace Sys2Proof

open Sys2Proof.Machine

/-! ## Fields over encoded bytes (R67, R87 to R89) -/

section
variable {f : List Byte}

/-- A field that is written as whole bytes is read back. -/
theorem field_eq_of_bytesOf {first last hi : Nat} (n : Nat) (v : BitVec (hi + 1))
    (h : (f.drop first).take (last - first + 1) = bytesOf v.toNat n) (hn : 256 ^ n = 2 ^ (hi + 1)) :
    field f first last hi 0 = v :=
  (field_bytesOf n f first last hi v.toNat h v.isLt hn).trans (by simp)

theorem field_eq_extract {a : Nat} (hi lo : Nat) {b : Byte} (h : (f.drop a).take 1 = [b]) :
    field f a a hi lo = b.extractLsb' lo (hi - lo + 1) :=
  (field_single f a hi lo b h).trans (bitsOf_eq_extract b hi lo)

theorem field_eq_byte {a : Nat} {b : Byte} (h : (f.drop a).take 1 = [b]) : field f a a 7 0 = b :=
  (field_eq_extract 7 0 h).trans BitVec.extractLsb'_eq_self

end

/-- The high nibble of a byte that two values share (R83). -/
theorem extract_high_nibble (v w : BitVec 4) :
    (BitVec.ofNat 8 (v.toNat * 16 + w.toNat)).extractLsb' 4 4 = v := by
  have hv := v.isLt
  have hw := w.isLt
  apply BitVec.eq_of_toNat_eq
  simp only [BitVec.extractLsb'_toNat, BitVec.toNat_ofNat, Nat.shiftRight_eq_div_pow]
  omega

/-- The low nibble of a byte that two values share (R83). -/
theorem extract_low_nibble (v w : BitVec 4) :
    (BitVec.ofNat 8 (v.toNat * 16 + w.toNat)).extractLsb' 0 4 = w := by
  have hw := w.isLt
  apply BitVec.eq_of_toNat_eq
  simp only [BitVec.extractLsb'_toNat, BitVec.toNat_ofNat, Nat.shiftRight_zero]
  omega

/-- The data offset's byte, whose low nibble has no field (R85). -/
theorem extract_doff (v : BitVec 4) : (BitVec.ofNat 8 (v.toNat * 16)).extractLsb' 4 4 = v :=
  extract_high_nibble v 0

/-- The flags' byte, whose two high bits have no field (R85). -/
theorem extract_flags (v : BitVec 6) : (BitVec.ofNat 8 v.toNat).extractLsb' 0 6 = v := by
  have hv := v.isLt
  apply BitVec.eq_of_toNat_eq
  simp only [BitVec.extractLsb'_toNat, BitVec.toNat_ofNat, Nat.shiftRight_zero]
  omega

/-! ## The class that the selector bytes of a frame choose (R90, R91) -/

theorem rowAccepts_iff (r : Row) (f : List Byte) :
    rowAccepts r f = true ↔ ∀ p ∈ r.needs, f[p.1]? = some p.2 := by
  simp only [rowAccepts, List.all_eq_true, beq_iff_eq]

/-- Row `ETH` needs no selector byte. -/
theorem decodeAt_eth (f : List Byte) : decodeAt 0 f = decodeRow rowEth .eth f (fieldsEth f) := rfl

/-- Dispatch 1 (R90). -/
theorem decodeAt_dispatchEtype (f : List Byte) : decodeAt 14 f =
    if rowAccepts rowIpv4 f then decodeRow rowIpv4 .ipv4 f (fieldsIpv4 f) else .instr .ethOnly := rfl

/-- Dispatch 2 (R91). -/
theorem decodeAt_dispatchProto (f : List Byte) : decodeAt 34 f =
    if rowAccepts rowIcmp f then decodeRow rowIcmp .icmp f (fieldsIcmp f)
    else if rowAccepts rowTcp f then decodeRow rowTcp .tcp f (fieldsTcp f)
    else if rowAccepts rowUdp f then decodeRow rowUdp .udp f (fieldsUdp f)
    else .instr .ipUnknown := rfl

section
variable {f : List Byte} (h12 : f[12]? = some 0x08) (h13 : f[13]? = some 0x00)
include h12 h13

theorem decodeAt_ipv4 : decodeAt 14 f = decodeRow rowIpv4 .ipv4 f (fieldsIpv4 f) := by
  have h : rowAccepts rowIpv4 f = true := by simp [rowAccepts_iff, rowIpv4, h12, h13]
  rw [decodeAt_dispatchEtype, if_pos h]

/-- A transport row accepts an IPv4 frame exactly by its protocol number. -/
theorem rowAccepts_transport {r : Row} {p q : Byte} (hr : r.needs = [(12, 0x08), (13, 0x00), (23, q)])
    (h23 : f[23]? = some p) : rowAccepts r f = true ↔ p = q := by
  simp [rowAccepts_iff, hr, h12, h13, h23]

/-- Dispatch 2 on an IPv4 frame, by its protocol number. -/
theorem decodeAt_transport {p : Byte} (h23 : f[23]? = some p) : decodeAt 34 f =
    if p = 1 then decodeRow rowIcmp .icmp f (fieldsIcmp f)
    else if p = 6 then decodeRow rowTcp .tcp f (fieldsTcp f)
    else if p = 17 then decodeRow rowUdp .udp f (fieldsUdp f)
    else .instr .ipUnknown :=
  (decodeAt_dispatchProto f).trans <| if_congr (rowAccepts_transport h12 h13 rfl h23) rfl <|
    if_congr (rowAccepts_transport h12 h13 rfl h23) rfl <|
    if_congr (rowAccepts_transport h12 h13 rfl h23) rfl rfl

theorem decodeAt_icmp (h23 : f[23]? = some 1) : decodeAt 34 f = decodeRow rowIcmp .icmp f (fieldsIcmp f) :=
  decodeAt_transport h12 h13 h23

theorem decodeAt_tcp (h23 : f[23]? = some 6) : decodeAt 34 f = decodeRow rowTcp .tcp f (fieldsTcp f) :=
  decodeAt_transport h12 h13 h23

theorem decodeAt_udp (h23 : f[23]? = some 17) : decodeAt 34 f = decodeRow rowUdp .udp f (fieldsUdp f) :=
  decodeAt_transport h12 h13 h23

end

theorem decodeAt_ethOnly {f : List Byte} {b : Byte} (h12 : f[12]? = some b) (hb : b ≠ 0x08) :
    decodeAt 14 f = .instr .ethOnly := by
  have h : ¬ rowAccepts rowIpv4 f = true := fun haccepts => by
    have h8 : f[12]? = some 0x08 := (rowAccepts_iff rowIpv4 f).mp haccepts _ List.mem_cons_self
    exact hb (Option.some.inj (h12.symm.trans h8))
  rw [decodeAt_dispatchEtype, if_neg h]

/-! ## Each class, read back with whatever follows -/

theorem decodeRow_append {r : Row} {h : Hdr} {b : List Byte} {i : Instr} (hb : b.length = r.minLen)
    (rest : List Byte) : decodeRow r h (b ++ rest) i = .instr i :=
  decodeRow_long r h _ i (by simp [hb])

section
variable {b : List Byte} (rest : List Byte)

theorem decodeAt_encode_eth {dst src : BitVec 48} {y : BitVec 16} (h : encode (.eth dst src y) = some b) :
    decodeAt 0 (b ++ rest) = .instr (.eth dst src y) := by
  obtain rfl := Option.some.inj h
  rw [decodeAt_eth, decodeRow_append rfl, fieldsEth, field_eq_of_bytesOf 6 dst rfl rfl,
    field_eq_of_bytesOf 6 src rfl rfl, field_eq_of_bytesOf 2 y rfl rfl]

theorem decodeAt_encode_ipv4 {ver hw : BitVec 4} {tos : BitVec 8} {tl id ff : BitVec 16} {ttl p : BitVec 8}
    {ck : BitVec 16} {src dst : BitVec 32} (h : encode (.ipv4 ver hw tos tl id ff ttl p ck src dst) = some b) :
    decodeAt 14 (b ++ rest) = .instr (.ipv4 ver hw tos tl id ff ttl p ck src dst) := by
  obtain rfl := Option.some.inj h
  rw [decodeAt_ipv4 rfl rfl, decodeRow_append rfl, fieldsIpv4,
    (field_eq_extract 7 4 rfl).trans (extract_high_nibble ver hw),
    (field_eq_extract 3 0 rfl).trans (extract_low_nibble ver hw), field_eq_byte (b := tos) rfl,
    field_eq_of_bytesOf 2 tl rfl rfl, field_eq_of_bytesOf 2 id rfl rfl, field_eq_of_bytesOf 2 ff rfl rfl,
    field_eq_byte (b := ttl) rfl, field_eq_byte (b := p) rfl, field_eq_of_bytesOf 2 ck rfl rfl,
    field_eq_of_bytesOf 4 src rfl rfl, field_eq_of_bytesOf 4 dst rfl rfl]

theorem decodeAt_encode_icmp {ty co : BitVec 8} {ck : BitVec 16} (h : encode (.icmp ty co ck) = some b) :
    decodeAt 34 (b ++ rest) = .instr (.icmp ty co ck) := by
  obtain rfl := Option.some.inj h
  rw [decodeAt_icmp rfl rfl rfl, decodeRow_append rfl, fieldsIcmp, field_eq_byte (b := ty) rfl,
    field_eq_byte (b := co) rfl, field_eq_of_bytesOf 2 ck rfl rfl]

theorem decodeAt_encode_tcp {sp dp : BitVec 16} {sq ak : BitVec 32} {df : BitVec 4} {fl : BitVec 6}
    {wi ck up : BitVec 16} (h : encode (.tcp sp dp sq ak df fl wi ck up) = some b) :
    decodeAt 34 (b ++ rest) = .instr (.tcp sp dp sq ak df fl wi ck up) := by
  obtain rfl := Option.some.inj h
  rw [decodeAt_tcp rfl rfl rfl, decodeRow_append rfl, fieldsTcp, field_eq_of_bytesOf 2 sp rfl rfl,
    field_eq_of_bytesOf 2 dp rfl rfl, field_eq_of_bytesOf 4 sq rfl rfl, field_eq_of_bytesOf 4 ak rfl rfl,
    (field_eq_extract 7 4 rfl).trans (extract_doff df), (field_eq_extract 5 0 rfl).trans (extract_flags fl),
    field_eq_of_bytesOf 2 wi rfl rfl, field_eq_of_bytesOf 2 ck rfl rfl, field_eq_of_bytesOf 2 up rfl rfl]

theorem decodeAt_encode_udp {sp dp ln ck : BitVec 16} (h : encode (.udp sp dp ln ck) = some b) :
    decodeAt 34 (b ++ rest) = .instr (.udp sp dp ln ck) := by
  obtain rfl := Option.some.inj h
  rw [decodeAt_udp rfl rfl rfl, decodeRow_append rfl, fieldsUdp, field_eq_of_bytesOf 2 sp rfl rfl,
    field_eq_of_bytesOf 2 dp rfl rfl, field_eq_of_bytesOf 2 ln rfl rfl, field_eq_of_bytesOf 2 ck rfl rfl]

/-- The ethertype written is 0, one of those that select no header class (log entry 11). -/
theorem decodeAt_encode_ethOnly (h : encode .ethOnly = some b) : decodeAt 14 (b ++ rest) = .instr .ethOnly := by
  obtain rfl := Option.some.inj h
  exact decodeAt_ethOnly (b := 0) rfl (by decide)

/-- The protocol number written is 0, one of those that select no header class (log entry 11). -/
theorem decodeAt_encode_ipUnknown (h : encode .ipUnknown = some b) :
    decodeAt 34 (b ++ rest) = .instr .ipUnknown := by
  obtain rfl := Option.some.inj h
  exact decodeAt_transport (p := 0) rfl rfl rfl

end

/-- A header class decodes from its own encoding, whatever bytes follow; an operation has no encoding (R92). -/
theorem decodeAt_encode {i : Instr} {b : List Byte} (rest : List Byte) (h : encode i = some b) :
    decodeAt i.hdrOffset (b ++ rest) = .instr i := by
  cases i with
  | eth => exact decodeAt_encode_eth rest h
  | ipv4 => exact decodeAt_encode_ipv4 rest h
  | icmp => exact decodeAt_encode_icmp rest h
  | tcp => exact decodeAt_encode_tcp rest h
  | udp => exact decodeAt_encode_udp rest h
  | ethOnly => exact decodeAt_encode_ethOnly rest h
  | ipUnknown => exact decodeAt_encode_ipUnknown rest h
  | _ => cases h

/-- Settles O24: one lemma a class for the round trip; which instructions encode is read off `encode`. -/
theorem decodeEncodeRoundTrip : Obligations.DecodeEncodeRoundTrip :=
  ⟨fun _ _ rest h => decodeAt_encode rest h, fun i => by cases i <;> rfl⟩

end Sys2Proof
end

section
/-! O25, O26, O28: what the decoder selects at each cursor position (R90 to R93), the words of the opcode table,
and the step that runs what it selects. -/

namespace Sys2Proof.Machine

theorem State.fetch_between_headers {s : State} (h0 : s.cur ≠ 0) (h14 : s.cur ≠ 14) (h34 : s.cur ≠ 34) :
    s.fetch = .rejected .noHeaderAt :=
  (if_neg h0).trans <| (if_neg h14).trans (if_neg h34)

/-- Settles O25: position by position. -/
theorem fetchFollowsDispatchMap : Obligations.FetchFollowsDispatchMap := fun _ =>
  ⟨State.fetch_at_eth, State.fetch_at_ipv4, State.fetch_at_transport, State.fetch_between_headers⟩

/-- Settles O26: by evaluating the decoder on each word. -/
theorem tableWordsDecode : Obligations.TableWordsDecode :=
  ⟨by decide, by decide, by decide, by decide, by decide, by decide⟩

theorem step_of_fetch_noHeaderAt {s : State} (hp : s.pending = .header)
    (hf : s.fetch = .rejected .noHeaderAt) : step s = .refused .noHeaderAt := by
  simp only [step, hp, hf]

/-- Settles O28: `State.fetch` is the decoder at the cursor, and the step follows its three answers. -/
theorem stepRunsFetchedHeader : Obligations.StepRunsFetchedHeader := fun _ hp =>
  ⟨fun _ => step_of_fetch_instr hp, fun _ => step_of_fetch_truncated hp, step_of_fetch_noHeaderAt hp⟩

end Sys2Proof.Machine
end

section
/-! O21, O22, O23: each header class run as an instruction (R80 to R86, R94, R95; log entry 3), from the three
shapes a class with a header has. -/

namespace Sys2Proof.Machine

section
variable {n : Nat} {h k : Hdr} {f : Record → Record} {s : State}

/-- A header that hands over to the next class (R90, R91). -/
theorem procedure_header_next : procedure (seqOps [headerOp n h f, thenNextHeader] s) =
    .next (if s.len < s.cur + n then raiseTruncated h s
      else { s with df := f s.df, cur := s.cur + n, pending := .header }) := by
  by_cases hn : s.len < s.cur + n
  · rw [seq_header_short hn, if_pos hn, procedure_trap]
  · rw [seq_header_ok (Nat.le_of_not_lt hn), if_neg hn]
    rfl

/-- A header after which DECODE finishes (R139). -/
theorem procedure_header_finish : procedure (seqOps [headerOp n h f, thenFinish] s) =
    .next (if s.len < s.cur + n then raiseTruncated h s
      else State.finishDecode { s with df := f s.df, cur := s.cur + n }) := by
  by_cases hn : s.len < s.cur + n
  · rw [seq_header_short hn, if_pos hn, procedure_trap]
  · rw [seq_header_ok (Nat.le_of_not_lt hn), if_neg hn]
    rfl

/-- A header with its sample, after which DECODE finishes (R137, R139). -/
theorem procedure_header_capture_finish (hs : 34 ≤ s.len) :
    procedure (seqOps [headerOp n h f, captureSampleOp k, thenFinish] s) =
      .next (if s.len < s.cur + n then raiseTruncated h s
        else State.finishDecode { s with df := s.sampleFields (f s.df), cur := 34 + min 64 (s.len - 34) }) := by
  by_cases hn : s.len < s.cur + n
  · rw [seq_header_short hn, if_pos hn, procedure_trap]
  · rw [seq_header_capture_ok (Nat.le_of_not_lt hn) hs, if_neg hn]
    rfl

end

/-- Settles O21: both classes are a header that hands over; the IPv4 length is the nibble times 4 (R88). -/
theorem ethAndIpv4ClassesContinueChain : Obligations.EthAndIpv4ClassesContinueChain := by
  refine ⟨fun _ _ _ _ => procedure_header_next, fun ver hw tos tl id ff ttl p ck src dst s => ?_⟩
  rw [← mul4Of_nibble hw]
  exact procedure_header_next

/-- Settles O22: ICMP is a header that finishes, TCP and UDP are headers with a sample. -/
theorem transportClassesFinishDecode : Obligations.TransportClassesFinishDecode :=
  ⟨fun _ _ _ _ => procedure_header_finish,
    fun _ _ _ _ _ _ _ _ _ _ hs => procedure_header_capture_finish hs,
    fun _ _ _ _ _ hs => procedure_header_capture_finish hs⟩

/-- Settles O23: no length check stands before the end of DECODE in either class (R94, R95). -/
theorem defaultClassesFinishDecode : Obligations.DefaultClassesFinishDecode := fun _ => ⟨rfl, rfl⟩

end Sys2Proof.Machine
end

section
/-! O30: the header-by-header run ends where DECODE does (R80, R138, R139, R223; log entry 3). -/

namespace Sys2Proof.Machine

theorem run_of_step {s t : State} (k : Nat) (h : step s = .next t) :
    Host.Core.run core (k + 1) s = Host.Core.run core k t := by
  have hstep : core.step s = .next t := h
  simp only [Host.Core.run, hstep]

/-- A chain that has ended stays where it is (R225). -/
theorem run_of_idle {s : State} (h : s.pending = .idle) (k : Nat) : Host.Core.run core k s = .next s := by
  have hstep : step s = .next s := by simp only [step, h]
  induction k with
  | zero => rfl
  | succ k ih => rw [run_of_step k hstep, ih]

theorem decodeOutcome_idle (s : State) : s.decodeOutcome.pending = .idle := by
  obtain ⟨h, c, _, e⟩ | ⟨d, c, _, _, e⟩ := decodeOutcome_cases s <;> rw [e] <;> rfl

/-- From its start the chain needs at most three steps: it stops in the Ethernet header, after it or in the IPv4
header, or with the transport class (R80). -/
theorem run_startHeaders (s : State) : Host.Core.run core 3 s.startHeaders = .next s.decodeOutcome := by
  have hdone := run_of_idle (decodeOutcome_idle s)
  rw [run_of_step 2 (step_startHeaders s)]
  by_cases h14 : s.len < 14
  · rw [if_pos h14, hdone]
  · rw [if_neg h14, run_of_step 1 (step_pastEth (Nat.le_of_not_lt h14))]
    by_cases hip : s.halfAt 12 = 0x0800 ∧ 34 ≤ s.len
    · rw [if_pos hip, run_of_step 0 (step_pastIp hip.2 hip.1), hdone]
    · rw [if_neg hip, hdone]

/-- Settles O30: the chain and the transaction have the same outcome, that of R140's table. -/
theorem headerChainEqualsDecode : Obligations.HeaderChainEqualsDecode := fun s =>
  (run_startHeaders s).trans (procedure_decodeOp s).symm

end Sys2Proof.Machine
end

section
/-! O2, O4 to O11: the primitives of 40_primitives.md run as instructions. The length check and the cursor reads
(R110 to R114) have one shape, "TruncatedInput or the value and the cursor past it"; a value operation (R115 to
R122) changes the returned value only, so what is left to say of it is arithmetic. -/

namespace Sys2Proof.Machine

/-! ## The length check and the cursor reads -/

/-- Settles O2: by the two cases of the comparison. -/
theorem requireChecksRemainingLength : Obligations.RequireChecksRemainingLength := fun n h s => by
  change procedure (requireBytes n h s) = _
  by_cases hn : s.len < s.cur + n
  · rw [requireBytes_short h hn, if_pos hn, procedure_trap]
  · rw [requireBytes_ok h (Nat.le_of_not_lt hn), if_neg hn, procedure_ok]

/-- An operation that reads `n` bytes at the cursor, run as an instruction: it raises, or it returns what it
read and moves the cursor past it (R111 to R114). -/
theorem valued_cursorRead {α : Type} {x : Op α} {f : α → Ret} {n : Nat} {h : Hdr} {s : State} {v : α}
    (hshort : s.len < s.cur + n → x s = .trap (raiseTruncated h s))
    (hok : s.cur + n ≤ s.len → x s = .ok v (s.withCur (s.cur + n))) :
    valued f (x s) = .next (if s.len < s.cur + n then raiseTruncated h s
      else { s with cur := s.cur + n, ret := f v }) := by
  by_cases hn : s.len < s.cur + n
  · rw [hshort hn, if_pos hn]
    rfl
  · rw [hok (Nat.le_of_not_lt hn), if_neg hn]
    rfl

/-- Settles O4. -/
theorem rd8ReturnsByteAtCursor : Obligations.Rd8ReturnsByteAtCursor := fun h _ =>
  valued_cursorRead (readU8_short h) (readU8_ok h)

theorem halfAt_toNat (s : State) (a : Nat) :
    (s.halfAt a).toNat = (s.byteAt a).toNat * 256 + (s.byteAt (a + 1)).toNat :=
  toNat_append_add _ _

theorem wordAt_toNat (s : State) (a : Nat) :
    (s.wordAt a).toNat = (((s.byteAt a).toNat * 256 + (s.byteAt (a + 1)).toNat) * 256 +
      (s.byteAt (a + 2)).toNat) * 256 + (s.byteAt (a + 3)).toNat := by
  simp only [State.wordAt, toNat_append_add, Nat.reducePow]

/-- Settles O5: the fields read are bytes side by side, whose value has the first byte as the most significant. -/
theorem rd16AndRd32AreBigEndian : Obligations.Rd16AndRd32AreBigEndian := fun h s => by
  rw [← wordAt_toNat, ← halfAt_toNat]
  exact ⟨valued_cursorRead (readU16_short h) (readU16_ok h), valued_cursorRead (readU32_short h) (readU32_ok h)⟩

/-- Settles O6. -/
theorem rdbReturnsBytesInFrameOrder : Obligations.RdbReturnsBytesInFrameOrder := fun n h s => by
  have hread := valued_cursorRead (f := Ret.bytes) (readBytesAtCur_short (n := n) h) (readBytesAtCur_ok (s := s) h)
  rwa [← bytesAt_eq_readBytes] at hread

/-! ## The byte-order converter -/

/-- The loop of BE computes the explicit sum (R12, R115). -/
theorem beOf_eq_bigEndianSum (b : List Byte) : beOf b = bigEndianSum b := by
  induction b with
  | nil => rfl
  | cons x b ih => rw [beOf_cons, ih, bigEndianSum]

/-- Settles O7. -/
theorem beIsBigEndianSum : Obligations.BeIsBigEndianSum := fun b s => by
  rw [← beOf_eq_bigEndianSum]
  exact ⟨rfl, beOf_lt b⟩

/-- Byte `i` of `BYTES(v, n)` is the digit of weight `256^(n-1-i)` (R116). -/
theorem bytesOf_getElem? {n i : Nat} (v : Nat) (hi : i < n) :
    (bytesOf v n)[i]? = some (BitVec.ofNat 8 (v / 256 ^ (n - 1 - i))) := by
  simp [bytesOf, hi, Nat.shiftRight_eq_div_pow, pow_mul]

/-- Settles O8: BYTES after BE is `bytesOf_beOf`; BE after BYTES is reduction modulo `256^n`, which leaves `v`. -/
theorem bytesInvertsBe : Obligations.BytesInvertsBe := by
  refine ⟨fun b s => ?_, fun v n s hv => ⟨bytesOf v n, rfl, bytesOf_length v n, ?_, fun i => bytesOf_getElem? v⟩⟩
  · change returns (.bytes (bytesOf (bigEndianSum b) b.length)) s = _
    rw [← beOf_eq_bigEndianSum, bytesOf_beOf]
    rfl
  · rw [← beOf_eq_bigEndianSum, beOf_bytesOf, Nat.mod_eq_of_lt hv]

/-! ## The bit-field extractor and the arithmetic -/

/-- U8 keeps the residue modulo 256, for every integer (R117). -/
theorem u8Of_toNat (v : Int) : ((u8Of v).toNat : Int) = v % 256 := by
  rw [u8Of, BitVec.toNat_ofNat]
  omega

/-- Settles O9: in the range of R117 the residue is `v` itself or `v + 256`. -/
theorem u8NormalisesSignedByte : Obligations.U8NormalisesSignedByte := fun v s hlo hhi => by
  have hres := u8Of_toNat v
  refine ⟨(u8Of v).toNat, rfl, (u8Of v).isLt, hres, ?_⟩
  split <;> omega

/-- Bit `k` of a slice is bit `lo + k` of the value, up to the slice's width (R119). -/
theorem bitsOf_testBit (v hi lo k : Nat) :
    (bitsOf v hi lo).testBit k = (decide (k ≤ hi - lo) && v.testBit (lo + k)) := by
  rw [bitsOf, Nat.testBit_mod_two_pow, Nat.testBit_shiftRight]
  simp only [Nat.lt_succ_iff]

/-- Settles O10: bit by bit. -/
theorem bitAndBitsExtractPositions : Obligations.BitAndBitsExtractPositions := by
  refine ⟨fun w v i s _ _ => ?_, fun w v hi lo s _ _ _ => ⟨bitsOf v hi lo, rfl, ?_, fun k hk => ?_, fun k hk => ?_⟩⟩
  · change returns (.num (bitOf v i)) s = _
    rw [bitOf_eq_testBit, Bool.toNat, Bool.cond_eq_ite]
    rfl
  · rw [bitsOf, Nat.shiftRight_eq_div_pow]
  · simp [bitsOf_testBit, hk]
  · simp [bitsOf_testBit, Nat.not_le.mpr hk]

/-- Settles O11: MUL4 and MUL8 by definition; MIN and EQ are the model's `if` and `==`. -/
theorem arithmeticIsExact : Obligations.ArithmeticIsExact := fun v a b w s => by
  refine ⟨rfl, rfl, ?_, rfl⟩
  rw [← minimumOf_eq]
  rfl

end Sys2Proof.Machine
end

section
/-! O12 to O18, O31, O33: the Decoder's operations run as instructions from every state (R131 to R137), the table of
DECODE's outcomes (R140), and what of the frame they depend on (R7, R141). -/

namespace Sys2Proof.Machine

/-! ## The parse operations (R131 to R136) -/

/-- A parse operation run as an instruction: TruncatedInput is taken when fewer than `n` bytes are left (R110). -/
theorem procedure_parse {x : Op Unit} {n : Nat} {h : Hdr} {s t : State}
    (hshort : s.len < s.cur + n → x s = .trap (raiseTruncated h s))
    (hok : s.cur + n ≤ s.len → x s = .ok () t) :
    procedure (x s) = .next (if s.len < s.cur + n then raiseTruncated h s else t) := by
  by_cases hn : s.len < s.cur + n
  · rw [hshort hn, if_pos hn, procedure_trap]
  · rw [hok (Nat.le_of_not_lt hn), if_neg hn, procedure_ok]

/-- Settles O12. -/
theorem parseEthReadsHeader : Obligations.ParseEthReadsHeader := fun _ =>
  procedure_parse parseEthOp_short parseEthOp_ok

/-- Settles O13. -/
theorem parseIpv4ReadsHeader : Obligations.ParseIpv4ReadsHeader := fun _ =>
  procedure_parse parseIpv4Op_short parseIpv4Op_ok

/-- Settles O14. -/
theorem parseIcmpReadsHeader : Obligations.ParseIcmpReadsHeader := fun _ =>
  procedure_parse parseIcmpOp_short parseIcmpOp_ok

/-- Settles O15. -/
theorem parseTcpReadsHeader : Obligations.ParseTcpReadsHeader := fun _ =>
  procedure_parse parseTcpOp_short parseTcpOp_ok

/-- Settles O16. -/
theorem parseUdpReadsHeader : Obligations.ParseUdpReadsHeader := fun _ =>
  procedure_parse parseUdpOp_short parseUdpOp_ok

/-- Settles O17: PARSE_UNKNOWN has no length check, so it always goes on. -/
theorem parseUnknownSetsDiagnostic : Obligations.ParseUnknownSetsDiagnostic := fun s =>
  congrArg procedure (parseUnknownOp_eq s)

/-! ## The sample (R28, R137) -/

theorem bytesAt_getElem? (s : State) (a : Nat) {n i : Nat} (hi : i < n) :
    (s.bytesAt a n)[i]? = some (s.byteAt (a + i)) := by
  rw [bytesAt_eq_readBytes, Memory.readBytes_getElem?, if_pos hi, State.byteAt]

/-- Settles O18: the next state is that of `captureSampleOp_ok`, whatever class is in progress; at most 64 bytes fit
the 7 bits of the sample's length. -/
theorem captureSampleTakesTransportBytes : Obligations.CaptureSampleTakesTransportBytes := fun s h => by
  refine ⟨_, congrArg procedure (captureSampleOp_ok _ h), rfl, sampleLen_toNat _, bytesAt_length s 34 _,
    fun _ => bytesAt_getElem? s 34, ?_⟩
  change 34 + min 64 (s.len - 34) ≤ s.len
  omega

/-! ## The table of DECODE's outcomes (R140) -/

/-- Settles O31: the table is `State.decodeOutcome`, with the lines behind the IPv4 header as
`State.transportOutcome`. -/
theorem decodeOutcomeTable : Obligations.DecodeOutcomeTable := procedure_decodeOp

/-! ## Two frames that agree below an offset (R7, R141) -/

/-- The two frames have the same bytes at the offsets below `n`. -/
def State.agreesBelow (n : Nat) (s s' : State) : Prop := ∀ a < n, s.byteAt a = s'.byteAt a

section
variable {n a : Nat} {s s' : State}

theorem State.agreesBelow.mono {m : Nat} (h : State.agreesBelow n s s') (hm : m ≤ n) :
    State.agreesBelow m s s' := fun a ha => h a (ha.trans_le hm)

theorem State.agreesBelow.halfAt (h : State.agreesBelow n s s') (ha : a + 2 ≤ n) :
    s.halfAt a = s'.halfAt a := by
  simp (disch := omega) only [State.halfAt, h _]

theorem State.agreesBelow.wordAt (h : State.agreesBelow n s s') (ha : a + 4 ≤ n) :
    s.wordAt a = s'.wordAt a := by
  simp (disch := omega) only [State.wordAt, h _]

theorem State.agreesBelow.macAt (h : State.agreesBelow n s s') (ha : a + 6 ≤ n) :
    s.macAt a = s'.macAt a := by
  simp (disch := omega) only [State.macAt, h _]

theorem State.agreesBelow.bytesAt {k : Nat} (h : State.agreesBelow n s s') (ha : a + k ≤ n) :
    s.bytesAt a k = s'.bytesAt a k :=
  List.map_congr_left fun i hi => h (a + i) (by have := List.mem_range.mp hi; omega)

/-! Each header's fields depend on the bytes up to the header's end only (R82 to R86). -/

theorem State.agreesBelow.ethRecord (h : State.agreesBelow 14 s s') : s.ethRecord = s'.ethRecord := by
  simp (disch := omega) only [State.ethRecord, State.ethFields, h.macAt, h.halfAt]

theorem State.agreesBelow.ipRecord (h : State.agreesBelow 34 s s') : s.ipRecord = s'.ipRecord := by
  have heth := (h.mono (by decide : 14 ≤ 34)).ethRecord
  simp (disch := omega) only [State.ipRecord, State.ipFields, heth, h _, h.halfAt, h.wordAt]

theorem State.agreesBelow.icmpFields (h : State.agreesBelow 38 s s') (d : Record) :
    s.icmpFields 34 d = s'.icmpFields 34 d := by
  simp (disch := omega) only [State.icmpFields, h _, h.halfAt]

theorem State.agreesBelow.tcpFields (h : State.agreesBelow 54 s s') (d : Record) :
    s.tcpFields 34 d = s'.tcpFields 34 d := by
  simp (disch := omega) only [State.tcpFields, h _, h.halfAt, h.wordAt]

theorem State.agreesBelow.udpFields (h : State.agreesBelow 42 s s') (d : Record) :
    s.udpFields 34 d = s'.udpFields 34 d := by
  simp (disch := omega) only [State.udpFields, h.halfAt]

/-- The sample ends with the frame or at offset 98 (R7). -/
theorem State.agreesBelow.sampleFields (h : State.agreesBelow (min s.len 98) s s') (hlen : s.len = s'.len)
    (hs : 34 ≤ s.len) (d : Record) : s.sampleFields d = s'.sampleFields d := by
  have hsample := h.bytesAt (a := 34) (k := min 64 (s.len - 34)) (by omega)
  rw [State.sampleFields, State.sampleFields, hsample, hlen]

end

/-! ## DECODE sees `LEN` and the visible bytes only (R141) -/

/-- R141's "same outcome": the two states agree in everything that DECODE sets, and no line is left. -/
def State.decodesLike (t t' : State) : Prop :=
  t.status = t'.status ∧ t.errHdr = t'.errHdr ∧ t.df = t'.df ∧ t.lines = [] ∧ t'.lines = [] ∧ t.cur = t'.cur

theorem truncatedAs_decodesLike (s s' : State) (h : Hdr) (c : Nat) :
    (s.truncatedAs h c).decodesLike (s'.truncatedAs h c) := ⟨rfl, rfl, rfl, rfl, rfl, rfl⟩

section
variable {s s' : State}

theorem decodedAs_decodesLike {d d' : Record} (hlen : s.len = s'.len) (hd : d = d') (c : Nat) :
    (s.decodedAs d c).decodesLike (s'.decodedAs d' c) := by
  refine ⟨rfl, rfl, ?_, rfl, rfl, rfl⟩
  simp only [State.decodedAs, hlen, hd]

/-- The lines of the table behind the IPv4 header (R91). -/
theorem transportOutcome_decodesLike (hlen : s.len = s'.len) (h : State.agreesBelow (min s.len 98) s s')
    (h34 : 34 ≤ s.len) : s.transportOutcome.decodesLike s'.transportOutcome := by
  have hproto : s.byteAt 23 = s'.byteAt 23 := h 23 (by omega)
  have hip : s.ipRecord = s'.ipRecord := (h.mono (by omega)).ipRecord
  have hsample := h.sampleFields hlen h34
  unfold State.transportOutcome
  rw [← hproto, ← hlen, ← hip]
  split_ifs with h1 h38 h6 h54 h17 h42
  · exact truncatedAs_decodesLike s s' _ _
  · exact decodedAs_decodesLike hlen ((h.mono (by omega)).icmpFields _) _
  · exact truncatedAs_decodesLike s s' _ _
  · have htcp := (h.mono (by omega : 54 ≤ _)).tcpFields s.ipRecord
    exact decodedAs_decodesLike hlen (by rw [hsample, htcp]) _
  · exact truncatedAs_decodesLike s s' _ _
  · have hudp := (h.mono (by omega : 42 ≤ _)).udpFields s.ipRecord
    exact decodedAs_decodesLike hlen (by rw [hsample, hudp]) _
  · exact decodedAs_decodesLike hlen rfl _

/-- The table asks for a byte only on a line that the checks of `LEN` before it let through. -/
theorem decodeOutcome_decodesLike (hlen : s.len = s'.len) (h : State.agreesBelow (min s.len 98) s s') :
    s.decodeOutcome.decodesLike s'.decodeOutcome := by
  unfold State.decodeOutcome
  rw [← hlen]
  by_cases h14 : s.len < 14
  · rw [if_pos h14, if_pos h14]
    exact truncatedAs_decodesLike s s' _ _
  · rw [if_neg h14, if_neg h14, ← h.halfAt (a := 12) (by omega)]
    split_ifs with hetype h34
    · exact decodedAs_decodesLike hlen (h.mono (by omega)).ethRecord _
    · exact truncatedAs_decodesLike s s' _ _
    · exact transportOutcome_decodesLike hlen h (Nat.le_of_not_lt h34)

end

/-- Settles O33: both DECODEs end as the table says, and the table depends on `LEN` and the visible bytes only. -/
theorem decodeDependsOnVisibleBytesOnly : Obligations.DecodeDependsOnVisibleBytesOnly := fun s s' hlen h =>
  ⟨_, _, procedure_decodeOp s, procedure_decodeOp s', decodeOutcome_decodesLike hlen h⟩

end Sys2Proof.Machine
end

section
/-! O35 to O43: the primitives of 42_render_primitives.md. The formatting operations run as instructions (R150 to
R162), each as a fact about the string it returns, and the operations that emit (R156, R163). -/

namespace Sys2Proof.Machine

/-! ## Strings side by side -/

/-- In the strings of the elements of a list side by side, the string of element `i` begins where those of the
elements before it end. -/
theorem getElem?_flatMap_of_getElem? {α β : Type} {l : List α} {f : α → List β} {i j : Nat} {a : α}
    (ha : l[i]? = some a) (hj : j < (f a).length) :
    (l.flatMap f)[((l.take i).flatMap f).length + j]? = (f a)[j]? := by
  obtain ⟨hi, rfl⟩ := List.getElem?_eq_some_iff.mp ha
  have hsplit : l.flatMap f = (l.take i).flatMap f ++ (f l[i] ++ (l.drop (i + 1)).flatMap f) := by
    rw [← List.flatMap_cons, ← List.flatMap_append, List.getElem_cons_drop, List.take_append_drop]
  rw [hsplit, List.getElem?_append_right (Nat.le_add_right _ _), Nat.add_sub_cancel_left,
    List.getElem?_append_left hj]

/-! ## Hexadecimal digits (R16, R150, R151) -/

theorem hexd_isHexDigit {k : Nat} (hk : k < 16) : isHexDigit k (hexd k) := by
  have hlen : k < (txt "0123456789abcdef").length := hk
  change (txt "0123456789abcdef")[k]? = some ((txt "0123456789abcdef").getD k '0')
  rw [List.getD_eq_getElem?_getD, List.getElem?_eq_getElem hlen, Option.getD_some]

/-- HEX2 in the arithmetic of the claims: the quotient's digit, then the remainder's (R123, R150). -/
theorem hex2Of_eq (b : Byte) : hex2Of b = [hexd (b.toNat / 16), hexd (b.toNat % 16)] := by
  have hb := b.isLt
  have hhigh : bitsOf b.toNat 7 4 = b.toNat / 16 := by
    simp only [bitsOf, Nat.shiftRight_eq_div_pow]
    omega
  rw [hex2Of, hhigh]
  rfl

theorem hexd_high_isHexDigit (b : Byte) : isHexDigit (b.toNat / 16) (hexd (b.toNat / 16)) :=
  hexd_isHexDigit (Nat.div_lt_of_lt_mul b.isLt)

theorem hexd_low_isHexDigit (b : Byte) : isHexDigit (b.toNat % 16) (hexd (b.toNat % 16)) :=
  hexd_isHexDigit (Nat.mod_lt _ (by decide))

theorem flatMap_hex2Of_length (b : List Byte) : (b.flatMap hex2Of).length = 2 * b.length := by
  simp [List.length_flatMap, Nat.mul_comm]

/-- Digit `j` of byte `i` stands behind `0x` and the two digits of each byte before it (R151). -/
theorem hexbytesOf_getElem? {b : List Byte} {i j : Nat} {v : Byte} (hv : b[i]? = some v) (hj : j < 2) :
    (hexbytesOf b)[2 + 2 * i + j]? = (hex2Of v)[j]? := by
  have hi : i < b.length := (List.getElem?_eq_some_iff.mp hv).1
  have hbefore : ((b.take i).flatMap hex2Of).length = 2 * i := by
    rw [flatMap_hex2Of_length, List.length_take_of_le hi.le]
  have hdigit := getElem?_flatMap_of_getElem? (f := hex2Of) hv hj
  rw [hbefore] at hdigit
  rw [← hdigit, show 2 + 2 * i + j = 2 * i + j + 2 by omega]
  rfl

/-- Settles O35: both digits of a byte are `hexd` of a number below 16, and byte `i` has its digits at `2 + 2i`. -/
theorem hex2AndHexbytesGiveDigits : Obligations.Hex2AndHexbytesGiveDigits := by
  refine ⟨fun b s => ⟨_, _, ?_, hexd_high_isHexDigit b, hexd_low_isHexDigit b⟩,
    fun b s => ⟨hexbytesOf b, rfl, ?_, rfl, fun i v hv => ?_⟩⟩
  · rw [← hex2Of_eq]
    rfl
  · rw [hexbytesOf, List.length_append, flatMap_hex2Of_length]
    rfl
  · have hx := hexbytesOf_getElem? hv (j := 0) (by decide)
    have hy := hexbytesOf_getElem? hv (j := 1) (by decide)
    rw [hex2Of_eq] at hx hy
    rw [show 2 + 2 * i + 1 = 3 + 2 * i by omega] at hy
    exact ⟨_, _, hx, hy, hexd_high_isHexDigit v, hexd_low_isHexDigit v⟩

/-! ## Decimal numerals (R16, R152) -/

/-- The loop of DEC puts the digits of `v`, the most significant first, before what it holds; as many passes as
`v` has bits are enough. -/
theorem decLoop_eq (n : Nat) : ∀ (v : Nat) (t : Text), v < 2 ^ n →
    decLoop n v t = (Nat.digits 10 v).reverse.map hexd ++ t := by
  induction n with
  | zero =>
    intro v t hv
    obtain rfl : v = 0 := by omega
    simp [decLoop]
  | succ n ih =>
    intro v t hv
    rw [decLoop]
    split
    · next h => simp [h]
    · next h =>
      rw [ih _ _ (by omega), Nat.digits_def' (by decide) (Nat.pos_of_ne_zero h)]
      simp

theorem decOf_zero : decOf 0 = ['0'] := rfl

/-- DEC of a positive number is its digits, the most significant first (R152). -/
theorem decOf_of_ne_zero {v : Nat} (hv : v ≠ 0) : decOf v = (Nat.digits 10 v).reverse.map hexd := by
  rw [decOf, if_neg hv, decLoop_eq _ _ _ Nat.lt_log2_self, List.append_nil]

/-- `hexd` of a number below 10 is its decimal digit; only that of 0 is `'0'` (R16). -/
theorem hexd_decimal {d : Nat} (hd : d < 10) :
    ('0' ≤ hexd d ∧ hexd d ≤ '9') ∧ (hexd d).toNat - 48 = d ∧ (hexd d = '0' → d = 0) := by
  interval_cases d <;> decide

/-- The value of a numeral, digit by digit from the left, is the sum of its digits' weights (R16). -/
theorem foldl_map_hexd_reverse (ds : List Nat) (hds : ∀ d ∈ ds, d < 10) :
    (ds.reverse.map hexd).foldl (fun n c => 10 * n + (c.toNat - 48)) 0 = Nat.ofDigits 10 ds := by
  induction ds with
  | nil => rfl
  | cons d ds ih =>
    rw [List.reverse_cons, List.map_append, List.foldl_append, ih fun e he => hds e (List.mem_cons_of_mem d he),
      Nat.ofDigits_cons]
    obtain ⟨-, hd, -⟩ := hexd_decimal (hds d List.mem_cons_self)
    simp [hd, Nat.add_comm]

theorem decOf_isDecimal (v : Nat) : isDecimal v (decOf v) := by
  by_cases hv : v = 0
  · subst hv
    rw [decOf_zero]
    exact ⟨by simp, by simp, rfl, fun _ => rfl⟩
  · have hne : Nat.digits 10 v ≠ [] := Nat.digits_ne_nil_iff_ne_zero.mpr hv
    have hlt : ∀ d ∈ Nat.digits 10 v, d < 10 := fun d hd => Nat.digits_lt_base (by decide) hd
    rw [decOf_of_ne_zero hv]
    refine ⟨by simp [hne], fun c hc => ?_, ?_, fun hhead => ?_⟩
    · obtain ⟨d, hd, rfl⟩ := List.mem_map.mp hc
      exact (hexd_decimal (hlt d (List.mem_reverse.mp hd))).1
    · rw [foldl_map_hexd_reverse _ hlt, Nat.ofDigits_digits]
    · rw [List.head?_map, List.head?_reverse, List.getLast?_eq_some_getLast hne, Option.map_some,
        Option.some_inj] at hhead
      obtain ⟨-, -, hzero⟩ := hexd_decimal (hlt _ (List.getLast_mem hne))
      exact absurd (hzero hhead) (Nat.getLast_digit_ne_zero 10 hv)

/-- Settles O36: the numeral is the digits of `v` in base 10, whose most significant one is not 0. -/
theorem decGivesDecimalNumeral : Obligations.DecGivesDecimalNumeral := fun v _ =>
  ⟨decOf v, rfl, decOf_isDecimal v⟩

/-- A number below `10^k` has at most `k` decimal digits (R16). -/
theorem decOf_length_le {v k : Nat} (hk : 1 ≤ k) (hv : v < 10 ^ k) : (decOf v).length ≤ k := by
  by_cases h : v = 0
  · rw [h]
    exact hk
  · rw [decOf_of_ne_zero h, List.length_map, List.length_reverse]
    exact (Nat.digits_length_le_iff (by decide) v).mpr hv

theorem decOf_length_pos (v : Nat) : 1 ≤ (decOf v).length :=
  List.length_pos_of_ne_nil (decOf_isDecimal v).1

/-! ## Addresses (R153, R154) -/

/-- A field as wide as its bytes holds them: the value of `n` bytes is below `256^n` (R68, R116). -/
theorem bytesOf_ofNat_beOf {w : Nat} (s : List Byte) (hw : w = 8 * s.length) :
    bytesOf (BitVec.ofNat w (beOf s)).toNat s.length = s := by
  have hlt : beOf s < 2 ^ w := by
    rw [hw, pow_mul]
    exact beOf_lt s
  rw [BitVec.toNat_ofNat, Nat.mod_eq_of_lt hlt, bytesOf_beOf]

theorem bytesOf_mac (a b c d e f : Byte) :
    bytesOf (a ++ b ++ c ++ d ++ e ++ f).toNat 6 = [a, b, c, d, e, f] := by
  rw [← beOf_six]
  exact bytesOf_ofNat_beOf [a, b, c, d, e, f] rfl

theorem bytesOf_ip4 (a b c d : Byte) : bytesOf (a ++ b ++ c ++ d).toNat 4 = [a, b, c, d] := by
  rw [← beOf_four]
  exact bytesOf_ofNat_beOf [a, b, c, d] rfl

/-- A decimal byte group has one to three digits (R154). -/
theorem decOf_byte_length (b : Byte) : 1 ≤ (decOf b.toNat).length ∧ (decOf b.toNat).length ≤ 3 := by
  have hb := b.isLt
  exact ⟨decOf_length_pos _, decOf_length_le (by decide) (by omega)⟩

theorem fmtMacOf_eq (a b c d e f : Byte) : fmtMacOf (a ++ b ++ c ++ d ++ e ++ f) =
    hex2Of a ++ txt ":" ++ hex2Of b ++ txt ":" ++ hex2Of c ++ txt ":" ++ hex2Of d ++ txt ":" ++
      hex2Of e ++ txt ":" ++ hex2Of f := by
  rw [fmtMacOf, bytesOf_mac]
  rfl

theorem fmtIp4Of_eq (a b c d : Byte) : fmtIp4Of (a ++ b ++ c ++ d) =
    decOf a.toNat ++ txt "." ++ decOf b.toNat ++ txt "." ++ decOf c.toNat ++ txt "." ++ decOf d.toNat := by
  rw [fmtIp4Of, bytesOf_ip4]
  simp [joinWith, txt]

/-- Settles O37: the bytes of an address are its byte groups; a MAC group has two digits, an IP group one to three. -/
theorem addressFormatsJoinGroups : Obligations.AddressFormatsJoinGroups := by
  refine ⟨fun a b c d e f s => ⟨_, rfl, ?_, fmtMacOf_eq a b c d e f⟩, fun a b c d s => ?_⟩
  · rw [fmtMacOf_eq]
    rfl
  · have ha := decOf_byte_length a
    have hb := decOf_byte_length b
    have hc := decOf_byte_length c
    have hd := decOf_byte_length d
    have hlen : (fmtIp4Of (a ++ b ++ c ++ d)).length = (decOf a.toNat).length + 1 + (decOf b.toNat).length + 1 +
        (decOf c.toNat).length + 1 + (decOf d.toNat).length := by
      rw [fmtIp4Of_eq]
      simp only [List.length_append]
      rfl
    exact ⟨_, rfl, by omega, by omega, fmtIp4Of_eq a b c d⟩

/-! ## The lines and their parts (R155 to R160) -/

/-- Settles O38: the five columns tag by tag; BLANK is LINE with no content (R156). -/
theorem prefixLineAndBlank : Obligations.PrefixLineAndBlank := fun g _ s =>
  ⟨prefixOf g, rfl, prefixOf_length g, by cases g <;> rfl, rfl, congrArg procedure (blankOp_eq g s)⟩

/-- Settles O39: the three strings by definition, with `P_NO` of the string table (R170). -/
theorem kvAnnotAndFlaglabel : Obligations.KvAnnotAndFlaglabel := fun _ _ _ _ => ⟨rfl, rfl, rfl⟩

/-- The character that MASK8 shows for position `p` (R158). -/
def maskChar (pos : Fin 8) (b : BitVec 1) (p : Nat) : Char :=
  if p = pos.val then (if b = 1 then '1' else '0') else '.'

theorem hexd_bit (b : BitVec 1) : hexd b.toNat = if b = 1 then '1' else '0' := by
  obtain rfl | rfl := BitVec.eq_zero_or_eq_one b <;> rfl

/-- The columns of the mask: the high nibble's positions, a space, the low nibble's (R158). -/
theorem mask8Of_eq (pos : Fin 8) (b : BitVec 1) : mask8Of pos b =
    [maskChar pos b 7, maskChar pos b 6, maskChar pos b 5, maskChar pos b 4, ' ',
      maskChar pos b 3, maskChar pos b 2, maskChar pos b 1, maskChar pos b 0] := by
  unfold mask8Of maskChar
  rw [hexd_bit]
  rfl

/-- Settles O40: column by column of `mask8Of_eq`. -/
theorem mask8ShowsOneBit : Obligations.Mask8ShowsOneBit := fun pos b _ => by
  refine ⟨mask8Of pos b, rfl, ?_, ?_, fun p hp => ?_⟩
  · rw [mask8Of_eq]
    rfl
  · rw [mask8Of_eq]
    rfl
  · change _ = some (maskChar pos b p)
    rw [mask8Of_eq]
    interval_cases p <;> rfl

/-! ## The dump (R161 to R163) -/

/-- A printable byte's character has the byte as its code (R162). -/
theorem asciiChOf_toNat {b : Byte} (h : 0x20 ≤ b.toNat ∧ b.toNat ≤ 0x7E) : (asciiChOf b).toNat = b.toNat := by
  have hp : printableByte b = true := by simp [printableByte, h]
  rw [asciiChOf, if_pos hp, Char.toNat_ofNat, if_pos (Or.inl (by omega))]

theorem asciiChOf_unprintable {b : Byte} (h : ¬ (0x20 ≤ b.toNat ∧ b.toNat ≤ 0x7E)) : asciiChOf b = '.' := by
  have hp : ¬ printableByte b = true := by simpa [printableByte] using h
  rw [asciiChOf, if_neg hp]

/-- Settles O42: by the two cases of `PRINTABLE`. -/
theorem asciiChMapsToPrintable : Obligations.AsciiChMapsToPrintable := fun b _ => by
  refine ⟨asciiChOf b, rfl, ?_⟩
  split
  · next h => exact asciiChOf_toNat h
  · next h => exact asciiChOf_unprintable h

/-- The first `n` slots of the hex area: two characters each, and a space after every second one (R161). -/
theorem flatMap_dumpSlot_length (b : List Byte) (n : Nat) :
    ((List.range n).flatMap (dumpSlot b)).length = 2 * n + n / 2 := by
  induction n with
  | zero => rfl
  | succ n ih =>
    rw [List.range_succ, List.flatMap_append, List.length_append, ih, List.flatMap_singleton, dumpSlot_length]
    split <;> omega

theorem dumpSlot_of_some {b : List Byte} {i : Nat} {v : Byte} (h : b[i]? = some v) :
    dumpSlot b i = hex2Of v ++ if i % 2 = 1 then [' '] else [] := by
  rw [dumpSlot, h]
  rfl

theorem dumpSlot_of_none {b : List Byte} {i : Nat} (h : b[i]? = none) :
    dumpSlot b i = [' ', ' '] ++ if i % 2 = 1 then [' '] else [] := by
  rw [dumpSlot, h]
  rfl

section
variable {b : List Byte}

theorem dumpRowOf_length (hb : b.length ≤ 16) : (dumpRowOf b).length = 56 := by
  simp only [dumpRowOf, List.length_append, flatMap_dumpSlot_length, List.length_map, List.length_replicate,
    Config.rowBytes]
  omega

/-- Slot `i` stands in the hex area from column `2i + i/2` on (R161). -/
theorem dumpRowOf_getElem?_slot {i j : Nat} (hi : i < 16) (hj : j < (dumpSlot b i).length) :
    (dumpRowOf b)[2 * i + i / 2 + j]? = (dumpSlot b i)[j]? := by
  have hslot := getElem?_flatMap_of_getElem? (f := dumpSlot b) (List.getElem?_range hi) hj
  rw [List.take_range, Nat.min_eq_left hi.le, flatMap_dumpSlot_length] at hslot
  rw [← hslot, dumpRowOf, List.append_assoc]
  apply List.getElem?_append_left
  rw [dumpSlot_length] at hj
  change _ < ((List.range 16).flatMap (dumpSlot b)).length
  rw [flatMap_dumpSlot_length]
  split at hj <;> omega

/-- The two characters of slot `i` (R161). -/
theorem dumpRowOf_getElem?_digits {i : Nat} (hi : i < 16) :
    (dumpRowOf b)[2 * i + i / 2]? = (dumpSlot b i)[0]? ∧
      (dumpRowOf b)[2 * i + i / 2 + 1]? = (dumpSlot b i)[1]? :=
  ⟨dumpRowOf_getElem?_slot (j := 0) hi (by rw [dumpSlot_length]; omega),
    dumpRowOf_getElem?_slot (j := 1) hi (by rw [dumpSlot_length]; omega)⟩

/-- The space behind the odd slot `2k + 1`, whether its byte is present or missing (R161). -/
theorem dumpRowOf_getElem?_space {k : Nat} (hk : k < 8) : (dumpRowOf b)[5 * k + 4]? = some ' ' := by
  have hodd : (2 * k + 1) % 2 = 1 := by omega
  have hlen : 2 < (dumpSlot b (2 * k + 1)).length := by
    rw [dumpSlot_length, if_pos hodd]
    decide
  rw [show 5 * k + 4 = 2 * (2 * k + 1) + (2 * k + 1) / 2 + 2 by omega,
    dumpRowOf_getElem?_slot (by omega) hlen]
  cases h : b[2 * k + 1]? with
  | none =>
    rw [dumpSlot_of_none h, if_pos hodd]
    rfl
  | some v =>
    rw [dumpSlot_of_some h, if_pos hodd]
    rfl

/-- The ASCII column: behind the 40 characters of the hex area, and as wide as a row has bytes (R161). -/
theorem dumpRowOf_getElem?_ascii (i : Nat) :
    (dumpRowOf b)[40 + i]? = (b.map asciiChOf ++ List.replicate (16 - b.length) '.')[i]? := by
  have harea : ((List.range Config.rowBytes).flatMap (dumpSlot b)).length = 40 := flatMap_dumpSlot_length b 16
  rw [dumpRowOf, List.append_assoc, List.getElem?_append_right (by omega), harea, Nat.add_sub_cancel_left]
  rfl

end

/-- Settles O41: the columns of a present byte, of a missing one, and the space at the end of each odd slot. -/
theorem dumpRowColumns : Obligations.DumpRowColumns := fun b _ _ hb => by
  refine ⟨dumpRowOf b, rfl, dumpRowOf_length hb, fun i v hv => ?_, fun i hi hmissing => ?_,
    fun k hk => dumpRowOf_getElem?_space hk⟩
  · have hi : i < b.length := (List.getElem?_eq_some_iff.mp hv).1
    obtain ⟨hx, hy⟩ := dumpRowOf_getElem?_digits (b := b) (hi.trans_le hb)
    rw [dumpSlot_of_some hv, hex2Of_eq] at hx hy
    refine ⟨_, _, hx, hy, hexd_high_isHexDigit v, hexd_low_isHexDigit v, ?_⟩
    rw [dumpRowOf_getElem?_ascii, List.getElem?_append_left (by simpa using hi), List.getElem?_map, hv]
    rfl
  · obtain ⟨hx, hy⟩ := dumpRowOf_getElem?_digits (b := b) hi
    rw [dumpSlot_of_none (List.getElem?_eq_none hmissing)] at hx hy
    refine ⟨hx, hy, ?_⟩
    rw [dumpRowOf_getElem?_ascii, List.getElem?_append_right (by simpa using hmissing), List.length_map]
    exact List.getElem?_replicate_of_lt (by omega)

/-- Row `k` of a dump is the DUMP_ROW of the bytes from `16k` on (R163). -/
theorem dumpRowsOf_getElem? {b : List Byte} {k : Nat} (hk : k < (b.length + 15) / 16) :
    (dumpRowsOf b)[k]? = some (dumpRowOf ((b.drop (16 * k)).take 16)) := by
  rw [dumpRowsOf, List.getElem?_map]
  exact congrArg _ (List.getElem?_range hk)

/-- Settles O43: DUMP emits its rows, each behind its tag. -/
theorem dumpEmitsRows : Obligations.DumpEmitsRows := fun g b s _ => by
  refine ⟨(dumpRowsOf b).map (prefixOf g ++ ·), congrArg procedure (dumpOp_eq g b s), ?_, fun k hk => ?_⟩
  · rw [List.length_map, dumpRowsOf_length]
  · refine ⟨dumpRowOf ((b.drop (16 * k)).take 16), ?_, rfl⟩
    rw [List.getElem?_map, dumpRowsOf_getElem? hk]
    rfl

end Sys2Proof.Machine
end

section
/-! O44 to O50: the report sections (R173 to R180), each with the exact lines it appends. -/

namespace Sys2Proof.Machine

/-! ## What an operation appends -/

/-- From every state with the record `d` the operation appends the lines `ls` and changes nothing else. -/
def emits (d : Record) (ls : List Text) (x : Op Unit) : Prop :=
  ∀ s : State, s.df = d → x s = .ok () { s with lines := s.lines ++ ls }

theorem emits.procedure_eq {s : State} {ls : List Text} {x : Op Unit} (h : emits s.df ls x) :
    procedure (x s) = .next { s with lines := s.lines ++ ls } := congrArg procedure (h s rfl)

section
variable {d : Record} {ls ms : List Text} {l : Text} {t : SecTag} {xs : List (Op Unit)}

theorem emits_end : emits d [] (seqOps []) := fun s _ => by simp

theorem emits_cons {x : Op Unit} (hx : emits d ls x) (hxs : emits d ms (seqOps xs)) :
    emits d (ls ++ ms) (seqOps (x :: xs)) := by
  intro s hs
  rw [seqOps_cons_ok (hx s hs), hxs { s with lines := s.lines ++ ls } hs, List.append_assoc]

theorem emits_last {x : Op Unit} (hx : emits d ls x) : emits d ls (seqOps [x]) := by
  simpa using emits_cons hx emits_end

theorem emits_line {c : Text} (hl : prefixOf t ++ c = l) : emits d [l] (lineOp t c) := by
  rintro s -
  rw [lineOp_eq, hl]
  rfl

theorem emits_field {α : Type} {label : Text} {g : Record → Option α} {r : Reg} {f : α → Text} {v : α}
    (hv : g d = some v) (hl : prefixOf t ++ kvOf label (f v) = l) : emits d [l] (fieldLine t label g r f) := by
  rintro s rfl
  rw [fieldLine_some hv, hl]
  rfl

theorem emits_flag {w : Nat} {g : Record → Option (BitVec w)} {r : Reg} {pos : Fin 8}
    {view : BitVec w → BitVec 1} {label : BitVec 1 → Text} {v : BitVec w} (hv : g d = some v)
    (hl : prefixOf t ++ annotOf (mask8Of pos (view v)) (label (view v)) = l) :
    emits d [l] (flagLine t g r pos view label) := by
  rintro s rfl
  rw [flagLine_some hv, hl]
  rfl

/-! One line, and then the rest of a section. -/

theorem emits_line_then {c : Text} (hl : prefixOf t ++ c = l) (h : emits d ls (seqOps xs)) :
    emits d (l :: ls) (seqOps (lineOp t c :: xs)) := emits_cons (emits_line hl) h

theorem emits_blank_then (hl : prefixOf t = l) (h : emits d ls (seqOps xs)) :
    emits d (l :: ls) (seqOps (blankOp t :: xs)) := emits_line_then ((List.append_nil _).trans hl) h

theorem emits_field_then {α : Type} {label : Text} {g : Record → Option α} {r : Reg} {f : α → Text} {v : α}
    (hv : g d = some v) (hl : prefixOf t ++ kvOf label (f v) = l) (h : emits d ls (seqOps xs)) :
    emits d (l :: ls) (seqOps (fieldLine t label g r f :: xs)) := emits_cons (emits_field hv hl) h

/-- The line of a view is one of two, by the bit of the register that the view is (R25, R159). -/
theorem emits_flag_then {w : Nat} {g : Record → Option (BitVec w)} {r : Reg} {pos : Fin 8} {i : Nat}
    {label : BitVec 1 → Text} {v : BitVec w} {a b : Text} (hv : g d = some v)
    (ha : prefixOf t ++ annotOf (mask8Of pos 1) (label 1) = a)
    (hb : prefixOf t ++ annotOf (mask8Of pos 0) (label 0) = b) (h : emits d ls (seqOps xs)) :
    emits d ((if v.getLsbD i then a else b) :: ls) (seqOps (flagLine t g r pos (flagOf i) label :: xs)) :=
  emits_cons (emits_flag hv (annot_line_cases v i pos label _ a b ha hb)) h

/-- A line of a 16-bit field in hexadecimal (R151). -/
theorem line_hex16 {p label : Text} (hp : prefixOf t ++ (label ++ txt " = ") = p) (v : BitVec 16) :
    prefixOf t ++ kvOf label (hexbytesOf (bytesOf v.toNat 2)) = p ++ hex16 v := by
  rw [hexbytesOf_half, ← hp, List.append_assoc]
  rfl

/-! ## The payload sample (R163, R180) -/

theorem dumpLines_eq (t : SecTag) (b : List Byte) : (dumpRowsOf b).map (prefixOf t ++ ·) = dumpLines t b := by
  rw [dumpRowsOf, List.map_map]
  rfl

theorem emits_dump (b : List Byte) : emits d (dumpLines t b) (dumpOp t b) := by
  rintro s -
  rw [dumpOp_eq, dumpLines_eq]

end

theorem sampleOf_of_length {d : Record} (h : d.sample.length = d.sampleLen.toNat) :
    sampleOf d = some d.sample := by
  rw [sampleOf_held h.ge, ← h, List.take_length]

/-- `RENDER_DATA` (R180): the heading, the dump of the sample and a blank line. -/
theorem emits_renderData {d : Record} (t : SecTag) (h : d.sample.length = d.sampleLen.toNat) :
    emits d ([prefixOf t ++ txt "Data: (first " ++ decOf d.sampleLen.toNat ++ txt " bytes)"] ++
      dumpLines t d.sample ++ [prefixOf t]) (renderDataOp t) := by
  rintro s rfl
  unfold renderDataOp
  rw [bindOp_ok (readReg_some .sample (sampleOf_of_length h))]
  have hhead : prefixOf t ++ (strData1 ++ decOf s.df.sampleLen.toNat ++ strData2) =
      prefixOf t ++ txt "Data: (first " ++ decOf s.df.sampleLen.toNat ++ txt " bytes)" := by
    simp only [← List.append_assoc]
    rfl
  rw [List.append_assoc]
  exact emits_line_then hhead (emits_cons (emits_dump _) (emits_blank_then rfl emits_end)) s rfl

/-- Settles O48. -/
theorem renderDataLines : Obligations.RenderDataLines := fun g _ h => (emits_renderData g h).procedure_eq

/-! ## The sections -/

/-- Settles O44: line by line of R173. -/
theorem renderEtherLines : Obligations.RenderEtherLines := by
  intro s n d c y hsize hdst hsrc htype
  refine emits.procedure_eq (x := renderEtherOp) <| emits_line_then rfl <| emits_blank_then rfl <|
    emits_field_then hsize rfl <| emits_field_then hdst rfl <| emits_field_then hsrc rfl <|
    emits_field_then htype ?_ <| emits_blank_then rfl emits_end
  rw [hexbytesOf_half]
  rfl

theorem decOf_fragOff (w : BitVec 16) : mul8Of (ipFragOff w).toNat = 8 * (w.toNat % 8192) := by
  rw [ipFragOff_eq_extract, mul8Of, Nat.mul_comm, BitVec.extractLsb'_toNat]
  rfl

/-- Settles O45: line by line of R174; the line of a flag by the two values of its bit. -/
theorem renderIpLines : Obligations.RenderIpLines := by
  intro s ver hl tos tl id w ttl p ck src dst hver hhl htos htl hid hw httl hp hck hsrc hdst
  refine emits.procedure_eq (x := renderIpOp) <| emits_line_then rfl <| emits_blank_then rfl <|
    emits_field_then hver rfl <| emits_field_then hhl rfl <| emits_field_then htos rfl <|
    emits_line_then rfl <| emits_flag_then htos rfl rfl <| emits_flag_then htos rfl rfl <|
    emits_flag_then htos rfl rfl <| emits_field_then htl rfl <| emits_field_then hid rfl <|
    emits_field_then hw ?_ <| emits_flag_then hw rfl rfl <| emits_flag_then hw rfl rfl <|
    emits_field_then hw ?_ <| emits_field_then httl rfl <| emits_field_then hp rfl <|
    emits_field_then hck (line_hex16 rfl ck) <| emits_field_then hsrc rfl <| emits_field_then hdst rfl <|
    emits_blank_then rfl emits_end
  · rw [ipFlagsByteOf_eq]
    rfl
  · rw [decOf_fragOff]
    rfl

/-- Settles O47: R176 and, line by line, R177. -/
theorem renderDiagAndIcmpLines : Obligations.RenderDiagAndIcmpLines := by
  refine ⟨fun s p hp => emits.procedure_eq (x := renderDiagOp) (emits_field hp rfl), ?_⟩
  intro s ty co ck hty hco hck
  exact emits.procedure_eq (x := renderIcmpOp) <| emits_line_then rfl <| emits_blank_then rfl <|
    emits_field_then hty rfl <| emits_field_then hco rfl <| emits_field_then hck (line_hex16 rfl ck) <|
    emits_blank_then rfl emits_end

/-- Settles O49: line by line of R178, and the data part. -/
theorem renderTcpLines : Obligations.RenderTcpLines := by
  intro s sp dp sq ak df fl wi ck up hsp hdp hsq hak hdf hfl hwi hck hup hsample
  refine emits.procedure_eq (x := renderTcpOp) <| emits_line_then rfl <| emits_blank_then rfl <|
    emits_field_then hsp rfl <| emits_field_then hdp rfl <| emits_field_then hsq rfl <|
    emits_field_then hak rfl <| emits_field_then hdf ?_ <| emits_field_then hfl ?_ <|
    emits_flag_then hfl rfl rfl <| emits_flag_then hfl rfl rfl <| emits_flag_then hfl rfl rfl <|
    emits_flag_then hfl rfl rfl <| emits_flag_then hfl rfl rfl <| emits_flag_then hfl rfl rfl <|
    emits_field_then hwi rfl <| emits_field_then hck (line_hex16 rfl ck) <| emits_field_then hup rfl <|
    emits_blank_then rfl <| emits_last (emits_renderData .tcp hsample)
  · rw [mul4Of, Nat.mul_comm]
    rfl
  · rw [BitVec.ofNat_toNat]
    rfl

/-- Settles O50: line by line of R179, and the data part. -/
theorem renderUdpLines : Obligations.RenderUdpLines := by
  intro s sp dp ln ck hsp hdp hln hck hsample
  exact emits.procedure_eq (x := renderUdpOp) <| emits_line_then rfl <| emits_blank_then rfl <|
    emits_field_then hsp rfl <| emits_field_then hdp rfl <| emits_field_then hln rfl <|
    emits_field_then hck (line_hex16 rfl ck) <| emits_blank_then rfl <|
    emits_last (emits_renderData .udp hsample)

end Sys2Proof.Machine
end

section
/-! O53: RENDER as the section operations in order (R171, R182). -/

namespace Sys2Proof.Machine

/-- The sections behind the Ethernet section (R171). -/
def Record.transportSections (d : Record) : List Instr :=
  match d.tag with
  | .none => []
  | .icmp => [.renderIcmp]
  | .tcp => [.renderTcp]
  | .udp => [.renderUdp]
  | .unknown => [.renderDiag]

theorem Record.sections_of_ip_absent {d : Record} (h : d.ipValid = false) : d.sections = [.renderEther] := if_pos h

theorem Record.sections_of_ip_valid {d : Record} (h : d.ipValid = true) :
    d.sections = .renderEther :: .renderIp :: d.transportSections := by
  unfold Record.sections Record.transportSections
  rw [if_neg (by rw [h]; decide)]
  cases d.tag <;> rfl

/-- A section never raises, so the instructions one after another do what the operations in sequence do. -/
theorem execSeq_cons {i : Instr} {is : List Instr} {x : Op Unit} {xs : List (Op Unit)} {s : State}
    (hi : exec i s = procedure (x s)) (hx : onlyEmits x)
    (hrest : ∀ t : State, t.df = s.df → execSeq is t = procedure (seqOps xs t)) :
    execSeq (i :: is) s = procedure (seqOps (x :: xs) s) := by
  obtain ⟨ls, hok, -⟩ | ⟨r, hr⟩ := hx s
  · have hnext : exec i s = .next { s with lines := s.lines ++ ls } := hi.trans (congrArg procedure hok)
    simp only [execSeq, hnext]
    rw [seqOps_cons_ok hok]
    exact hrest _ rfl
  · have hrefused : exec i s = .refused r := hi.trans (congrArg procedure hr)
    simp only [execSeq, hrefused]
    rw [seqOps_cons_refuse hr]
    rfl

theorem seqOps_single (x : Op Unit) (s : State) : seqOps [x] s = x s := by
  rw [seqOps_cons]
  unfold bindOp
  cases x s <;> rfl

theorem execSeq_single {i : Instr} {x : Op Unit} {s : State} (hi : exec i s = procedure (x s))
    (hx : onlyEmits x) : execSeq [i] s = procedure (x s) := by
  rw [execSeq_cons (xs := []) hi hx fun _ _ => rfl, seqOps_single]

theorem execSeq_transportSections (s : State) :
    execSeq s.df.transportSections s = procedure (renderTransportOp s) := by
  unfold Record.transportSections renderTransportOp
  cases s.df.tag with
  | none => rfl
  | icmp => exact execSeq_single rfl onlyEmits_renderIcmp
  | tcp => exact execSeq_single rfl onlyEmits_renderTcp
  | udp => exact execSeq_single rfl onlyEmits_renderUdp
  | unknown => exact execSeq_single rfl onlyEmits_renderDiag

theorem execSeq_ip_valid {s : State} (h : s.df.ipValid = true) :
    execSeq (.renderIp :: s.df.transportSections) s = procedure (renderIpPartOp s) := by
  have hpart : renderIpPartOp s = seqOps [renderIpOp, renderTransportOp] s := if_pos h
  rw [hpart]
  refine execSeq_cons rfl onlyEmits_renderIp fun t ht => ?_
  rw [seqOps_single, ← ht, execSeq_transportSections]

theorem execSeq_sections (s : State) :
    execSeq s.df.sections s = procedure (seqOps [renderEtherOp, renderIpPartOp] s) := by
  cases hv : s.df.ipValid with
  | false =>
    rw [Record.sections_of_ip_absent hv]
    refine execSeq_cons rfl onlyEmits_renderEther fun t ht => ?_
    have hpart : renderIpPartOp t = skipOp t := if_neg (by rw [ht, hv]; decide)
    rw [seqOps_single, hpart]
    rfl
  | true =>
    rw [Record.sections_of_ip_valid hv]
    refine execSeq_cons rfl onlyEmits_renderEther fun t ht => ?_
    rw [seqOps_single, ← ht, execSeq_ip_valid (by rw [ht, hv])]

theorem renderOp_with_record {s : State} (h : s.status = .ok) :
    renderOp s = seqOps [renderEtherOp, renderIpPartOp] s.clearLines := if_pos h

theorem onlyEmits_report : onlyEmits (seqOps [renderEtherOp, renderIpPartOp]) :=
  onlyEmits_seq (by simp [onlyEmits_renderEther, onlyEmits_renderIpPart])

theorem exec_render_eq (s : State) :
    exec .render s = if s.status = .ok then execSeq s.df.sections s.clearLines else .next s := by
  have hexec : exec .render s = procedure (renderOp s) := rfl
  split
  · next h => rw [hexec, renderOp_with_record h, ← execSeq_sections s.clearLines, State.clearLines_df]
  · next h => rw [hexec, renderOp_without_record h, procedure_ok]

/-- RENDER writes the lines only (R182). -/
theorem exec_render_lines {s t : State} (e : exec .render s = .next t) : ∃ ls, t = { s with lines := ls } := by
  have hexec : procedure (renderOp s) = .next t := e
  by_cases h : s.status = .ok
  · rw [renderOp_with_record h] at hexec
    obtain ⟨ls, rfl, -⟩ := procedure_appends onlyEmits_report hexec
    exact ⟨_, rfl⟩
  · rw [renderOp_without_record h] at hexec
    cases hexec
    exact ⟨s.lines, rfl⟩

/-- Settles O53: the second RENDER begins, with the lines emptied, where the first one did. -/
theorem renderRunsSectionsOfRecord : Obligations.RenderRunsSectionsOfRecord := by
  refine ⟨exec_render_eq, fun s t e => ?_⟩
  by_cases h : s.status = .ok
  · obtain ⟨ls, rfl⟩ := exec_render_lines e
    rw [exec_render_eq, if_pos h] at e ⊢
    exact e
  · rw [exec_render_eq, if_neg h] at e
    cases e
    rw [exec_render_eq, if_neg h]

/-- Settles O54: the count of R181 is that of the sections, and a complete record's is at most 52. -/
theorem renderCompletesWithLineCount : Obligations.RenderCompletesWithLineCount := by
  intro s n hs h
  obtain ⟨ls, hls, hlen, hreport⟩ := renderOp_complete hs h
  exact ⟨ls, congrArg procedure hls, hlen, hlen.trans_le h.reportLength_le, hreport⟩

end Sys2Proof.Machine
end

section
/-! O55, O57: on a complete record the report is a list of lines that the record alone determines, and each is short
(R181, R184). Only the line with the packet size grows with the length of the frame (log entry 5). -/

namespace Sys2Proof.Machine

/-! ## The lengths of the values (R150 to R161) -/

theorem decOf_toNat_length {w : Nat} (v : BitVec w) (hw : w ≤ 32) : (decOf v.toNat).length ≤ 10 := by
  have hv : v.toNat < 2 ^ 32 := v.isLt.trans_le (Nat.pow_le_pow_right (by decide) hw)
  exact decOf_length_le (by decide) (by omega)

theorem fmtMacOf_length (v : BitVec 48) : (fmtMacOf v).length = 17 := rfl

theorem fmtIp4Of_length_le (v : BitVec 32) : (fmtIp4Of v).length ≤ 15 := by
  have hgroups (a b c d : Byte) :
      (joinWith '.' [decOf a.toNat, decOf b.toNat, decOf c.toNat, decOf d.toNat]).length ≤ 15 := by
    have ha := (decOf_byte_length a).2
    have hb := (decOf_byte_length b).2
    have hc := (decOf_byte_length c).2
    have hd := (decOf_byte_length d).2
    simp only [joinWith, List.length_append, List.length_cons]
    omega
  exact hgroups _ _ _ _

theorem hex16_length (v : BitVec 16) : (hex16 v).length = 6 := rfl

theorem protoNoteOf_length_le (p : BitVec 8) : (protoNoteOf p).length ≤ 7 := by
  unfold protoNoteOf
  split_ifs <;> decide

theorem mask8Of_length (pos : Fin 8) (b : BitVec 1) : (mask8Of pos b).length = 9 := by
  rw [mask8Of_eq]
  rfl

theorem annotOf_mask8_length (pos : Fin 8) (b : BitVec 1) (label : Text) :
    (annotOf (mask8Of pos b) label).length = 18 + label.length := by
  simp only [annotOf, List.length_append, mask8Of_length]
  rfl

theorem kvOf_length (label v : Text) : (kvOf label v).length = label.length + 3 + v.length := by
  simp only [kvOf, List.length_append]
  rfl

/-! ## Short lines -/

/-- From every state with the record `d` the operation appends the same lines and changes nothing else; a line that is
longer than 64 characters has at most `m`. -/
def emitsShort (d : Record) (m : Nat) (x : Op Unit) : Prop :=
  ∃ ls, emits d ls x ∧ ∀ l ∈ ls, l.length ≤ max 64 m

section
variable {d : Record} {m n : Nat} {t : SecTag} {xs : List (Op Unit)}

theorem emitsShort_end : emitsShort d m (seqOps []) := ⟨[], emits_end, nofun⟩

theorem emitsShort_cons {x : Op Unit} (hx : emitsShort d m x) (hxs : emitsShort d m (seqOps xs)) :
    emitsShort d m (seqOps (x :: xs)) := by
  obtain ⟨ls, hls, hl⟩ := hx
  obtain ⟨ms, hms, hm⟩ := hxs
  exact ⟨ls ++ ms, emits_cons hls hms, fun l h => (List.mem_append.mp h).elim (hl l) (hm l)⟩

theorem emitsShort_one {x : Op Unit} {c : Text} (hx : emits d [prefixOf t ++ c] x)
    (hc : 8 + c.length ≤ max 64 m) : emitsShort d m x :=
  ⟨_, hx, by simpa using hc⟩

theorem emitsShort_line_then {c : Text} (hc : c.length ≤ 56) (h : emitsShort d m (seqOps xs)) :
    emitsShort d m (seqOps (lineOp t c :: xs)) :=
  emitsShort_cons (emitsShort_one (emits_line rfl) (by omega)) h

theorem emitsShort_blank_then (h : emitsShort d m (seqOps xs)) : emitsShort d m (seqOps (blankOp t :: xs)) :=
  emitsShort_line_then (Nat.zero_le 56) h

section
variable {α : Type} {label : Text} {g : Record → Option α} {r : Reg} {f : α → Text}

theorem emitsShort_field (hv : (g d).isSome = true) (hl : label.length ≤ 23) (hf : ∀ v, (f v).length ≤ 30) :
    emitsShort d m (fieldLine t label g r f) := by
  obtain ⟨v, hv⟩ := Option.isSome_iff_exists.mp hv
  have hfv := hf v
  exact emitsShort_one (emits_field hv rfl) (by rw [kvOf_length]; omega)

theorem emitsShort_field_then (hv : (g d).isSome = true) (hl : label.length ≤ 23) (hf : ∀ v, (f v).length ≤ 30)
    (h : emitsShort d m (seqOps xs)) : emitsShort d m (seqOps (fieldLine t label g r f :: xs)) :=
  emitsShort_cons (emitsShort_field hv hl hf) h

end

theorem emitsShort_flag_then {w : Nat} {g : Record → Option (BitVec w)} {r : Reg} {pos : Fin 8}
    {view : BitVec w → BitVec 1} {label : BitVec 1 → Text} (hv : (g d).isSome = true)
    (hl : ∀ b, (label b).length ≤ 38) (h : emitsShort d m (seqOps xs)) :
    emitsShort d m (seqOps (flagLine t g r pos view label :: xs)) := by
  obtain ⟨v, hv⟩ := Option.isSome_iff_exists.mp hv
  have hlv := hl (view v)
  exact emitsShort_cons (emitsShort_one (emits_flag hv rfl) (by rw [annotOf_mask8_length]; omega)) h

/-! ## The sections -/

/-- Only the packet size, a number of any length, can make a line longer than 64 characters (R173). -/
theorem emitsShort_renderEther (hsize : d.frameSize = some n) (heth : d.ethHeld true) :
    emitsShort d (28 + (decOf n).length) renderEtherOp := by
  obtain ⟨hdst, hsrc, htype⟩ := heth
  refine emitsShort_line_then (by decide) <| emitsShort_blank_then <|
    emitsShort_cons (emitsShort_one (emits_field hsize rfl) ?_) <|
    emitsShort_field_then hdst (by decide) (fun v => ?_) <|
    emitsShort_field_then hsrc (by decide) (fun v => ?_) <|
    emitsShort_field_then htype (by decide) (fun v => ?_) <| emitsShort_blank_then emitsShort_end
  · rw [kvOf_length, List.length_append, show strSize.length = 11 from rfl, show strBytes.length = 6 from rfl]
    omega
  · rw [fmtMacOf_length]
    decide
  · rw [fmtMacOf_length]
    decide
  · rw [List.length_append, hexbytesOf_half, hex16_length]
    split <;> decide

theorem decimal_short {w : Nat} (hw : w ≤ 32) (v : BitVec w) : (decOf v.toNat).length ≤ 30 :=
  (decOf_toNat_length v hw).trans (by decide)

/-- A number of at most 10 digits with a unit or a note behind it. -/
theorem append_short {c u : Text} (hc : c.length ≤ 10) (hu : u.length ≤ 20) : (c ++ u).length ≤ 30 := by
  rw [List.length_append]
  omega

theorem hex16_short (v : BitVec 16) : (hexbytesOf (bytesOf v.toNat 2)).length ≤ 30 := by
  rw [hexbytesOf_half, hex16_length]
  decide

theorem hexByte_short (b : Byte) : (hexbytesOf [b]).length ≤ 30 := by
  rw [hexbytesOf, List.flatMap_singleton, List.length_append, hex2Of_length]
  decide

theorem ipAddress_short (v : BitVec 32) : (fmtIp4Of v).length ≤ 30 := (fmtIp4Of_length_le v).trans (by decide)

theorem fragOffset_length (v : BitVec 13) : (decOf (mul8Of v.toNat)).length ≤ 10 :=
  decOf_length_le (by decide) (by have := v.isLt; simp only [mul8Of]; omega)

theorem dataOffset_length (v : BitVec 4) : (decOf (mul4Of v.toNat)).length ≤ 10 :=
  decOf_length_le (by decide) (by have := v.isLt; simp only [mul4Of]; omega)

theorem emitsShort_renderIp (h : d.ipHeld true) : emitsShort d m renderIpOp := by
  obtain ⟨hver, hhl, htos, htl, hid, hw, httl, hp, hck, hsrc, hdst⟩ := h
  have hbytes : strBytes.length ≤ 20 := by decide
  exact emitsShort_line_then (by decide) <| emitsShort_blank_then <|
    emitsShort_field_then hver (by decide) (decimal_short (by decide)) <|
    emitsShort_field_then hhl (by decide) (fun v => append_short (decOf_toNat_length v (by decide)) hbytes) <|
    emitsShort_field_then htos (by decide) hexByte_short <|
    emitsShort_line_then (by decide) <|
    emitsShort_flag_then htos (fun b => by unfold strDelay; split <;> decide) <|
    emitsShort_flag_then htos (fun b => by unfold strThroughput; split <;> decide) <|
    emitsShort_flag_then htos (fun b => by unfold strReliability; split <;> decide) <|
    emitsShort_field_then htl (by decide) (fun v => append_short (decOf_toNat_length v (by decide)) hbytes) <|
    emitsShort_field_then hid (by decide) (decimal_short (by decide)) <|
    emitsShort_field_then hw (by decide) (fun v => hexByte_short _) <|
    emitsShort_flag_then hw (fun b => by unfold strDf; split <;> decide) <|
    emitsShort_flag_then hw (fun b => by unfold strMf; split <;> decide) <|
    emitsShort_field_then hw (by decide) (fun v => append_short (fragOffset_length _) hbytes) <|
    emitsShort_field_then httl (by decide)
      (fun v => append_short (decOf_toNat_length v (by decide)) (by decide)) <|
    emitsShort_field_then hp (by decide)
      (fun v => append_short (decOf_toNat_length v (by decide)) ((protoNoteOf_length_le v).trans (by decide))) <|
    emitsShort_field_then hck (by decide) hex16_short <|
    emitsShort_field_then hsrc (by decide) ipAddress_short <|
    emitsShort_field_then hdst (by decide) ipAddress_short <| emitsShort_blank_then emitsShort_end

theorem emitsShort_renderDiag (h : d.ipProto.isSome = true) : emitsShort d m renderDiagOp :=
  emitsShort_field h (by decide) (decimal_short (by decide))

theorem emitsShort_renderIcmp (h : d.icmpHeld true) : emitsShort d m renderIcmpOp := by
  obtain ⟨hty, hco, hck⟩ := h
  exact emitsShort_line_then (by decide) <| emitsShort_blank_then <|
    emitsShort_field_then hty (by decide) (decimal_short (by decide)) <|
    emitsShort_field_then hco (by decide) (decimal_short (by decide)) <|
    emitsShort_field_then hck (by decide) hex16_short <| emitsShort_blank_then emitsShort_end

/-- A row of the dump fills the 64 characters (R161, R181). -/
theorem dumpLines_length {t : SecTag} {b : List Byte} {l : Text} (h : l ∈ dumpLines t b) : l.length = 64 := by
  obtain ⟨k, -, rfl⟩ := List.mem_map.mp h
  rw [List.length_append, prefixOf_length, dumpRowOf_length (List.length_take_le 16 _)]

theorem emitsShort_renderData (t : SecTag) (h : d.sample.length = d.sampleLen.toNat) :
    emitsShort d m (renderDataOp t) := by
  refine ⟨_, emits_renderData t h, fun l hl => ?_⟩
  have hcount := decOf_toNat_length d.sampleLen (by decide)
  simp only [List.mem_append, List.mem_singleton] at hl
  obtain (rfl | hrow) | rfl := hl
  · simp only [List.length_append, prefixOf_length]
    rw [show (txt "Data: (first ").length = 13 from rfl, show (txt " bytes)").length = 7 from rfl]
    omega
  · rw [dumpLines_length hrow]
    omega
  · rw [prefixOf_length]
    omega

theorem flaglabelOf_length_le {name : Text} (h : name.length ≤ 35) (b : BitVec 1) :
    (flaglabelOf name b).length ≤ 38 := by
  have hno : strNo.length = 3 := rfl
  unfold flaglabelOf
  split
  · omega
  · rw [List.length_append]
    omega

theorem emitsShort_renderTcp (h : d.tcpHeld true) (hs : d.sample.length = d.sampleLen.toNat) :
    emitsShort d m renderTcpOp := by
  obtain ⟨hsp, hdp, hsq, hak, hdf, hfl, hwi, hck, hup⟩ := h
  exact emitsShort_line_then (by decide) <| emitsShort_blank_then <|
    emitsShort_field_then hsp (by decide) (decimal_short (by decide)) <|
    emitsShort_field_then hdp (by decide) (decimal_short (by decide)) <|
    emitsShort_field_then hsq (by decide) (decimal_short (by decide)) <|
    emitsShort_field_then hak (by decide) (decimal_short (by decide)) <|
    emitsShort_field_then hdf (by decide) (fun v => append_short (dataOffset_length v) (by decide)) <|
    emitsShort_field_then hfl (by decide) (fun v => hexByte_short _) <|
    emitsShort_flag_then hfl (flaglabelOf_length_le (by decide)) <|
    emitsShort_flag_then hfl (flaglabelOf_length_le (by decide)) <|
    emitsShort_flag_then hfl (flaglabelOf_length_le (by decide)) <|
    emitsShort_flag_then hfl (flaglabelOf_length_le (by decide)) <|
    emitsShort_flag_then hfl (flaglabelOf_length_le (by decide)) <|
    emitsShort_flag_then hfl (flaglabelOf_length_le (by decide)) <|
    emitsShort_field_then hwi (by decide) (decimal_short (by decide)) <|
    emitsShort_field_then hck (by decide) hex16_short <|
    emitsShort_field_then hup (by decide) (decimal_short (by decide)) <| emitsShort_blank_then <|
    emitsShort_cons (emitsShort_renderData .tcp hs) emitsShort_end

theorem emitsShort_renderUdp (h : d.udpHeld true) (hs : d.sample.length = d.sampleLen.toNat) :
    emitsShort d m renderUdpOp := by
  obtain ⟨hsp, hdp, hln, hck⟩ := h
  exact emitsShort_line_then (by decide) <| emitsShort_blank_then <|
    emitsShort_field_then hsp (by decide) (decimal_short (by decide)) <|
    emitsShort_field_then hdp (by decide) (decimal_short (by decide)) <|
    emitsShort_field_then hln (by decide) (decimal_short (by decide)) <|
    emitsShort_field_then hck (by decide) hex16_short <| emitsShort_blank_then <|
    emitsShort_cons (emitsShort_renderData .udp hs) emitsShort_end

/-! ## The report of a complete record (R171, R182) -/

theorem emitsShort_skip : emitsShort d m skipOp := emitsShort_end

/-- An operation that on the record `d` is another one appends what that one does. -/
theorem emitsShort.of_eq {x y : Op Unit} (hx : emitsShort d m x) (h : ∀ s : State, s.df = d → y s = x s) :
    emitsShort d m y := by
  obtain ⟨ls, hls, hl⟩ := hx
  exact ⟨ls, fun s hs => (h s hs).trans (hls s hs), hl⟩

theorem Record.complete.sample_length (h : d.complete n) : d.sample.length = d.sampleLen.toNat := by
  obtain ⟨_, _, _, _, _, _, _, _, _, _, _, _, _, _, _, hsample, _⟩ := h
  exact hsample

theorem Record.complete.emitsShort_transport (h : d.complete n) : emitsShort d m renderTransportOp := by
  have hs := h.sample_length
  have hheld := h.transportHeld
  unfold Record.transportHeld at hheld
  cases ht : d.tag with
  | none => exact emitsShort_skip.of_eq fun s e => by simp only [renderTransportOp, e, ht]
  | icmp =>
    rw [ht] at hheld
    exact (emitsShort_renderIcmp hheld).of_eq fun s e => by simp only [renderTransportOp, e, ht]
  | tcp =>
    rw [ht] at hheld
    exact (emitsShort_renderTcp hheld.1 hs).of_eq fun s e => by simp only [renderTransportOp, e, ht]
  | udp =>
    rw [ht] at hheld
    exact (emitsShort_renderUdp hheld.1 hs).of_eq fun s e => by simp only [renderTransportOp, e, ht]
  | unknown =>
    rw [ht] at hheld
    exact (emitsShort_renderDiag hheld).of_eq fun s e => by simp only [renderTransportOp, e, ht]

theorem Record.complete.emitsShort_ipPart (h : d.complete n) : emitsShort d m renderIpPartOp := by
  cases hv : d.ipValid with
  | false =>
    exact emitsShort_skip.of_eq fun s e => by
      simp only [renderIpPartOp, e, hv, Bool.false_eq_true, if_false]
  | true =>
    have hip := h.ipHeld_of_tag (by simp [h.tag_none_iff, hv])
    have hsections : emitsShort d m (seqOps [renderIpOp, renderTransportOp]) :=
      emitsShort_cons (emitsShort_renderIp hip) (emitsShort_cons h.emitsShort_transport emitsShort_end)
    exact hsections.of_eq fun s e => by simp only [renderIpPartOp, e, hv, if_true]

theorem Record.complete.emitsShort_report (h : d.complete n) :
    emitsShort d (28 + (decOf n).length) (seqOps [renderEtherOp, renderIpPartOp]) := by
  have hip := h.emitsShort_ipPart (m := 28 + (decOf n).length)
  obtain ⟨hsize, _, _, heth, _⟩ := h
  exact emitsShort_cons (emitsShort_renderEther hsize heth) (emitsShort_cons hip emitsShort_end)

/-- A complete record determines its report, whatever else the state holds (R182). -/
theorem Record.complete.renderOp_eq (h : d.complete n) : ∃ ls : List Text,
    (∀ l ∈ ls, l.length ≤ max 64 (28 + (decOf n).length)) ∧
      ∀ s : State, s.status = .ok → s.df = d → renderOp s = .ok () { s with lines := ls } := by
  obtain ⟨ls, hls, hl⟩ := h.emitsShort_report
  refine ⟨ls, hl, fun s hs hd => ?_⟩
  rw [renderOp_with_record hs, hls s.clearLines hd]
  rfl

end

/-! ## RENDER from the outcome of DECODE -/

/-- DECODE ends with a complete record, or in TruncatedInput without a line (R45). -/
theorem decodeOutcome_status (s : State) :
    (s.decodeOutcome.status = .truncated ∧ s.decodeOutcome.lines = []) ∨
      (s.decodeOutcome.status = .ok ∧ s.decodeOutcome.df.complete s.len) := by
  obtain ⟨h, c, -, e⟩ | ⟨d, c, -, hd, e⟩ := decodeOutcome_cases s <;> rw [e]
  · exact .inl ⟨rfl, rfl⟩
  · exact .inr ⟨rfl, hd⟩

theorem renderOp_truncated {s : State} (h : s.status = .truncated) : renderOp s = .ok () s :=
  renderOp_without_record (by rw [h]; decide)

/-- Settles O55: a number below 10^36 has at most 36 digits. -/
theorem linesHaveAtMost64Characters : Obligations.LinesHaveAtMost64Characters := by
  intro s t hlen e
  have hrun : procedure (renderOp s.decodeOutcome) = .next t := (execRun_eq s).symm.trans e
  obtain ⟨hs, hlines⟩ | ⟨hs, hd⟩ := decodeOutcome_status s
  · rw [renderOp_truncated hs] at hrun
    obtain rfl := Host.Outcome.next.inj hrun
    rw [hlines]
    nofun
  · obtain ⟨ls, hl, hrender⟩ := hd.renderOp_eq
    rw [hrender _ hs rfl] at hrun
    obtain rfl := Host.Outcome.next.inj hrun
    have hdigits := decOf_length_le (by decide) hlen
    intro l hmem
    have hbound := hl l hmem
    omega

/-- Settles O56: R140's outcome, and from it RENDER. -/
theorem runIsDecodeThenRender : Obligations.RunIsDecodeThenRender := by
  intro s
  have hdecode : exec .decode s = .next s.decodeOutcome := procedure_decodeOp s
  have hrun : exec .run s = exec .render s.decodeOutcome := execRun_eq s
  obtain ⟨hs, hlines⟩ | ⟨hs, hd⟩ := decodeOutcome_status s
  · have hrender : exec .render s.decodeOutcome = .next s.decodeOutcome :=
      congrArg procedure (renderOp_truncated hs)
    exact ⟨_, _, hdecode, hrender, hrun.trans hrender, rfl, .inr ⟨hs, hlines⟩⟩
  · obtain ⟨ls, hls, hcount, -⟩ := renderOp_complete hs hd
    have hrender : exec .render s.decodeOutcome = .next { s.decodeOutcome with lines := ls } :=
      congrArg procedure hls
    exact ⟨_, _, hdecode, hrender, hrun.trans hrender, rfl, .inl ⟨hs, hcount⟩⟩

/-- Settles O57: the two DECODEs leave the same record, and the record determines the report. -/
theorem runDependsOnVisibleBytesOnly : Obligations.RunDependsOnVisibleBytesOnly := by
  intro s s' hlen h
  obtain ⟨hstatus, herr, hdf, hl, hl', -⟩ := decodeOutcome_decodesLike hlen h
  have hrun (u : State) : exec .run u = procedure (renderOp u.decodeOutcome) := execRun_eq u
  rw [hrun, hrun]
  obtain ⟨hs, -⟩ | ⟨hs, hd⟩ := decodeOutcome_status s
  · rw [renderOp_truncated hs, renderOp_truncated (hstatus.symm.trans hs)]
    exact ⟨_, _, rfl, rfl, hstatus, herr, hdf, hl.trans hl'.symm⟩
  · obtain ⟨ls, -, hrender⟩ := hd.renderOp_eq
    rw [hrender _ hs rfl, hrender _ (hstatus.symm.trans hs) hdf.symm]
    exact ⟨_, _, rfl, rfl, hstatus, herr, hdf, rfl⟩

end Sys2Proof.Machine
end

section
/-! O27, O46, O60: the started operation as one step (R223), the flags summary byte (R175), and that no step from the
invariant stops. -/

namespace Sys2Proof.Machine

/-- Settles O27. -/
theorem stepRunsStartedOperation : Obligations.StepRunsStartedOperation := by
  intro i s hp
  simp only [step, hp, State.withPending]

theorem and_top_three_bits (b : Byte) :
    (b &&& (0xe0 : Byte)).toNat = b.toNat / 128 % 2 * 128 + b.toNat / 64 % 2 * 64 + b.toNat / 32 % 2 * 32 := by
  have hshift : b &&& (0xe0 : Byte) = (b >>> 5) <<< 5 := by
    ext i hi
    interval_cases i <;> simp
  have hb := b.isLt
  rw [hshift, BitVec.toNat_shiftLeft, BitVec.toNat_ushiftRight, Nat.shiftRight_eq_div_pow, Nat.shiftLeft_eq]
  omega

/-- Settles O46: the top three bits of the high byte are those of the word. -/
theorem ipflagsByteKeepsTopThreeBits : Obligations.IpflagsByteKeepsTopThreeBits := by
  intro s w hw
  refine ⟨(ipFlagsByteOf w).toNat, congrArg (valued _) (readReg_some .ipFlagsFrag hw), ?_,
    congrArg BitVec.toNat (ipFlagsByteOf_eq w)⟩
  rw [ipFlagsByteOf_eq, and_top_three_bits]
  simp only [ipRsv, ipDf, ipMf, flagOf_eq_extract, BitVec.extractLsb'_toNat, Nat.shiftRight_eq_div_pow]
  omega

/-- A transaction between transactions, or RESET, completes (R183, R210). -/
theorem exec_hostStarted_completes {i : Instr} (hi : i.hostStarted = true) {s : State} (hc : s.coherent) :
    ∃ t, exec i s = .next t := by
  obtain htrans | rfl | rfl := (hostStarted_iff i).mp hi
  · obtain ⟨h, c, -, e⟩ | ⟨d, c, ls, -, -, -, -, e⟩ := exec_decode_or_run htrans s <;> exact ⟨_, e⟩
  · by_cases hs : s.status = .ok
    · obtain ⟨-, n, hn⟩ := hc.complete hs
      obtain ⟨ls, e, -⟩ := renderOp_complete hs hn
      exact ⟨_, congrArg procedure e⟩
    · exact ⟨s, congrArg procedure (renderOp_without_record hs)⟩
  · exact ⟨s.resetUnit, rfl⟩

theorem hostStarted_wf {i : Instr} (hi : i.hostStarted = true) : i.wf = true := by
  obtain (rfl | rfl) | rfl | rfl := (hostStarted_iff i).mp hi <;> rfl

theorem step_inChain_completes {s : State} (h : s.inChain) (hp : s.pending = .header) : s.stepsSafely := by
  obtain hs | ⟨h14, hs⟩ | ⟨h34, he, hs⟩ := h.cases hp
  · exact ⟨_, (congrArg step hs).trans (step_startHeaders s)⟩
  · exact ⟨_, (congrArg step hs).trans (step_pastEth h14)⟩
  · exact ⟨_, (congrArg step hs).trans (step_pastIp h34 he)⟩

/-- Settles O60: idle, started by the host, or in a chain. -/
theorem stepUnderInvariantNeverStops : Obligations.StepUnderInvariantNeverStops := by
  rintro s ⟨-, -, -, -, hpending⟩
  cases hp : s.pending with
  | idle => exact ⟨s, by simp only [step, hp]⟩
  | op i =>
    simp only [hp] at hpending
    obtain ⟨hi, hc⟩ := hpending
    obtain ⟨t, e⟩ := exec_hostStarted_completes hi (s := { s with pending := .idle }) hc
    exact ⟨t, by rw [stepRunsStartedOperation i s hp, if_pos (hostStarted_wf hi), e]⟩
  | header =>
    simp only [hp] at hpending
    exact step_inChain_completes hpending hp

end Sys2Proof.Machine
end

section
/-! O3: TruncatedInput discards the record (R193), and a RUN whose DECODE took it has nothing to render (R182,
R183). -/

namespace Sys2Proof.Machine

/-- REQUIRE run as an instruction, with fewer than `n` bytes left (R110). -/
theorem execRequire_short {n : Nat} {h : Hdr} {s : State} (hn : s.len < s.cur + n) :
    exec (.require n h) s = .next (raiseTruncated h s) :=
  congrArg procedure (requireBytes_short h hn)

/-- After a DECODE that took TruncatedInput there is no record, so RUN's RENDER part leaves the state as it is. -/
theorem execRun_of_decode_truncated {s t : State} (e : exec .decode s = .next t) (ht : t.status = .truncated) :
    exec .run s = .next t := by
  have hdecode : exec .decode s = .next s.decodeOutcome := procedure_decodeOp s
  obtain rfl : s.decodeOutcome = t := Host.Outcome.next.inj (hdecode.symm.trans e)
  calc exec .run s
    _ = procedure (renderOp s.decodeOutcome) := execRun_eq s
    _ = .next s.decodeOutcome := congrArg procedure (renderOp_truncated ht)

/-- Settles O3: the state REQUIRE raises in is `raiseTruncated`'s, which R193 lists register by register. -/
theorem truncatedInputEntryDiscardsRecord : Obligations.TruncatedInputEntryDiscardsRecord := by
  refine ⟨fun n h s hn => ⟨raiseTruncated h s, execRequire_short hn, ?_⟩, fun s t => execRun_of_decode_truncated⟩
  simp [Record.empty, State.nLines]

end Sys2Proof.Machine
end

section
/-! O29: the unit between transactions (R225). -/

namespace Sys2Proof.Machine

/-- Settles O29: `step` branches on `pending` alone, and its branch for an idle unit answers the state it was
given. -/
theorem idleUnitHoldsItsState : Obligations.IdleUnitHoldsItsState := by
  intro s hidle
  simp only [step, hidle]

end Sys2Proof.Machine
end
